-- ==== Sys2Proof/Word.lean ====
section
/-! DEFINITION. The word types of the RTT ring-buffer controller (00_scope.md R7, R9, R10).

The native word size `W` is a parameter of the configuration (4 or 8 bytes, R7), so the width of a word is not known
to Lean's types. Addresses, lengths, counts and cursors are natural numbers, as rule R10 asks ("over the mathematical
integers"); every value that a `W`-byte location can hold is below `2^AW`, and `Safety.lean` states that bound. The
command word is 32 bits whatever `W` is (30_encoding.md R80) and is a bit vector. -/

namespace Sys2Proof

/-- One byte of memory (20_memory.md R50). -/
abbrev Byte := BitVec 8

/-- The value of one unsigned `W`-byte word (10_state.md R23, R30; 00_scope.md R10). -/
abbrev Word := Nat

/-- A byte address of the one address space (20_memory.md R50). -/
abbrev Addr := Nat

/-- A command word, 32 bits whatever `W` is (30_encoding.md R80). -/
abbrev CmdWord := BitVec 32

end Sys2Proof
end

