-- ==== Sys2Proof/Syntax.lean ====
section
/-! DEFINITION. The commands of the request interface (30_encoding.md R80 to R85, opcode_table.json) and the two small
name sets they use: the overflow modes and the two channel directions (00_scope.md R13). -/

namespace Sys2Proof

/-- The three overflow modes of an up channel (00_scope.md R13, 30_encoding.md R76). -/
inductive Mode where
  /-- NoBlockSkip: all or nothing. -/
  | skip
  /-- NoBlockTrim: as much as fits. -/
  | trim
  /-- BlockIfFull: hold until everything is placed. -/
  | block
deriving DecidableEq, Repr

/-- Channel direction (00_scope.md R13): up is target to host, down is host to target. -/
inductive Dir where
  | up
  | down
deriving DecidableEq, Repr

/-- The four commands, one constructor for each row of opcode_table.json. A constructor holds what the command WORD
encodes: the channel index and, for UP_SET_MODE, the new mode. The two operand values ADDR and LEN are presented beside
the word and stand in the port's registers of those names (10_state.md R30, 30_encoding.md R84). -/
inductive Instr where
  /-- `UP_WRITE ch`: write the LEN bytes at ADDR to up channel `ch` (41_write.md R120). -/
  | upWrite (ch : Nat)
  /-- `DOWN_READ ch`: read up to LEN bytes of down channel `ch` to ADDR (42_read.md R150). -/
  | downRead (ch : Nat)
  /-- `UP_GET_MODE ch`: read the mode of up channel `ch` (41_write.md R140). -/
  | upGetMode (ch : Nat)
  /-- `UP_SET_MODE ch, mode`: change the mode of up channel `ch` (41_write.md R142). -/
  | upSetMode (ch : Nat) (mode : Mode)
deriving DecidableEq, Repr

end Sys2Proof
end

