-- ==== Sys2Proof/Config.lean ====
section
/-! DEFINITION. The parameters of the controller (00_scope.md R7) and what follows from them alone: the address space, the
layout of the control block (30_encoding.md R71) and the regions it and the buffers occupy.

Rule R7 says that a model takes each parameter as an argument. `State` holds a `Config` that no step changes, so a
statement about every state is a statement about every configuration. -/

namespace Sys2Proof

/-- Byte order of every multi-byte field (00_scope.md R7 `ENDIAN`, 20_memory.md R52). -/
inductive Endian where
  | little
  | big
deriving DecidableEq, Repr

/-- The configured facts of one channel (00_scope.md R7): `NAME`, `BUF` and `SIZE`. -/
structure Channel where
  /-- The name reference word, never interpreted by the controller (30_encoding.md R78). -/
  name : Word
  /-- The address of the ring buffer's first byte. -/
  buf : Addr
  /-- The capacity in bytes. -/
  size : Nat
deriving DecidableEq, Repr

/-- An up channel has also the mode it holds after boot (00_scope.md R7 `INIT_MODE`). -/
structure UpChannel extends Channel where
  initMode : Mode
deriving DecidableEq, Repr

/-- The implementation parameters (00_scope.md R7). `SIG_LEN`, `NUP` and `NDOWN` are the lengths of the lists. -/
structure Config where
  /-- Native word size in bytes, 4 or 8. -/
  W : Nat
  endian : Endian
  /-- `SIGNATURE[0 .. SIG_LEN-1]`. -/
  signature : List Byte
  /-- `CB_BASE`, the address of the control block's first byte. -/
  cbBase : Addr
  /-- The up channels, channel 0 first. -/
  up : List UpChannel
  /-- The down channels, channel 0 first. -/
  down : List Channel
  /-- `NPORT`, the number of request ports. -/
  nport : Nat
deriving DecidableEq, Repr

namespace Config

/-- `AW = 8*W`, the address width in bits (R7). -/
def AW (c : Config) : Nat := 8 * c.W

/-- `2^AW`: the addresses are `0 .. 2^AW - 1` (20_memory.md R50). -/
def space (c : Config) : Nat := 2 ^ c.AW

def sigLen (c : Config) : Nat := c.signature.length

/-- `NUP` (R7). -/
def nup (c : Config) : Nat := c.up.length

/-- `NDOWN` (R7). -/
def ndown (c : Config) : Nat := c.down.length

/-- `CB_SIZE = SIG_LEN + 2*W + 6*W*(NUP + NDOWN)` (R7, 30_encoding.md R71). -/
def cbSize (c : Config) : Nat := c.sigLen + 2 * c.W + 6 * c.W * (c.nup + c.ndown)

/-- Where `max_up_channels` lies (30_encoding.md R71). -/
def upCountAddr (c : Config) : Addr := c.cbBase + c.sigLen

/-- Where `max_down_channels` lies (30_encoding.md R71). -/
def downCountAddr (c : Config) : Addr := c.cbBase + c.sigLen + c.W

/-- The address of the descriptor in slot `i` of the descriptor arrays: the up descriptors come first, then the down
descriptors (30_encoding.md R71). -/
def descAddr (c : Config) (i : Nat) : Addr := c.cbBase + c.sigLen + 2 * c.W + 6 * c.W * i

/-- A region of memory: its first address and its length in bytes. -/
abbrev Region := Addr × Nat

/-- The two regions have a byte in common. -/
def Region.meets (x y : Region) : Bool :=
  decide (0 < x.2) && decide (0 < y.2) && decide (x.1 < y.1 + y.2) && decide (y.1 < x.1 + x.2)

/-- The control block's region (R8 b). -/
def cbRegion (c : Config) : Region := (c.cbBase, c.cbSize)

/-- The buffer regions of all channels, up channels first (R8 b). -/
def bufRegions (c : Config) : List Region :=
  c.up.map (fun ch => (ch.buf, ch.size)) ++ c.down.map (fun ch => (ch.buf, ch.size))

/-- Every region this block uses (R8 b). -/
def regions (c : Config) : List Region := c.cbRegion :: c.bufRegions

/-- The default signature: `"SEGGER RTT"` and six bytes 00 (R7, 30_encoding.md R77). -/
def defaultSignature : List Byte :=
  [0x53, 0x45, 0x47, 0x47, 0x45, 0x52, 0x20, 0x52, 0x54, 0x54, 0, 0, 0, 0, 0, 0]

/-- The configuration of `State.reset`: the spec's defaults of R7 and, for its OPEN parameters, the values of the common
configuration of 95_test_vectors.md section 10.
DESIGN CHOICE (log entry 1). -/
def reference : Config where
  W := 4
  endian := .little
  signature := defaultSignature
  cbBase := 0x20000000
  up := [{ name := 0x08000000, buf := 0x20000100, size := 16, initMode := .skip }]
  down := [{ name := 0x08000010, buf := 0x20000200, size := 16 }]
  nport := 2

end Config

end Sys2Proof
end

