-- ==== Sys2Proof/WellFormed.lean ====
section
/-! DEFINITION. Well-formed commands (30_encoding.md R80) and well-formed configurations (00_scope.md R7, R8). -/

namespace Sys2Proof

/-- The channel index a command names. -/
def Instr.ch : Instr → Nat
  | .upWrite ch => ch
  | .downRead ch => ch
  | .upGetMode ch => ch
  | .upSetMode ch _ => ch

/-- A command is well formed when its channel index fits the 8-bit field CH (30_encoding.md R80, R82). -/
def Instr.wf (i : Instr) : Bool := decide (i.ch < 256)

namespace Config

/-- `W` is 4 or 8 (R7). -/
def wordSizeOk (c : Config) : Bool := c.W == 4 || c.W == 8

/-- `SIG_LEN` is a positive multiple of `W`, and every signature byte is ASCII (R7). -/
def signatureOk (c : Config) : Bool :=
  decide (0 < c.sigLen) && decide (c.sigLen % c.W = 0) && c.signature.all (fun b => decide (b.toNat < 128))

/-- `CB_BASE` is a multiple of `W` (R7, 20_memory.md R54). -/
def baseOk (c : Config) : Bool := decide (c.cbBase % c.W = 0)

/-- `NUP` and `NDOWN` are in 0..256 (R7). -/
def countsOk (c : Config) : Bool := decide (c.nup ≤ 256) && decide (c.ndown ≤ 256)

/-- A channel's `SIZE` is in `1 .. 2^AW - 1` and its `NAME` is a `W`-byte value (R7). -/
def channelOk (c : Config) (ch : Channel) : Bool :=
  decide (1 ≤ ch.size) && decide (ch.size < c.space) && decide (ch.name < c.space)

/-- Every channel is within its ranges (R7). -/
def channelsOk (c : Config) : Bool :=
  c.up.all (fun ch => c.channelOk ch.toChannel) && c.down.all c.channelOk

/-- `NPORT >= 1` (R7). -/
def portsOk (c : Config) : Bool := decide (1 ≤ c.nport)

/-- Every region lies inside the address space (R8 c). -/
def regionsInside (c : Config) : Bool := c.regions.all (fun r => decide (r.1 + r.2 ≤ c.space))

/-- The regions are pairwise disjoint (R8 b). -/
def regionsDisjoint (c : Config) : Bool :=
  decide (c.regions.Pairwise (fun x y => Region.meets x y = false))

/-- Configuration well-formedness (R8). A model refuses an ill-formed configuration; `Machine.step` does. -/
def wf (c : Config) : Bool :=
  c.wordSizeOk && c.signatureOk && c.baseOk && c.countsOk && c.channelsOk && c.portsOk && c.regionsInside &&
    c.regionsDisjoint

end Config

end Sys2Proof
end

