-- ==== Sys2Proof/Decode.lean ====
section
/-! DEFINITION. Decoding and encoding of the command word (30_encoding.md R80 to R88). A command is one 32-bit word; it
arrives on a port, never from memory (20_memory.md R66). -/

namespace Sys2Proof

/-! The fields of the command word (R80). -/

/-- `CMD[1:0]`, command select. -/
def cmdOp (w : CmdWord) : BitVec 2 := w.extractLsb 1 0

/-- `CMD[3:2]`, the mode operand (R83). -/
def cmdMd (w : CmdWord) : BitVec 2 := w.extractLsb 3 2

/-- `CMD[15:4]`, reserved, must be 0. -/
def cmdRsv0 (w : CmdWord) : BitVec 12 := w.extractLsb 15 4

/-- `CMD[23:16]`, the channel index (R82). -/
def cmdCh (w : CmdWord) : BitVec 8 := w.extractLsb 23 16

/-- `CMD[31:24]`, reserved, must be 0. -/
def cmdRsv1 (w : CmdWord) : BitVec 8 := w.extractLsb 31 24

/-- `mode_encoding` (R76), used by the MD field and by the flags word. -/
def Mode.encoding : Mode → Nat
  | .skip => 0
  | .trim => 1
  | .block => 2

/-- The mode a two-bit value stands for; 3 is reserved (R76). -/
def Mode.ofEncoding (v : Nat) : Option Mode :=
  if v = 0 then some .skip else if v = 1 then some .trim else if v = 2 then some .block else none

/-- Why a word is no command: the four cases of R86. -/
inductive Illegal where
  /-- (a) `CMD[31:24] != 0`. -/
  | rsv1
  /-- (b) `CMD[15:4] != 0`. -/
  | rsv0
  /-- (c) `OP != 0b11` and `CMD[3:2] != 0`. -/
  | modeOperand
  /-- (d) `OP = 0b11` and `CMD[3:2] = 0b11`. -/
  | modeReserved
deriving DecidableEq, Repr

/-- The decoder (R81, R85, R86): total on every word. -/
def decodeWord (w : CmdWord) : Except Illegal Instr :=
  if cmdRsv1 w ≠ 0 then .error .rsv1
  else if cmdRsv0 w ≠ 0 then .error .rsv0
  else if cmdOp w = 3 then
    match Mode.ofEncoding (cmdMd w).toNat with
    | some m => .ok (.upSetMode (cmdCh w).toNat m)
    | none => .error .modeReserved
  else if cmdMd w ≠ 0 then .error .modeOperand
  else if cmdOp w = 0 then .ok (.upWrite (cmdCh w).toNat)
  else if cmdOp w = 1 then .ok (.downRead (cmdCh w).toNat)
  else .ok (.upGetMode (cmdCh w).toNat)

/-- The OP field of a command (R81). -/
def Instr.op : Instr → Nat
  | .upWrite _ => 0
  | .downRead _ => 1
  | .upGetMode _ => 2
  | .upSetMode _ _ => 3

/-- The MD field of a command: 0 but for UP_SET_MODE (R80). -/
def Instr.md : Instr → Nat
  | .upWrite _ => 0
  | .downRead _ => 0
  | .upGetMode _ => 0
  | .upSetMode _ m => m.encoding

/-- The word of a command: CH in bits 23:16, MD in bits 3:2, OP in bits 1:0, every other bit 0 (R80). -/
def encode (i : Instr) : CmdWord :=
  BitVec.ofNat 8 0 ++ BitVec.ofNat 8 i.ch ++ BitVec.ofNat 12 0 ++ BitVec.ofNat 2 i.md ++ BitVec.ofNat 2 i.op

/-- The command the decoder reads from a table word. Every row of opcode_table.json is one 32-bit word, numbered as R80
numbers it; a command word has no other length (R80, R88). -/
def decodeTableWord (nbits w : Nat) : Option Instr :=
  if nbits = 32 ∧ w < 2 ^ 32 then (decodeWord (BitVec.ofNat 32 w)).toOption else none

end Sys2Proof
end

