-- ==== Sys2Proof/Machine/State.lean ====
section
/-! DEFINITION. The machine's state as plain data (10_state.md R20 to R37), the reasons a step can stop, the agents' moves,
and the state after reset.

The spec's four parts are `mem`, `ports`, `faults` and `booted` (R20). The boot sequence is a sequence of separate memory
writes (70_reset_and_hazards.md R233), so how far it has come is state: `bootPos`. The rest is the model's own: the
configuration (`cfg`, which no step changes), and its inputs: which agent moves next and how (`schedule`), what each
requester presents next (`Port.queue`), and the current port with the byte it picks (`active`, `pick`). -/

namespace Sys2Proof.Machine

/-! ## Stops -/

/-- The faults that stop the machine. The spec's own faults (60_exceptions.md R201) are not among them: they are recorded in
`State.faults` and the machine goes on (R202). -/
inductive Fault where
  /-- Raised by the one load and the one store operation of `Ops.lean` when an access does not lie inside the address space
  `[0, 2^AW)` (20_memory.md R50). No run from boot reaches it. Safe: the model stops (log entry 9). -/
  | noSuchAddress (a : Addr)
deriving DecidableEq, Repr

/-- The refusals. -/
inductive Refusal where
  /-- Raised by `exec`'s arm of a command that has no meaning yet; no arm does. Safe. -/
  | notModelled (mnemonic : String)
  /-- Raised by `step` when the configuration breaks 00_scope.md R8, which says that a model refuses it. Safe. -/
  | illFormedConfig
deriving DecidableEq, Repr

/-! ## The fault log -/

/-- The fault codes (60_exceptions.md R201). -/
inductive FaultCode where
  | illegalCmd
  | chRange
  | sizeZero
  | bufferRange
  | cursorRange
  | modeReserved
  | addrRange
  | payloadOverlap
  | channelRace
  | modeRace
deriving DecidableEq, Repr

/-- One record `(code, port, ch)` of the fault log (10_state.md R34). -/
structure FaultRecord where
  code : FaultCode
  port : Nat
  ch : Nat
deriving DecidableEq, Repr

/-! ## Request ports -/

/-- The phases of an UP_WRITE in flight: `W_SAMPLE`, `W_COPY`, `W_PUBLISH` (10_state.md R32). -/
inductive WritePhase where
  | sample
  | copy
  | publish
deriving DecidableEq, Repr

/-- The phases of a DOWN_READ in flight: `R_SAMPLE`, `R_COPY`, `R_PUBLISH` (10_state.md R32). -/
inductive ReadPhase where
  | sample
  | copy
  | publish
deriving DecidableEq, Repr

/-- The latches of an UP_WRITE in flight (10_state.md R33; `dir` is UP). `pending` is a set of byte indices: a list without
repeats. `n` and `pending` are 0 and empty until the first `W_SAMPLE` sets them. -/
structure WriteLatch where
  ch : Nat
  d : Addr
  size : Nat
  buf : Addr
  cur : Nat
  mode : Mode
  addr : Addr
  len : Nat
  done : Nat
  n : Nat
  pending : List Nat
deriving DecidableEq, Repr

/-- The latches of a DOWN_READ in flight (10_state.md R33; `dir` is DOWN, `mode` and `done` are not used). -/
structure ReadLatch where
  ch : Nat
  d : Addr
  size : Nat
  buf : Addr
  cur : Nat
  addr : Addr
  len : Nat
  n : Nat
  pending : List Nat
deriving DecidableEq, Repr

/-- The command in flight on a BUSY port: its phase and its latches. -/
inductive InFlight where
  | write (ph : WritePhase) (l : WriteLatch)
  | read (ph : ReadPhase) (l : ReadLatch)
deriving DecidableEq, Repr

/-- The field `STATE` of a port; a BUSY port holds its command in flight (10_state.md R30 to R33). -/
inductive PortState where
  | idle
  | busy (c : InFlight)
  | faulted
deriving DecidableEq, Repr

/-- What a requester presents in one issue step (10_state.md R30, R31). -/
structure Request where
  cmd : CmdWord
  addr : Nat
  len : Nat
deriving DecidableEq, Repr

/-- A request port (10_state.md R30). `queue` is the model's input: what the requester of this port presents at its next
issue steps, in call order (log entry 5). -/
structure Port where
  state : PortState
  cmd : CmdWord
  addr : Word
  len : Word
  result : Word
  queue : List Request
deriving DecidableEq, Repr

/-! ## The agents' moves -/

/-- A step of the host agent (43_host.md R171 to R174). -/
inductive HostStep where
  /-- `H_READ(a, n)` (R171). -/
  | read (a : Addr) (n : Nat)
  /-- `H_UP_CONSUME(c, k)` (R172). -/
  | upConsume (c k : Nat)
  /-- `H_DOWN_DATA(c, j, b)` (R173). -/
  | downData (c j : Nat) (b : Byte)
  /-- `H_DOWN_PUBLISH(c, k)` (R174). -/
  | downPublish (c k : Nat)
deriving DecidableEq, Repr

/-- What a port's registers hold after a reset: unspecified values, which the reset move supplies (10_state.md R36). -/
structure PortRegs where
  cmd : CmdWord
  addr : Nat
  len : Nat
  result : Nat
deriving DecidableEq, Repr

/-- What a reset leaves unspecified (10_state.md R36): the bytes of memory and the ports' registers. -/
structure ResetValues where
  mem : List Host.Cell
  regs : List PortRegs
deriving DecidableEq, Repr

/-- One entry of the schedule: which agent takes a step, with the choices that step leaves open (20_memory.md R59). -/
inductive Move where
  /-- Port `p` takes a step: its issue step if it is IDLE, a phase step if it is BUSY. A copy step copies the
  `pick`-th pending byte, counted modulo the number of pending bytes (41_write.md R124, 42_read.md R153). -/
  | port (p pick : Nat)
  /-- The host takes a step (43_host.md). -/
  | host (h : HostStep)
  /-- The requester of port `p` stores the byte `b` at `a`: its own memory traffic (20_memory.md R51; log entry 22). -/
  | requester (p : Nat) (a : Addr) (b : Byte)
  /-- The boot agent takes a step (70_reset_and_hazards.md R233). -/
  | boot
  /-- The target is reset (70_reset_and_hazards.md R230, R231). -/
  | reset (v : ResetValues)
deriving DecidableEq, Repr

/-! ## Memory -/

/-- The target memory (20_memory.md R50): the bytes that differ from what an unlisted address reads as, by rising address
(`Memory.wf` in `Ops.lean`). -/
abbrev Memory := List Host.Cell

/-! ## State -/

structure State where
  /-- The configuration (00_scope.md R7). No step changes it. -/
  cfg : Config
  /-- The shared target memory (10_state.md R20). -/
  mem : Memory
  /-- The request ports, port 0 first (10_state.md R30). -/
  ports : List Port
  /-- The fault log, oldest record first (10_state.md R34). -/
  faults : List FaultRecord
  /-- The boot sequence has finished (10_state.md R20). -/
  booted : Bool
  /-- How many memory writes of the boot sequence are done (70_reset_and_hazards.md R233). -/
  bootPos : Nat
  /-- The current port, `p` in the spec's pseudocode (00_scope.md R12). -/
  active : Nat
  /-- Which pending byte the current copy step takes. -/
  pick : Nat
  /-- The moves to come, the next one first (20_memory.md R59; log entry 2). -/
  schedule : List Move
deriving DecidableEq, Repr

/-- The outcome of a step of this machine. -/
abbrev Out := Host.Outcome State Fault Refusal

/-- A port at reset: IDLE (10_state.md R36). The spec leaves CMD, ADDR, LEN and RESULT unspecified; here they are 0.
DESIGN CHOICE (log entry 7). -/
def Port.reset : Port where
  state := .idle
  cmd := 0
  addr := 0
  len := 0
  result := 0
  queue := []

/-- What stands in for a port that does not exist: it takes no step. -/
def Port.absent : Port := { Port.reset with state := .faulted }

/-- The machine right after reset (10_state.md R36): every port IDLE, no fault recorded, boot not begun, memory with nothing
listed. The configuration is `Config.reference` (log entry 1). -/
def State.reset : State where
  cfg := Config.reference
  mem := []
  ports := List.replicate Config.reference.nport Port.reset
  faults := []
  booted := false
  bootPos := 0
  active := 0
  pick := 0
  schedule := []

end Sys2Proof.Machine
end

