-- ==== Sys2Proof/Machine/Ring.lean ====
section
/-! DEFINITION. The ring-buffer engine's arithmetic (40_ring_engine.md): pure functions of cursors and sizes, computed over
the integers as 00_scope.md R10 asks, so that no width can overflow. -/

namespace Sys2Proof.Machine

/-- `free(r, w, size) = (r - w - 1) mod size` (R100). -/
def ringFree (r w size : Nat) : Nat := (((r : Int) - (w : Int) - 1) % (size : Int)).toNat

/-- `available(w, r, size) = (w - r) mod size` (R101). -/
def ringAvailable (w r size : Nat) : Nat := (((w : Int) - (r : Int)) % (size : Int)).toNat

/-- `advance(x, n, size) = (x + n) mod size` (R102). -/
def ringAdvance (x n size : Nat) : Nat := (x + n) % size

/-- `empty(w, r)` (R104). -/
def ringEmpty (w r : Nat) : Bool := w == r

/-- `full(w, r, size)` (R104). -/
def ringFull (w r size : Nat) : Bool := ringAdvance w 1 size == r

/-- The buffer offset of byte `k` of a chunk that starts at cursor `x` (R105). -/
def chunkOffset (x k size : Nat) : Nat := (x + k) % size

/-- The length of the first of a chunk's two contiguous runs (R105). -/
def chunkRun1 (x n size : Nat) : Nat := min n (size - x)

/-- Chunk sizing by mode, the three overflow policies (41_write.md R123). -/
def chunk (m : Mode) (f rem : Nat) : Nat :=
  match m with
  | .skip => if rem ≤ f then rem else 0
  | .trim => min f rem
  | .block => min f rem

end Sys2Proof.Machine
end

