-- ==== Sys2Proof/Machine/Ops.lean ====
section
/-! DEFINITION. The named operations over memory, words, ports and the fault log that every meaning is written with
(00_scope.md R11, R12). -/

namespace Sys2Proof.Machine

/-! ## Bytes -/

/-- What an address that memory does not list reads as.
The spec leaves memory at reset unspecified (10_state.md R36). DESIGN CHOICE, unsafe (log entry 6). -/
def unwritten : Byte := 0

/-- `mem[a]` (R11). -/
def Memory.read : Memory → Addr → Byte
  | [], _ => unwritten
  | (x, b) :: rest, a => if x = a then b else Memory.read rest a

/-- Memory without an entry for `a`. -/
def Memory.erase : Memory → Addr → Memory
  | [], _ => []
  | (x, b) :: rest, a => if x = a then Memory.erase rest a else (x, b) :: Memory.erase rest a

/-- Memory with an entry for `a` put before the first greater address. -/
def Memory.insert : Memory → Addr → Byte → Memory
  | [], a, b => [(a, b)]
  | (x, c) :: rest, a, b => if a < x then (a, b) :: (x, c) :: rest else (x, c) :: Memory.insert rest a b

/-- The 1-byte `MemWrite(a, 1, b)` (R11), in canonical form. -/
def Memory.write (m : Memory) (a : Addr) (b : Byte) : Memory :=
  if b = unwritten then m.erase a else (m.erase a).insert a b

/-- The canonical form: addresses strictly rising, no entry equal to what an unlisted address reads as. -/
abbrev Memory.wf (m : Memory) : Prop :=
  m.Pairwise (fun x y => x.1 < y.1) ∧ ∀ c ∈ m, c.2 ≠ unwritten

/-- The memory that holds the listed bytes, a later entry for an address winning over an earlier one. -/
def Memory.ofCells (cells : List Host.Cell) : Memory := cells.foldl (fun m c => m.write c.1 c.2) []

/-! ## Words: `MemRead(a, n)` and `MemWrite(a, n, v)` (R11, 20_memory.md R52) -/

/-- The value of `n` bytes at `a`, the byte at the lowest address least significant. -/
def Memory.readLittle (m : Memory) (a : Addr) : Nat → Word
  | 0 => 0
  | n + 1 => (m.read a).toNat + 256 * Memory.readLittle m (a + 1) n

/-- The value of `n` bytes at `a`, the byte at the lowest address most significant. -/
def Memory.readBig (m : Memory) (a : Addr) : Nat → Word
  | 0 => 0
  | n + 1 => 256 * Memory.readBig m a n + (m.read (a + n)).toNat

/-- Store `v` as `n` bytes at `a`, least significant byte at the lowest address. -/
def Memory.writeLittle (m : Memory) (a : Addr) : Nat → Word → Memory
  | 0, _ => m
  | n + 1, v => (Memory.writeLittle m (a + 1) n (v / 256)).write a (BitVec.ofNat 8 v)

/-- Store `v` as `n` bytes at `a`, most significant byte at the lowest address. -/
def Memory.writeBig (m : Memory) (a : Addr) : Nat → Word → Memory
  | 0, _ => m
  | n + 1, v => (Memory.writeBig m a n (v / 256)).write (a + n) (BitVec.ofNat 8 v)

/-- `MemRead(a, n)` (R11). -/
def Memory.readWord (m : Memory) (e : Endian) (n : Nat) (a : Addr) : Word :=
  match e with
  | .little => m.readLittle a n
  | .big => m.readBig a n

/-- `MemWrite(a, n, v)` (R11). -/
def Memory.writeWord (m : Memory) (e : Endian) (n : Nat) (a : Addr) (v : Word) : Memory :=
  match e with
  | .little => m.writeLittle a n v
  | .big => m.writeBig a n v

namespace State

/-- `mem[a]` (R11). -/
def byteAt (s : State) (a : Addr) : Byte := s.mem.read a

/-- `MemRead(a, W)` (R11). -/
def wordAt (s : State) (a : Addr) : Word := s.mem.readWord s.cfg.endian s.cfg.W a

/-- The state after `MemWrite(a, 1, b)`. -/
def putByte (s : State) (a : Addr) (b : Byte) : State := { s with mem := s.mem.write a b }

/-- The state after `MemWrite(a, W, v)`. -/
def putWord (s : State) (a : Addr) (v : Word) : State :=
  { s with mem := s.mem.writeWord s.cfg.endian s.cfg.W a v }

/-! ## Accesses of the controller

The address space is `[0, 2^AW)` (20_memory.md R50). An access that is not wholly inside it does not exist; it stops the
machine (log entry 9). -/

/-- Load the word at `a` and go on with it. -/
def load (s : State) (a : Addr) (go : Word → Out) : Out :=
  if a + s.cfg.W ≤ s.cfg.space then go (s.wordAt a) else .fault (.noSuchAddress a)

/-- Load the byte at `a` and go on with it. -/
def loadByte (s : State) (a : Addr) (go : Byte → Out) : Out :=
  if a < s.cfg.space then go (s.byteAt a) else .fault (.noSuchAddress a)

/-- Store the word `v` at `a` and go on. -/
def store (s : State) (a : Addr) (v : Word) (go : State → Out) : Out :=
  if a + s.cfg.W ≤ s.cfg.space then go (s.putWord a v) else .fault (.noSuchAddress a)

/-- Store the byte `b` at `a` and go on. -/
def storeByte (s : State) (a : Addr) (b : Byte) (go : State → Out) : Out :=
  if a < s.cfg.space then go (s.putByte a b) else .fault (.noSuchAddress a)

/-! ## Ports -/

/-- Port `p`; one that does not exist takes no step. -/
def port (s : State) (p : Nat) : Port := s.ports.getD p Port.absent

/-- The current port. -/
def cur (s : State) : Port := s.port s.active

/-- The state with the current port replaced. -/
def setCur (s : State) (q : Port) : State := { s with ports := s.ports.set s.active q }

/-- The current port goes on with the command in flight `c`: its latches, and `phase <- X` (R12). -/
def goOn (s : State) (c : InFlight) : State := s.setCur { s.cur with state := .busy c }

/-- `complete(n)` (R12): `RESULT <- n`, and the port is IDLE. -/
def complete (s : State) (n : Word) : State := s.setCur { s.cur with state := .idle, result := n }

/-- `raise Fault(code)` (R12, 60_exceptions.md R202): the record is appended to the log and the current port is FAULTED.
Nothing else changes: there is no vector, no saved state and no return but reset (R206, R207). -/
def raise (s : State) (code : FaultCode) (ch : Nat) : State :=
  { s.setCur { s.cur with state := .faulted } with
    faults := s.faults ++ [{ code := code, port := s.active, ch := ch }] }

end State

/-- The number of a fault code (60_exceptions.md R201). -/
def FaultCode.number : FaultCode → Nat
  | .illegalCmd => 1
  | .chRange => 2
  | .sizeZero => 3
  | .bufferRange => 4
  | .cursorRange => 5
  | .modeReserved => 6
  | .addrRange => 7
  | .payloadOverlap => 8
  | .channelRace => 9
  | .modeRace => 10

/-- The direction and channel a command in flight has latched (10_state.md R33). -/
def InFlight.channel : InFlight → Dir × Nat
  | .write _ l => (.up, l.ch)
  | .read _ l => (.down, l.ch)

/-- The command a port in flight is performing. -/
def InFlight.instr : InFlight → Instr
  | .write _ l => .upWrite l.ch
  | .read _ l => .downRead l.ch

/-- The port is BUSY with a command that latches `(dir, ch)`. -/
def Port.latches (q : Port) (dir : Dir) (ch : Nat) : Bool :=
  match q.state with
  | .busy c => c.channel == (dir, ch)
  | _ => false

/-- Some port other than the current one is BUSY and latches `(dir, ch)`: the race test of 41_write.md R121 and R142 and
42_read.md R151. -/
def State.otherLatches (s : State) (dir : Dir) (ch : Nat) : Bool :=
  (List.range s.ports.length).any (fun q => q != s.active && (s.port q).latches dir ch)

/-- The member of `pending` that a copy step takes: the `pick`-th, counted modulo their number, so that every member can
be picked and every `pick` picks one (41_write.md R124, 42_read.md R153; log entry 4). -/
def pickPending (pending : List Nat) (pick : Nat) : Nat := pending.getD (pick % pending.length) 0

end Sys2Proof.Machine
end

