-- ==== Sys2Proof/Machine/Operands.lean ====
section
/-! DEFINITION. The operands of the commands: the descriptor a channel index names (30_encoding.md R72, R73), the offsets of
its fields, and the payload region `[ADDR, ADDR + LEN)` (R84). -/

namespace Sys2Proof.Machine

namespace State

/-! ## Descriptor fields (30_encoding.md R73): the address of each field of the descriptor at `d` -/

def nameField (_ : State) (d : Addr) : Addr := d
def bufferField (s : State) (d : Addr) : Addr := d + s.cfg.W
def sizeField (s : State) (d : Addr) : Addr := d + 2 * s.cfg.W
def writeOffsetField (s : State) (d : Addr) : Addr := d + 3 * s.cfg.W
def readOffsetField (s : State) (d : Addr) : Addr := d + 4 * s.cfg.W
def flagsField (s : State) (d : Addr) : Addr := d + 5 * s.cfg.W

/-! ## Descriptor addresses (30_encoding.md R72) -/

/-- `Desc(UP, c)`. -/
def descUp (s : State) (c : Nat) : Addr := s.cfg.descAddr c

/-- `max_up_channels` as stored in memory, `M_UP`. -/
def upCount (s : State) : Word := s.wordAt s.cfg.upCountAddr

/-- `max_down_channels` as stored in memory. -/
def downCount (s : State) : Word := s.wordAt s.cfg.downCountAddr

/-- `Desc(DOWN, c)`, from the stored `max_up_channels`. -/
def descDown (s : State) (c : Nat) : Addr := s.cfg.descAddr (s.upCount + c)

/-! ## The payload region -/

/-- The payload region of the current port. -/
def payload (s : State) : Config.Region := (s.cur.addr, s.cur.len)

/-- `LEN > 0` and the payload region meets the control block or a configured buffer (41_write.md R121, 42_read.md R151). -/
def payloadOverlaps (s : State) : Bool := s.cfg.regions.any (fun r => Config.Region.meets s.payload r)

end State

end Sys2Proof.Machine
end

