-- ==== Sys2Proof/Machine/Flags.lean ====
section
/-! DEFINITION. The flags word of an up descriptor (30_encoding.md R75): MODE in bits 1:0, every other bit reserved. A down
descriptor's flags word is never read or written after boot (10_state.md R27). -/

namespace Sys2Proof.Machine

/-- `flags[1:0]`. -/
def modeBits (flags : Word) : Nat := flags % 4

/-- The mode a flags word holds; none for the reserved value 3 (30_encoding.md R76). The reserved bits do not matter
(R75). -/
def flagsMode (flags : Word) : Option Mode := Mode.ofEncoding (modeBits flags)

/-- `{old[AW-1:2], CMD[3:2]}` (41_write.md R142): the new mode, with the reserved bits kept. -/
def setFlagsMode (old : Word) (m : Mode) : Word := 4 * (old / 4) + m.encoding

end Sys2Proof.Machine
end

