-- ==== Sys2Proof/Machine/Boot.lean ====
section
/-! DEFINITION. Reset and boot (70_reset_and_hazards.md R230 to R235, 10_state.md R36, R37). -/

namespace Sys2Proof.Machine

/-- One memory write of the boot sequence. -/
inductive BootStore where
  | byte (a : Addr) (b : Byte)
  | word (a : Addr) (v : Word)
deriving DecidableEq, Repr

/-- Step 1 of R233: zero the control block, in rising address order. -/
def bootZeros (c : Config) : List BootStore :=
  (List.range c.cbSize).map (fun k => .byte (c.cbBase + k) 0)

/-- Step 2 of R233: the counts. -/
def bootCounts (c : Config) : List BootStore := [.word c.upCountAddr c.nup, .word c.downCountAddr c.ndown]

/-- Step 3 of R233 for one descriptor at `d`: name, buffer and size. -/
def bootChannel (c : Config) (d : Addr) (ch : Channel) : List BootStore :=
  [.word d ch.name, .word (d + c.W) ch.buf, .word (d + 2 * c.W) ch.size]

/-- Step 3 of R233 for the up channels from slot `i` on, flags included. -/
def bootUp (c : Config) (i : Nat) : List UpChannel → List BootStore
  | [] => []
  | ch :: rest =>
    bootChannel c (c.descAddr i) ch.toChannel ++ [.word (c.descAddr i + 5 * c.W) ch.initMode.encoding] ++
      bootUp c (i + 1) rest

/-- Step 3 of R233 for the down channels from slot `i` on. -/
def bootDown (c : Config) (i : Nat) : List Channel → List BootStore
  | [] => []
  | ch :: rest => bootChannel c (c.descAddr i) ch ++ bootDown c (i + 1) rest

/-- Step 4 of R233: the signature bytes from `a` on, in rising address order (R234). -/
def bootSignature (a : Addr) : List Byte → List BootStore
  | [] => []
  | b :: rest => .byte a b :: bootSignature (a + 1) rest

/-- The memory writes of the boot sequence, in order (R233). Up channels come before down channels in step 3, whose order
the spec leaves open.
DESIGN CHOICE (log entry 12). -/
def bootStores (c : Config) : List BootStore :=
  bootZeros c ++ bootCounts c ++ bootUp c 0 c.up ++ bootDown c c.nup c.down ++ bootSignature c.cbBase c.signature

/-- Memory after one write of the boot sequence. -/
def BootStore.apply (c : Config) (m : Memory) : BootStore → Memory
  | .byte a b => m.write a b
  | .word a v => m.writeWord c.endian c.W a v

/-- One step of the boot agent: the next memory write, or after the last one `booted <- true` (R233 step 5). Once booted
it takes no step (R236). -/
def bootMove (s : State) : State :=
  if s.booted then s
  else match (bootStores s.cfg)[s.bootPos]? with
    | some st => { s with mem := st.apply s.cfg s.mem, bootPos := s.bootPos + 1 }
    | none => { s with booted := true }

/-- The state in which the boot sequence has run to its end. -/
def State.finishBoot (s : State) : State :=
  if s.booted then s
  else
    { s with
      mem := ((bootStores s.cfg).drop s.bootPos).foldl (BootStore.apply s.cfg) s.mem
      bootPos := (bootStores s.cfg).length
      booted := true }

/-- A port after reset: IDLE, whatever it was doing discarded, its registers at the unspecified values `v` (R231, 10_state.md
R36). The requester's input `queue` is no state of the port and stays (log entry 5). -/
def Port.afterReset (space : Nat) (q : Port) (v : PortRegs) : Port :=
  { state := .idle, cmd := v.cmd, addr := v.addr % space, len := v.len % space, result := v.result % space,
    queue := q.queue }

/-- The ports after reset, the first with the first values of `vs`; a port for which `vs` has no values gets zeros. -/
def resetPorts (space : Nat) : List Port → List PortRegs → List Port
  | [], _ => []
  | q :: qs, [] => q.afterReset space { cmd := 0, addr := 0, len := 0, result := 0 } :: resetPorts space qs []
  | q :: qs, v :: vs => q.afterReset space v :: resetPorts space qs vs

/-- Reset (R231). What the spec leaves unspecified, memory and the ports' registers, takes the values of the move
(10_state.md R36; log entry 8). -/
def resetMove (v : ResetValues) (s : State) : State :=
  { s with
    mem := Memory.ofCells (v.mem.filter (fun c => decide (c.1 < s.cfg.space)))
    ports := resetPorts s.cfg.space s.ports v.regs
    faults := []
    booted := false
    bootPos := 0 }

end Sys2Proof.Machine
end

