-- ==== Sys2Proof/Machine/Mode.lean ====
section
/-! DEFINITION. UP_GET_MODE and UP_SET_MODE (41_write.md R140 to R143). Each issues and completes in one atomic step of an
IDLE port. -/

namespace Sys2Proof.Machine

/-- UP_GET_MODE (R140). -/
def execUpGetMode (ch : Nat) (s : State) : Out :=
  match s.cur.state with
  | .idle =>
    s.load s.cfg.upCountAddr fun count =>
    if count ≤ ch then .next (s.raise .chRange ch)
    else s.load (s.flagsField (s.descUp ch)) fun flags =>
    match flagsMode flags with
    | none => .next (s.raise .modeReserved ch)
    | some m => .next (s.complete m.encoding)
  | .busy _ => .next s
  | .faulted => .next s

/-- UP_SET_MODE (R142). -/
def execUpSetMode (ch : Nat) (mode : Mode) (s : State) : Out :=
  match s.cur.state with
  | .idle =>
    s.load s.cfg.upCountAddr fun count =>
    if count ≤ ch then .next (s.raise .chRange ch)
    else if s.otherLatches .up ch then .next (s.raise .modeRace ch)
    else
      let a := s.flagsField (s.descUp ch)
      s.load a fun old =>
      s.store a (setFlagsMode old mode) fun s =>
      .next (s.complete 0)
  | .busy _ => .next s
  | .faulted => .next s

end Sys2Proof.Machine
end

