-- ==== Sys2Proof/Machine/Read.lean ====
section
/-! DEFINITION. DOWN_READ (42_read.md R150 to R159). `execDownRead` is one atomic step of the command on the current port: the
issue step when the port is IDLE, the step of its phase when the command is in flight there. -/

namespace Sys2Proof.Machine

/-- The issue step (R151): the checks in the order of 60_exceptions.md R203, then the latches. The flags word is not
read (10_state.md R27). -/
def issueRead (ch : Nat) (s : State) : Out :=
  s.load s.cfg.downCountAddr fun count =>
  if count ≤ ch then .next (s.raise .chRange ch)
  else if s.otherLatches .down ch then .next (s.raise .channelRace ch)
  else s.load s.cfg.upCountAddr fun mUp =>
    let d := s.cfg.descAddr (mUp + ch)
    s.load (s.sizeField d) fun size =>
    if size = 0 then .next (s.raise .sizeZero ch)
    else s.load (s.bufferField d) fun buf =>
    if s.cfg.space < buf + size then .next (s.raise .bufferRange ch)
    else s.load (s.readOffsetField d) fun cur =>
    if size ≤ cur then .next (s.raise .cursorRange ch)
    else if s.cfg.space < s.cur.addr + s.cur.len then .next (s.raise .addrRange ch)
    else if s.payloadOverlaps then .next (s.raise .payloadOverlap ch)
    else
      .next (s.goOn (.read .sample
        { ch := ch, d := d, size := size, buf := buf, cur := cur, addr := s.cur.addr, len := s.cur.len, n := 0,
          pending := [] }))

/-- `R_SAMPLE` (R152): sample the peer cursor once and size the single chunk. -/
def readSample (l : ReadLatch) (s : State) : Out :=
  s.load (s.writeOffsetField l.d) fun w =>
  if l.size ≤ w then .next (s.raise .cursorRange l.ch)
  else
    let n := min (ringAvailable w l.cur l.size) l.len
    if n = 0 then .next (s.complete 0)
    else .next (s.goOn (.read .copy { l with n := n, pending := List.range n }))

/-- Where `R_COPY` reads byte `k` of the chunk (R153). -/
def readSource (l : ReadLatch) (k : Nat) : Addr := l.buf + chunkOffset l.cur k l.size

/-- `R_COPY` (R153): one pending byte of the buffer goes to the output region. -/
def readCopy (l : ReadLatch) (s : State) : Out :=
  if l.pending = [] then .next s
  else
    let k := pickPending l.pending s.pick
    let rest := l.pending.erase k
    s.loadByte (readSource l k) fun b =>
    s.storeByte (l.addr + k) b fun s =>
    .next (s.goOn (.read (if rest = [] then .publish else .copy) { l with pending := rest }))

/-- `R_PUBLISH` (R154): the one store that frees the bytes read; the command completes. -/
def readPublish (l : ReadLatch) (s : State) : Out :=
  s.store (s.readOffsetField l.d) (ringAdvance l.cur l.n l.size) fun s => .next (s.complete l.n)

/-- DOWN_READ: one atomic step of the command on the current port. -/
def execDownRead (ch : Nat) (s : State) : Out :=
  match s.cur.state with
  | .idle => issueRead ch s
  | .busy (.read .sample l) => readSample l s
  | .busy (.read .copy l) => readCopy l s
  | .busy (.read .publish l) => readPublish l s
  | .busy (.write _ _) => .next s
  | .faulted => .next s

end Sys2Proof.Machine
end

