-- ==== Sys2Proof/Machine/Write.lean ====
section
/-! DEFINITION. UP_WRITE (41_write.md R120 to R134). `execUpWrite` is one atomic step of the command on the current port: the
issue step when the port is IDLE, the step of its phase when the command is in flight there. -/

namespace Sys2Proof.Machine

/-- The issue step (R121): the checks in the order of 60_exceptions.md R203, then the latches. -/
def issueWrite (ch : Nat) (s : State) : Out :=
  s.load s.cfg.upCountAddr fun count =>
  if count ≤ ch then .next (s.raise .chRange ch)
  else if s.otherLatches .up ch then .next (s.raise .channelRace ch)
  else
    let d := s.descUp ch
    s.load (s.sizeField d) fun size =>
    if size = 0 then .next (s.raise .sizeZero ch)
    else s.load (s.bufferField d) fun buf =>
    if s.cfg.space < buf + size then .next (s.raise .bufferRange ch)
    else s.load (s.writeOffsetField d) fun cur =>
    if size ≤ cur then .next (s.raise .cursorRange ch)
    else s.load (s.flagsField d) fun flags =>
    match flagsMode flags with
    | none => .next (s.raise .modeReserved ch)
    | some mode =>
      if s.cfg.space < s.cur.addr + s.cur.len then .next (s.raise .addrRange ch)
      else if s.payloadOverlaps then .next (s.raise .payloadOverlap ch)
      else
        .next (s.goOn (.write .sample
          { ch := ch, d := d, size := size, buf := buf, cur := cur, mode := mode, addr := s.cur.addr, len := s.cur.len,
            done := 0, n := 0, pending := [] }))

/-- `W_SAMPLE` (R122): sample the peer cursor once and size the chunk. A BLOCK write that finds no room is held: the port
stays as it is, and a later step samples again (R133; log entry 14). -/
def writeSample (l : WriteLatch) (s : State) : Out :=
  s.load (s.readOffsetField l.d) fun r =>
  if l.size ≤ r then .next (s.raise .cursorRange l.ch)
  else
    let rem := l.len - l.done
    let n := chunk l.mode (ringFree r l.cur l.size) rem
    if 0 < n then .next (s.goOn (.write .copy { l with n := n, pending := List.range n }))
    else if l.mode = .block ∧ 0 < rem then .next s
    else .next (s.complete l.done)

/-- Where `W_COPY` stores byte `k` of the chunk (R124). -/
def writeTarget (l : WriteLatch) (k : Nat) : Addr := l.buf + chunkOffset l.cur k l.size

/-- `W_COPY` (R124): one pending byte of the payload goes to the buffer. -/
def writeCopy (l : WriteLatch) (s : State) : Out :=
  if l.pending = [] then .next s
  else
    let k := pickPending l.pending s.pick
    let rest := l.pending.erase k
    s.loadByte (l.addr + l.done + k) fun b =>
    s.storeByte (writeTarget l k) b fun s =>
    .next (s.goOn (.write (if rest = [] then .publish else .copy) { l with pending := rest }))

/-- `W_PUBLISH` (R125): the one store that makes the chunk visible. -/
def writePublish (l : WriteLatch) (s : State) : Out :=
  let cur := ringAdvance l.cur l.n l.size
  let done := l.done + l.n
  s.store (s.writeOffsetField l.d) cur fun s =>
  if l.mode = .block ∧ done < l.len then .next (s.goOn (.write .sample { l with cur := cur, done := done }))
  else .next (s.complete done)

/-- UP_WRITE: one atomic step of the command on the current port. -/
def execUpWrite (ch : Nat) (s : State) : Out :=
  match s.cur.state with
  | .idle => issueWrite ch s
  | .busy (.write .sample l) => writeSample l s
  | .busy (.write .copy l) => writeCopy l s
  | .busy (.write .publish l) => writePublish l s
  | .busy (.read _ _) => .next s
  | .faulted => .next s

end Sys2Proof.Machine
end

