-- ==== Sys2Proof/Machine/Dispatch.lean ====
section
/-! DEFINITION. The meaning of each command, one arm for each constructor of `Instr`. -/

namespace Sys2Proof.Machine

def exec (i : Instr) (s : State) : Host.Outcome State Fault Refusal :=
  match i with
  | .upWrite ch => Sys2Proof.Machine.execUpWrite ch s
  | .downRead ch => Sys2Proof.Machine.execDownRead ch s
  | .upGetMode ch => Sys2Proof.Machine.execUpGetMode ch s
  | .upSetMode ch mode => Sys2Proof.Machine.execUpSetMode ch mode s

end Sys2Proof.Machine
end

