-- ==== Sys2Proof/Machine/HostAgent.lean ====
section
/-! DEFINITION. The host agent (43_host.md R170 to R179): what it may read, and the three writes it has. A move that the
rules do not allow is no step: it changes nothing (R176; log entries 3 and 11). -/

namespace Sys2Proof.Machine

/-- The bytes at `a` on are `sig` (30_encoding.md R77). -/
def Memory.holdsBytes (m : Memory) (a : Addr) : List Byte → Bool
  | [] => true
  | b :: rest => m.read a == b && Memory.holdsBytes m (a + 1) rest

/-- The full signature is present at CB_BASE, so that the host may use the control block (R178, 30_encoding.md R77). -/
def State.signaturePresent (s : State) : Bool := s.mem.holdsBytes s.cfg.cbBase s.cfg.signature

/-- What `H_READ(a, n)` returns (R171): one byte anywhere, or an aligned word; none where no such read exists. The read
changes no state. -/
def State.hostRead (s : State) (a : Addr) (n : Nat) : Option Word :=
  if n = 1 ∧ a < s.cfg.space then some (s.byteAt a).toNat
  else if n = s.cfg.W ∧ a % s.cfg.W = 0 ∧ a + s.cfg.W ≤ s.cfg.space then some (s.wordAt a)
  else none

/-- The host can use the descriptor at `d`: the signature is present and the descriptor lies inside the address space. -/
def State.hostReaches (s : State) (d : Addr) : Bool :=
  s.signaturePresent && decide (d + 6 * s.cfg.W ≤ s.cfg.space)

/-- The stored `max_up_channels` is NUP, so that `Desc(DOWN, c)`, which 30_encoding.md R72 takes from the stored count, is the
configured place of R71. Before boot memory can hold any count; with another one the word at that place is not the
host's to write (R176), and the host has no step there (log entry 11). -/
def State.headerMatches (s : State) : Bool := decide (s.upCount = s.cfg.nup)

/-- `H_UP_CONSUME(c, k)` (R172). `Desc(UP, c)` does not depend on the stored counts (30_encoding.md R72). -/
def hostUpConsume (c k : Nat) (s : State) : State :=
  match s.cfg.up[c]? with
  | none => s
  | some ch =>
    let d := s.descUp c
    let r := s.wordAt (s.readOffsetField d)
    let w := s.wordAt (s.writeOffsetField d)
    if s.hostReaches d ∧ r < ch.size ∧ w < ch.size ∧ k ≤ ringAvailable w r ch.size then
      s.putWord (s.readOffsetField d) (ringAdvance r k ch.size)
    else s

/-- `H_DOWN_DATA(c, j, b)` (R173). -/
def hostDownData (c j : Nat) (b : Byte) (s : State) : State :=
  match s.cfg.down[c]? with
  | none => s
  | some ch =>
    let d := s.descDown c
    let w := s.wordAt (s.writeOffsetField d)
    let r := s.wordAt (s.readOffsetField d)
    if s.headerMatches ∧ s.hostReaches d ∧ r < ch.size ∧ w < ch.size ∧ j < ringFree r w ch.size then
      s.putByte (ch.buf + chunkOffset w j ch.size) b
    else s

/-- `H_DOWN_PUBLISH(c, k)` (R174). -/
def hostDownPublish (c k : Nat) (s : State) : State :=
  match s.cfg.down[c]? with
  | none => s
  | some ch =>
    let d := s.descDown c
    let w := s.wordAt (s.writeOffsetField d)
    let r := s.wordAt (s.readOffsetField d)
    if s.headerMatches ∧ s.hostReaches d ∧ r < ch.size ∧ w < ch.size ∧ k ≤ ringFree r w ch.size then
      s.putWord (s.writeOffsetField d) (ringAdvance w k ch.size)
    else s

/-- One step of the host. A read changes nothing (R171, 20_memory.md R56). -/
def hostMove (h : HostStep) (s : State) : State :=
  match h with
  | .read _ _ => s
  | .upConsume c k => hostUpConsume c k s
  | .downData c j b => hostDownData c j b s
  | .downPublish c k => hostDownPublish c k s

end Sys2Proof.Machine
end

