-- ==== Sys2Proof/Machine/Agents.lean ====
section
/-! DEFINITION. What one move of the schedule does (20_memory.md R59, R62; 10_state.md R31, R32). A move of an agent that has
no enabled step changes nothing but the model's own bookkeeping (log entry 3). -/

namespace Sys2Proof.Machine

/-- The requester presents `(CMD, ADDR, LEN)`: the registers of the current port take them, ADDR and LEN at their width of
`AW` bits (10_state.md R30, R31). -/
def State.present (s : State) (r : Request) (rest : List Request) : State :=
  s.setCur { s.cur with cmd := r.cmd, addr := r.addr % s.cfg.space, len := r.len % s.cfg.space, queue := rest }

/-- The issue step of the current port (10_state.md R31): present the request, decode the command word, and perform the
command; an illegal word faults ILLEGAL_CMD before any memory access (30_encoding.md R86). -/
def issueMove (r : Request) (rest : List Request) (s : State) : Out :=
  match decodeWord r.cmd with
  | .ok i => exec i (s.present r rest)
  | .error _ => .next ((s.present r rest).raise .illegalCmd (cmdCh r.cmd).toNat)

/-- The current port takes a step (10_state.md R31): an issue step when IDLE, once the controller has booted and if the
requester presents a command (70_reset_and_hazards.md R235); a phase step when BUSY; none when FAULTED. -/
def portStep (s : State) : Out :=
  match s.cur.state with
  | .idle =>
    if s.booted then
      match s.cur.queue with
      | [] => .next s
      | r :: rest => issueMove r rest s
    else .next s
  | .busy c => exec c.instr s
  | .faulted => .next s

/-- Port `p` takes a step: it is the current port, and `pick` chooses the byte that a copy step takes. -/
def portMove (p pick : Nat) (s : State) : Out := portStep { s with active := p, pick := pick }

/-- The requester of port `p` stores a byte (20_memory.md R51): at an address of its own, outside the control block and the
buffers, and not while it is held by a command in flight (10_state.md R31; log entry 22). -/
def requesterMove (p : Nat) (a : Addr) (b : Byte) (s : State) : State :=
  if a < s.cfg.space ∧ s.cfg.regions.any (fun r => Config.Region.meets (a, 1) r) = false ∧ p < s.ports.length then
    match (s.port p).state with
    | .busy _ => s
    | .idle => s.putByte a b
    | .faulted => s.putByte a b
  else s

/-- One move. -/
def runMove (mv : Move) (s : State) : Out :=
  match mv with
  | .port p pick => portMove p pick s
  | .host h => .next (hostMove h s)
  | .requester p a b => .next (requesterMove p a b s)
  | .boot => .next (bootMove s)
  | .reset v => .next (resetMove v s)

end Sys2Proof.Machine
end

