-- ==== Sys2Proof/Machine/Step.lean ====
section
/-! DEFINITION. One step of the machine: the next move of the schedule (20_memory.md R59). -/

namespace Sys2Proof.Machine

/-- One step. An ill-formed configuration is refused (00_scope.md R8). With no move scheduled nothing happens. -/
def step (s : State) : Host.Outcome State Fault Refusal :=
  if s.cfg.wf then
    match s.schedule with
    | [] => .next s
    | mv :: rest => runMove mv { s with schedule := rest }
  else .refused .illFormedConfig

/-- The state in which the next step issues the command word `w` on port 0, with ADDR = LEN = 0: the boot sequence has
finished (no port can issue before, 70_reset_and_hazards.md R235), port 0 is IDLE, the word is the next request of its
requester, and port 0 moves next (log entry 13). -/
def State.withFetchWord (s : State) (nbits w : Nat) : State :=
  let b := s.finishBoot
  let q := b.port 0
  { b with
    ports := b.ports.set 0
      { q with state := .idle, queue := { cmd := BitVec.ofNat 32 (w % 2 ^ nbits), addr := 0, len := 0 } :: q.queue }
    schedule := .port 0 0 :: b.schedule }

end Sys2Proof.Machine
end

