-- ==== Sys2Proof/Safety.lean ====
section
/-! DEFINITION. What counts as a sound state and a safe run, in the terms the claims use: the machine's own invariant, the
invariant of the channels in memory after boot, the issue checks of 60_exceptions.md R203 as a table, and the ends a
run can have (R217, 41_write.md R133). -/

namespace Sys2Proof.Machine

/-! ## The machine's invariant -/

/-- What holds of the latches of an UP_WRITE in flight (41_write.md R121 to R125). -/
structure WriteLatch.Ok (c : Config) (ph : WritePhase) (l : WriteLatch) : Prop where
  chFits : l.ch < 256
  curInRange : l.cur < l.size
  bufferInside : l.buf + l.size ≤ c.space
  payloadInside : l.addr + l.len ≤ c.space
  payloadApart : c.regions.any (fun r => Config.Region.meets (l.addr, l.len) r) = false
  doneWithin : l.done ≤ l.len
  /-- Only a BLOCK write makes a second pass. -/
  onePass : l.mode ≠ .block → l.done = 0
  pendingOnce : l.pending.Nodup
  pendingInChunk : ∀ k ∈ l.pending, k < l.n
  /-- Bytes are pending exactly in the copy phase. -/
  copying : ph = .copy ↔ l.pending ≠ []
  /-- Once sized, a chunk is not empty, leaves a slot of the buffer free, and is part of what remains of the payload. -/
  chunkSized : ph ≠ .sample → 0 < l.n ∧ l.n < l.size ∧ l.done + l.n ≤ l.len
  /-- A SKIP chunk is the whole payload. -/
  skipWhole : ph ≠ .sample → l.mode = .skip → l.n = l.len

/-- What holds of the latches of a DOWN_READ in flight (42_read.md R151 to R154). -/
structure ReadLatch.Ok (c : Config) (ph : ReadPhase) (l : ReadLatch) : Prop where
  chFits : l.ch < 256
  curInRange : l.cur < l.size
  bufferInside : l.buf + l.size ≤ c.space
  payloadInside : l.addr + l.len ≤ c.space
  payloadApart : c.regions.any (fun r => Config.Region.meets (l.addr, l.len) r) = false
  pendingOnce : l.pending.Nodup
  pendingInChunk : ∀ k ∈ l.pending, k < l.n
  /-- Bytes are pending exactly in the copy phase. -/
  copying : ph = .copy ↔ l.pending ≠ []
  /-- Once sized, a chunk is not empty, is less than the buffer, and fits the output. -/
  chunkSized : ph ≠ .sample → 0 < l.n ∧ l.n < l.size ∧ l.n ≤ l.len

/-- What holds of a command in flight. -/
def InFlight.Ok (c : Config) : InFlight → Prop
  | .write ph l => l.Ok c ph
  | .read ph l => l.Ok c ph

/-- The payload address a command in flight has latched. -/
def InFlight.addr : InFlight → Addr
  | .write _ l => l.addr
  | .read _ l => l.addr

/-- The payload length a command in flight has latched. -/
def InFlight.len : InFlight → Nat
  | .write _ l => l.len
  | .read _ l => l.len

/-- The invariant of the machine itself. It holds at reset, and every step keeps it. -/
structure State.Sound (s : State) : Prop where
  /-- Memory is in canonical form. -/
  memCanonical : s.mem.wf
  /-- Memory lists only addresses of the address space (20_memory.md R50). -/
  memInside : ∀ c ∈ s.mem, c.1 < s.cfg.space
  /-- There are NPORT ports (10_state.md R30). -/
  portCount : s.ports.length = s.cfg.nport
  /-- ADDR, LEN and RESULT fit `AW` bits (10_state.md R30). -/
  registersFit : ∀ p, (s.port p).addr < s.cfg.space ∧ (s.port p).len < s.cfg.space ∧ (s.port p).result < s.cfg.space
  /-- The latches of every command in flight are in order. -/
  latchesOk : ∀ p c, (s.port p).state = .busy c → c.Ok s.cfg
  /-- CMD, ADDR and LEN are those of the command in flight (10_state.md R30: not changed while BUSY). -/
  registersKept : ∀ p c, (s.port p).state = .busy c →
    decodeWord (s.port p).cmd = .ok c.instr ∧ c.addr = (s.port p).addr ∧ c.len = (s.port p).len
  /-- No two ports have a command in flight on one channel (60_exceptions.md R201, R205). -/
  exclusive : ∀ p q c d, (s.port p).state = .busy c → (s.port q).state = .busy d → c.channel = d.channel → p = q
  /-- Before boot has finished no port has done anything (70_reset_and_hazards.md R235). -/
  quietBeforeBoot : s.booted = false → ∀ p, p < s.ports.length → (s.port p).state = .idle
  /-- Every record of the fault log names a FAULTED port (60_exceptions.md R202). -/
  faultHalts : ∀ r ∈ s.faults, r.port < s.ports.length ∧ (s.port r.port).state = .faulted
  /-- Every FAULTED port has a record. -/
  haltsByFault : ∀ p, p < s.ports.length → (s.port p).state = .faulted → ∃ r ∈ s.faults, r.port = p
  /-- The boot sequence has as many writes done as it has at most, and all of them once booted. -/
  bootWithin : s.bootPos ≤ (bootStores s.cfg).length
  bootDone : s.booted = true → s.bootPos = (bootStores s.cfg).length

/-! ## The channels in memory after boot -/

/-- The write offset and read offset words of the descriptor at `d`. -/
def State.writeOffset (s : State) (d : Addr) : Word := s.wordAt (s.writeOffsetField d)
def State.readOffset (s : State) (d : Addr) : Word := s.wordAt (s.readOffsetField d)

/-- The descriptor at `d` holds the configured channel, with both cursors valid indices into the buffer (10_state.md R23,
R25). -/
structure State.DescOk (s : State) (d : Addr) (ch : Channel) : Prop where
  name : s.wordAt (s.nameField d) = ch.name
  buffer : s.wordAt (s.bufferField d) = ch.buf
  size : s.wordAt (s.sizeField d) = ch.size
  writeInRange : s.writeOffset d < ch.size
  readInRange : s.readOffset d < ch.size

/-- The invariant of the channels: what boot leaves (10_state.md R37) and every later step keeps. -/
structure State.Channels (s : State) : Prop where
  /-- The header is as boot left it (10_state.md R21, R22). -/
  upCount : s.upCount = s.cfg.nup
  downCount : s.downCount = s.cfg.ndown
  signature : s.signaturePresent = true
  /-- The up descriptors (10_state.md R23, R25, R26). -/
  up : ∀ c ch, s.cfg.up[c]? = some ch →
    s.DescOk (s.descUp c) ch.toChannel ∧ (flagsMode (s.wordAt (s.flagsField (s.descUp c)))).isSome
  /-- The down descriptors; their flags word stays 0 (10_state.md R27). -/
  down : ∀ c ch, s.cfg.down[c]? = some ch →
    s.DescOk (s.descDown c) ch ∧ s.wordAt (s.flagsField (s.descDown c)) = 0
  /-- A write in flight has latched its channel's configured buffer and the own cursor memory holds, and its chunk fits
  the room there is now (40_ring_engine.md R109). -/
  writes : ∀ p ph l, (s.port p).state = .busy (.write ph l) →
    ∃ ch, s.cfg.up[l.ch]? = some ch ∧ l.d = s.descUp l.ch ∧ l.size = ch.size ∧ l.buf = ch.buf ∧
      l.cur = s.writeOffset l.d ∧ (ph ≠ .sample → l.n ≤ ringFree (s.readOffset l.d) l.cur l.size)
  /-- A read in flight likewise, with the bytes available now. -/
  reads : ∀ p ph l, (s.port p).state = .busy (.read ph l) →
    ∃ ch, s.cfg.down[l.ch]? = some ch ∧ l.d = s.descDown l.ch ∧ l.size = ch.size ∧ l.buf = ch.buf ∧
      l.cur = s.readOffset l.d ∧ (ph ≠ .sample → l.n ≤ ringAvailable (s.writeOffset l.d) l.cur l.size)

/-- The invariant of a run: the machine is sound, and once booted the channels are in order. -/
def State.Safe (s : State) : Prop := s.Sound ∧ (s.booted = true → s.Channels)

/-! ## The issue checks (60_exceptions.md R203) -/

/-- A command word that 30_encoding.md R86 calls illegal, read off the word's number. -/
def illegalWord (w : CmdWord) : Bool :=
  decide (w.toNat / 2 ^ 24 ≠ 0) || decide (w.toNat / 2 ^ 4 % 2 ^ 12 ≠ 0) ||
    (decide (w.toNat % 4 ≠ 3) && decide (w.toNat / 4 % 4 ≠ 0)) ||
    (decide (w.toNat % 4 = 3) && decide (w.toNat / 4 % 4 = 3))

/-- `CMD[23:16]` read off the word's number (30_encoding.md R82). -/
def wordChannel (w : CmdWord) : Nat := w.toNat / 2 ^ 16 % 2 ^ 8

/-- The descriptor words a command checks at issue. -/
structure IssueReads where
  size : Word
  buffer : Word
  own : Word

def State.issueReadsUp (s : State) (ch : Nat) : IssueReads :=
  { size := s.wordAt (s.sizeField (s.descUp ch)), buffer := s.wordAt (s.bufferField (s.descUp ch)),
    own := s.writeOffset (s.descUp ch) }

def State.issueReadsDown (s : State) (ch : Nat) : IssueReads :=
  { size := s.wordAt (s.sizeField (s.descDown ch)), buffer := s.wordAt (s.bufferField (s.descDown ch)),
    own := s.readOffset (s.descDown ch) }

/-- Checks 4 to 6 of R203. -/
def IssueReads.checks (r : IssueReads) (space : Nat) : List (FaultCode × Bool) :=
  [(.sizeZero, decide (r.size = 0)), (.bufferRange, decide (r.buffer + r.size > space)),
   (.cursorRange, decide (r.own ≥ r.size))]

/-- Checks 8 and 9 of R203. -/
def State.payloadChecks (s : State) : List (FaultCode × Bool) :=
  [(.addrRange, decide (s.cur.addr + s.cur.len > s.cfg.space)), (.payloadOverlap, s.payloadOverlaps)]

/-- `flags[1:0] = 3` on up channel `ch`: check 7 of R203. -/
def State.modeCheck (s : State) (ch : Nat) : FaultCode × Bool :=
  (.modeReserved, decide (s.wordAt (s.flagsField (s.descUp ch)) % 4 = 3))

/-- The checks of UP_WRITE after ILLEGAL_CMD: 2, 3 (CHANNEL_RACE), 4, 5, 6, 7, 8, 9. -/
def State.writeChecks (s : State) (ch : Nat) : List (FaultCode × Bool) :=
  [(.chRange, decide (ch ≥ s.upCount)), (.channelRace, s.otherLatches .up ch)] ++
    (s.issueReadsUp ch).checks s.cfg.space ++ [s.modeCheck ch] ++ s.payloadChecks

/-- The checks of DOWN_READ after ILLEGAL_CMD: the same without 7. -/
def State.readChecks (s : State) (ch : Nat) : List (FaultCode × Bool) :=
  [(.chRange, decide (ch ≥ s.downCount)), (.channelRace, s.otherLatches .down ch)] ++
    (s.issueReadsDown ch).checks s.cfg.space ++ s.payloadChecks

/-- The checks of UP_GET_MODE after ILLEGAL_CMD: 2, 7. -/
def State.getModeChecks (s : State) (ch : Nat) : List (FaultCode × Bool) :=
  [(.chRange, decide (ch ≥ s.upCount)), s.modeCheck ch]

/-- The checks of UP_SET_MODE after ILLEGAL_CMD: 2, 3 (MODE_RACE). -/
def State.setModeChecks (s : State) (ch : Nat) : List (FaultCode × Bool) :=
  [(.chRange, decide (ch ≥ s.upCount)), (.modeRace, s.otherLatches .up ch)]

/-- The table of R203: for the command word `w` presented on the current port, the checks that apply to it, in order of
priority, each with whether it fails. The command is the one OP selects (30_encoding.md R81). -/
def State.issueChecks (s : State) (w : CmdWord) : List (FaultCode × Bool) :=
  (FaultCode.illegalCmd, illegalWord w) ::
    (if w.toNat % 4 = 0 then s.writeChecks (wordChannel w)
    else if w.toNat % 4 = 1 then s.readChecks (wordChannel w)
    else if w.toNat % 4 = 2 then s.getModeChecks (wordChannel w)
    else s.setModeChecks (wordChannel w))

/-- The first check of the list that fails. -/
def firstFailing (checks : List (FaultCode × Bool)) : Option FaultCode := (checks.find? (fun x => x.2)).map (fun x => x.1)

/-! ## Ends of a run -/

/-- The requesters issue no more commands (60_exceptions.md R217): no request waits, one held before boot included. -/
def State.noMoreIssues (s : State) : Prop := ∀ p, (s.port p).queue = []

/-- A state at which a run is judged: every port is IDLE or FAULTED, and the requesters issue no more commands (R217). -/
def State.judged (s : State) : Prop :=
  s.noMoreIssues ∧ ∀ p, p < s.ports.length → (s.port p).state = .idle ∨ (s.port p).state = .faulted

/-- A final state: one at which a run is judged, with every port IDLE and no fault recorded (R217). -/
def State.final (s : State) : Prop :=
  s.judged ∧ (∀ p, p < s.ports.length → (s.port p).state = .idle) ∧ s.faults = []

/-- A fault state: some port is FAULTED (R217). -/
def State.faultState (s : State) : Prop := ∃ p, p < s.ports.length ∧ (s.port p).state = .faulted

/-- Port `p` holds: a BLOCK write with bytes left to place, in its sample phase, that finds the buffer full
(41_write.md R122, R133). -/
def State.holds (s : State) (p : Nat) : Prop :=
  ∃ l, (s.port p).state = .busy (.write .sample l) ∧ l.mode = .block ∧ l.done < l.len ∧
    s.readOffset l.d < l.size ∧ ringFree (s.readOffset l.d) l.cur l.size = 0

/-- A stuck state: some port is BUSY and held (R217). -/
def State.stuck (s : State) : Prop := ∃ p, s.holds p

/-! ## Places and turns -/

/-- Every byte of the descriptor at `d` lies inside the address space. -/
def State.descInside (s : State) (d : Addr) : Prop := d + 6 * s.cfg.W ≤ s.cfg.space

/-- Address `a` is a byte of the word at `f`. -/
def State.inWord (s : State) (f a : Addr) : Prop := f ≤ a ∧ a < f + s.cfg.W

/-- The state in which port `p` takes its step, the rest of the schedule being `moves`. -/
def State.turn (s : State) (p pick : Nat) (moves : List Move) : State :=
  { s with active := p, pick := pick, schedule := moves }

end Sys2Proof.Machine
end

