-- ==== Sys2Proof/Certificates/Slice0/Obligations.lean ====
section
/-! DEFINITION. The statements about the machine, for the provers. Each docstring names the rule it formalises. -/

open Sys2Proof Sys2Proof.Machine

/-! ## Encoding -/

/-- Every command with a channel index of 8 bits is read back from the word it is encoded as (30_encoding.md R80, R81). -/
def Obligations.DecodeUndoesEncode : Prop :=
  ∀ i : Instr, i.wf = true → decodeWord (encode i) = .ok i

/-- Every legal word is the encoding of the one command it decodes to: no bit of it is ignored (R80, R87). -/
def Obligations.EncodeUndoesDecode : Prop :=
  ∀ (w : CmdWord) (i : Instr), decodeWord w = .ok i → i.wf = true ∧ encode i = w

/-- The legal words are those that match a row of the opcode map under its mask, the row names the command, and the free
fields are CH and MD (R85). -/
def Obligations.LegalWordsMatchOneTableRow : Prop :=
  ∀ w : CmdWord,
    ((∃ ch, decodeWord w = .ok (.upWrite ch)) ↔ w &&& 0xFF00FFFF#32 = 0x00000000#32) ∧
    ((∃ ch, decodeWord w = .ok (.downRead ch)) ↔ w &&& 0xFF00FFFF#32 = 0x00000001#32) ∧
    ((∃ ch, decodeWord w = .ok (.upGetMode ch)) ↔ w &&& 0xFF00FFFF#32 = 0x00000002#32) ∧
    ((∃ ch m, decodeWord w = .ok (.upSetMode ch m)) ↔
      (w &&& 0xFF00FFF3#32 = 0x00000003#32 ∧ w.toNat / 4 % 4 ≠ 3)) ∧
    (∀ i, decodeWord w = .ok i → i.ch = wordChannel w) ∧
    (∀ ch m, decodeWord w = .ok (.upSetMode ch m) → m.encoding = w.toNat / 4 % 4)

/-- Issuing a word that R86 calls illegal, in any of its four cases, faults ILLEGAL_CMD and touches no memory; a legal word
whose CH is at or above its channel count faults CH_RANGE (R86). -/
def Obligations.IllegalWordFaultsBeforeMemory : Prop :=
  ∀ (s : State) (p pick : Nat) (moves : List Move) (r : Request) (rest : List Request),
    s.cfg.wf = true → s.booted = true → s.schedule = .port p pick :: moves → (s.port p).state = .idle →
    (s.port p).queue = r :: rest →
    ((r.cmd.toNat / 2 ^ 24 ≠ 0 ∨ r.cmd.toNat / 2 ^ 4 % 2 ^ 12 ≠ 0 ∨
        (r.cmd.toNat % 4 ≠ 3 ∧ r.cmd.toNat / 4 % 4 ≠ 0) ∨ (r.cmd.toNat % 4 = 3 ∧ r.cmd.toNat / 4 % 4 = 3)) →
      step s = .next (((s.turn p pick moves).present r rest).raise .illegalCmd (wordChannel r.cmd)) ∧
      (((s.turn p pick moves).present r rest).raise .illegalCmd (wordChannel r.cmd)).mem = s.mem) ∧
    (¬ (r.cmd.toNat / 2 ^ 24 ≠ 0 ∨ r.cmd.toNat / 2 ^ 4 % 2 ^ 12 ≠ 0 ∨
        (r.cmd.toNat % 4 ≠ 3 ∧ r.cmd.toNat / 4 % 4 ≠ 0) ∨ (r.cmd.toNat % 4 = 3 ∧ r.cmd.toNat / 4 % 4 = 3)) →
      (if r.cmd.toNat % 4 = 1 then s.downCount else s.upCount) ≤ wordChannel r.cmd →
      step s = .next (((s.turn p pick moves).present r rest).raise .chRange (wordChannel r.cmd)))

/-- The encoding examples of R91: seven legal words and four illegal ones. -/
def Obligations.SampleWordsDecodeAsListed : Prop :=
  decodeWord 0x00000000#32 = .ok (.upWrite 0) ∧ decodeWord 0x00020000#32 = .ok (.upWrite 2) ∧
  decodeWord 0x00010001#32 = .ok (.downRead 1) ∧ decodeWord 0x00000002#32 = .ok (.upGetMode 0) ∧
  decodeWord 0x00000007#32 = .ok (.upSetMode 0 .trim) ∧ decodeWord 0x0001000B#32 = .ok (.upSetMode 1 .block) ∧
  decodeWord 0x00030003#32 = .ok (.upSetMode 3 .skip) ∧ decodeWord 0x0000000F#32 = .error .modeReserved ∧
  decodeWord 0x00000004#32 = .error .modeOperand ∧ decodeWord 0x00000010#32 = .error .rsv0 ∧
  decodeWord 0x01000000#32 = .error .rsv1

/-! ## The step -/

/-- When an IDLE port of a booted controller moves and its requester presents a legal word, the step is `exec` of the decoded
command, on the state in which the port's CMD, ADDR and LEN are those presented (10_state.md R30, R31). -/
def Obligations.StepRunsPresentedCommand : Prop :=
  ∀ (s : State) (p pick : Nat) (moves : List Move) (r : Request) (rest : List Request) (i : Instr),
    s.cfg.wf = true → s.booted = true → s.schedule = .port p pick :: moves → (s.port p).state = .idle →
    (s.port p).queue = r :: rest → decodeWord r.cmd = .ok i →
    ∃ u, u = (s.turn p pick moves).present r rest ∧ step s = exec i u ∧
      u.active = p ∧ u.pick = pick ∧ u.schedule = moves ∧ u.mem = s.mem ∧ u.faults = s.faults ∧ u.booted = true ∧
      u.cur = { s.port p with cmd := r.cmd, addr := r.addr % s.cfg.space, len := r.len % s.cfg.space, queue := rest } ∧
      ∀ q, q ≠ p → u.port q = s.port q

/-- When a BUSY port moves, the step is `exec` of the command it has in flight (10_state.md R31, R32). -/
def Obligations.StepContinuesCommandInFlight : Prop :=
  ∀ (s : State) (p pick : Nat) (moves : List Move) (c : InFlight),
    s.cfg.wf = true → s.schedule = .port p pick :: moves → (s.port p).state = .busy c →
    step s = exec c.instr (s.turn p pick moves)

/-- Before boot has finished no port issues: its move changes nothing, and the request stays with its requester
(70_reset_and_hazards.md R235). That a held request waits in `Port.queue` is the model's rendering (log entries 3 and 5). -/
def Obligations.IssueIsHeldUntilBooted : Prop :=
  ∀ (s : State) (p pick : Nat) (moves : List Move),
    s.cfg.wf = true → s.booted = false → s.schedule = .port p pick :: moves → (s.port p).state = .idle →
    step s = .next (s.turn p pick moves)

/-- A step is refused exactly when the configuration breaks R8: a parameter outside its range of R7, two regions with a byte
in common, or a region outside the address space (00_scope.md R7, R8). -/
def Obligations.OnlyIllFormedConfigurationIsRefused : Prop :=
  ∀ s : State,
    (step s = .refused .illFormedConfig ↔
      ¬ ((s.cfg.W = 4 ∨ s.cfg.W = 8) ∧
         (0 < s.cfg.sigLen ∧ s.cfg.sigLen % s.cfg.W = 0 ∧ ∀ b ∈ s.cfg.signature, b.toNat < 128) ∧
         s.cfg.cbBase % s.cfg.W = 0 ∧ s.cfg.nup ≤ 256 ∧ s.cfg.ndown ≤ 256 ∧ 1 ≤ s.cfg.nport ∧
         (∀ ch ∈ s.cfg.up.map (fun x => x.toChannel) ++ s.cfg.down,
           1 ≤ ch.size ∧ ch.size ≤ s.cfg.space - 1 ∧ ch.name < s.cfg.space) ∧
         (∀ r ∈ s.cfg.regions, r.1 + r.2 ≤ s.cfg.space) ∧
         s.cfg.regions.Pairwise (fun x y => ∀ a, ¬ ((x.1 ≤ a ∧ a < x.1 + x.2) ∧ (y.1 ≤ a ∧ a < y.1 + y.2))))) ∧
    (∀ x, step s = .refused x → x = .illFormedConfig)

/-! ## Ring arithmetic -/

/-- Free space in closed form, with its bound and the worked example (40_ring_engine.md R100). -/
def Obligations.FreeSpaceFormula : Prop :=
  (∀ r w size : Nat, r < size → w < size →
    ringFree r w size = (if r > w then r - w - 1 else size - 1 - (w - r)) ∧
    (ringFree r w size : Int) = ((r : Int) - w - 1) % size ∧ ringFree r w size ≤ size - 1) ∧
  ringFree 0 9 16 = 6

/-- Available bytes in closed form, with its bound and the worked example (R101). -/
def Obligations.AvailableBytesFormula : Prop :=
  (∀ w r size : Nat, w < size → r < size →
    ringAvailable w r size = (if w ≥ r then w - r else size - (r - w)) ∧
    (ringAvailable w r size : Int) = ((w : Int) - r) % size ∧ ringAvailable w r size ≤ size - 1) ∧
  ringAvailable 2 14 16 = 4

/-- The advance of a cursor stays in the buffer and wraps to 0 at its end (R102). -/
def Obligations.CursorAdvanceWraps : Prop :=
  (∀ x n size : Nat, x < size → n ≤ size - 1 →
    ringAdvance x n size = (if x + n < size then x + n else x + n - size) ∧
    ringAdvance x n size < size ∧ ringAdvance x n size ≠ size) ∧
  ringAdvance 10 6 16 = 0

/-- Free and available bytes add up to the usable capacity; a full and an empty buffer (R103, R104). -/
def Obligations.FreeAndAvailableAddUp : Prop :=
  ∀ r w size : Nat, r < size → w < size →
    ringFree r w size + ringAvailable w r size = size - 1 ∧
    (ringEmpty w r = true ↔ w = r) ∧ (ringEmpty w r = true ↔ ringAvailable w r size = 0) ∧
    (ringFull w r size = true ↔ ringAdvance w 1 size = r) ∧ (ringFull w r size = true ↔ ringFree r w size = 0) ∧
    (ringFree r w size = 0 ↔ ringAvailable w r size = size - 1) ∧
    (ringAvailable w r size = 0 ↔ ringFree r w size = size - 1) ∧
    (size = 1 → ringEmpty w r = true ∧ ringFull w r size = true)

/-- A chunk covers at most two contiguous runs, and its bytes lie at distinct offsets of the buffer (R105). -/
def Obligations.ChunkIsTwoRuns : Prop :=
  ∀ x n size : Nat, x < size → n ≤ size - 1 →
    (∀ k, k < chunkRun1 x n size → chunkOffset x k size = x + k) ∧
    (∀ k, chunkRun1 x n size ≤ k → k < n → chunkOffset x k size = k - chunkRun1 x n size) ∧
    (n ≤ size - x → chunkRun1 x n size = n) ∧
    (∀ i j, i < n → j < n → chunkOffset x i size = chunkOffset x j size → i = j)

/-- A publish moves the occupancy by its count, and gives the other side that much more room (R107, R108, R109). -/
def Obligations.PublishMovesOccupancy : Prop :=
  ∀ r w size n : Nat, r < size → w < size →
    (n ≤ ringFree r w size →
      ringAvailable (ringAdvance w n size) r size = ringAvailable w r size + n ∧
      ringFree r (ringAdvance w n size) size = ringFree r w size - n) ∧
    (n ≤ ringAvailable w r size →
      ringAvailable w (ringAdvance r n size) size = ringAvailable w r size - n ∧
      ringFree (ringAdvance r n size) w size = ringFree r w size + n) ∧
    (n = 0 → ringAdvance w n size = w ∧ ringAdvance r n size = r)

/-! ## UP_WRITE -/

/-- The issue step of UP_WRITE: the checks in order, the first that fails faults; if none fails the command is in flight with
its latches set and samples next (41_write.md R121). The values `n = 0` and `pending = []` that the latches hold until the
first sample are the model's own, not R121's (log entry 16). -/
def Obligations.UpWriteIssueChecksThenLatches : Prop :=
  ∀ (s : State) (ch : Nat), s.cur.state = .idle →
    (s.cfg.upCountAddr + s.cfg.W ≤ s.cfg.space → s.upCount ≤ ch →
      exec (.upWrite ch) s = .next (s.raise .chRange ch)) ∧
    (s.descInside (s.descUp ch) →
      (∀ code, firstFailing (s.writeChecks ch) = some code → exec (.upWrite ch) s = .next (s.raise code ch)) ∧
      (firstFailing (s.writeChecks ch) = none →
        ∃ mode, mode.encoding = s.wordAt (s.flagsField (s.descUp ch)) % 4 ∧
          exec (.upWrite ch) s = .next (s.goOn (.write .sample
            { ch := ch, d := s.descUp ch, size := s.wordAt (s.sizeField (s.descUp ch)),
              buf := s.wordAt (s.bufferField (s.descUp ch)), cur := s.writeOffset (s.descUp ch), mode := mode,
              addr := s.cur.addr, len := s.cur.len, done := 0, n := 0, pending := [] }))))

/-- The sample step of UP_WRITE in every mode: the fault on a bad peer cursor, the size of the chunk, the hold of a BLOCK
write, and the completion (R122, R123). That a held port stays as it is, is the model's rendering (log entry 14). -/
def Obligations.UpWriteSampleSizesChunkByMode : Prop :=
  ∀ (s : State) (l : WriteLatch) (ch : Nat), s.cur.state = .busy (.write .sample l) →
    s.readOffsetField l.d + s.cfg.W ≤ s.cfg.space →
    (s.readOffset l.d ≥ l.size → exec (.upWrite ch) s = .next (s.raise .cursorRange l.ch)) ∧
    (s.readOffset l.d < l.size →
      ∀ f rem, f = ringFree (s.readOffset l.d) l.cur l.size → rem = l.len - l.done →
        (rem = 0 → exec (.upWrite ch) s = .next (s.complete l.done)) ∧
        (0 < rem → f ≥ rem →
          exec (.upWrite ch) s = .next (s.goOn (.write .copy { l with n := rem, pending := List.range rem }))) ∧
        (0 < rem → f < rem → l.mode = .skip → exec (.upWrite ch) s = .next (s.complete l.done)) ∧
        (0 < rem → f < rem → 0 < f → l.mode ≠ .skip →
          exec (.upWrite ch) s = .next (s.goOn (.write .copy { l with n := f, pending := List.range f }))) ∧
        (0 < rem → f = 0 → l.mode = .trim → exec (.upWrite ch) s = .next (s.complete l.done)) ∧
        (0 < rem → f = 0 → l.mode = .block → exec (.upWrite ch) s = .next s))

/-- A copy step of UP_WRITE copies one pending byte to its place in the buffer, whichever is picked, and every pending byte
can be picked (R124). -/
def Obligations.UpWriteCopiesAnyPendingByte : Prop :=
  ∀ (s : State) (l : WriteLatch) (ch : Nat), s.cur.state = .busy (.write .copy l) → l.pending ≠ [] →
    (∀ k ∈ l.pending, l.addr + l.done + k < s.cfg.space ∧ l.buf + (l.cur + k) % l.size < s.cfg.space) →
    (∃ k ∈ l.pending, exec (.upWrite ch) s =
      .next ((s.putByte (l.buf + (l.cur + k) % l.size) (s.byteAt (l.addr + l.done + k))).goOn
        (.write (if l.pending.erase k = [] then .publish else .copy) { l with pending := l.pending.erase k }))) ∧
    (∀ k ∈ l.pending, ∃ pick, ∀ u, u = { s with pick := pick } → exec (.upWrite ch) u =
      .next ((u.putByte (l.buf + (l.cur + k) % l.size) (s.byteAt (l.addr + l.done + k))).goOn
        (.write (if l.pending.erase k = [] then .publish else .copy) { l with pending := l.pending.erase k })))

/-- The publish step of UP_WRITE stores the advanced write offset; a BLOCK write with bytes left makes another pass, any
other write completes (R125). -/
def Obligations.UpWritePublishesThenCompletes : Prop :=
  ∀ (s : State) (l : WriteLatch) (ch : Nat), s.cur.state = .busy (.write .publish l) →
    s.writeOffsetField l.d + s.cfg.W ≤ s.cfg.space →
    (l.mode = .block → l.done + l.n < l.len →
      exec (.upWrite ch) s = .next ((s.putWord (s.writeOffsetField l.d) ((l.cur + l.n) % l.size)).goOn
        (.write .sample { l with cur := (l.cur + l.n) % l.size, done := l.done + l.n }))) ∧
    (l.mode ≠ .block ∨ l.len ≤ l.done + l.n →
      exec (.upWrite ch) s =
        .next ((s.putWord (s.writeOffsetField l.d) ((l.cur + l.n) % l.size)).complete (l.done + l.n)))

/-- The copy phase of UP_WRITE, run alone, puts every pending byte of the chunk in its place whatever the order of the copy
steps, changes no other byte, and ends in the publish phase (R124; 95_test_vectors.md UW-16). -/
def Obligations.UpWriteCopyOrderDoesNotMatter : Prop :=
  ∀ (s : State) (p : Nat) (l : WriteLatch) (picks : List Nat) (moves : List Move),
    s.cfg.wf = true → (s.port p).state = .busy (.write .copy l) → l.pending ≠ [] → l.pending.Nodup →
    (∀ k ∈ l.pending, k < l.n) → l.n < l.size → l.buf + l.size ≤ s.cfg.space →
    l.addr + l.done + l.n ≤ s.cfg.space →
    (l.addr + l.done + l.n ≤ l.buf ∨ l.buf + l.size ≤ l.addr + l.done) →
    picks.length = l.pending.length → s.schedule = picks.map (Move.port p) ++ moves →
    ∃ t, Host.Core.run Sys2Proof.core picks.length s = .next t ∧
      (t.port p).state = .busy (.write .publish { l with pending := [] }) ∧
      (∀ k ∈ l.pending, t.byteAt (l.buf + (l.cur + k) % l.size) = s.byteAt (l.addr + l.done + k)) ∧
      (∀ a, (∀ k ∈ l.pending, a ≠ l.buf + (l.cur + k) % l.size) → t.byteAt a = s.byteAt a) ∧
      (∀ q, q ≠ p → t.port q = s.port q) ∧ t.faults = s.faults ∧ t.schedule = moves

/-- A whole UP_WRITE, run alone from its issue: it places the first `n` payload bytes, `n` by mode, publishes, returns `n`
and changes nothing else, in `n + 3` steps (2 if `n = 0`). A BLOCK write is taken with room for all of it
(R126, R130, R131; 70_reset_and_hazards.md R245). -/
def Obligations.UpWriteAlonePlacesWhatFits : Prop :=
  ∀ (s : State) (p c n : Nat) (ch : UpChannel) (m : Mode) (r : Request) (rest : List Request) (picks : List Nat)
    (moves : List Move),
    s.cfg.wf = true → s.Sound → s.Channels → s.booted = true → s.cfg.up[c]? = some ch →
    (s.port p).state = .idle → (s.port p).queue = r :: rest → r.cmd = encode (.upWrite c) →
    r.addr < s.cfg.space → r.len < s.cfg.space → r.addr + r.len ≤ s.cfg.space →
    s.cfg.regions.any (fun x => Config.Region.meets (r.addr, r.len) x) = false →
    (∀ q, q ≠ p → (s.port q).latches .up c = false) →
    flagsMode (s.wordAt (s.flagsField (s.descUp c))) = some m →
    (m = .block → r.len ≤ ringFree (s.readOffset (s.descUp c)) (s.writeOffset (s.descUp c)) ch.size) →
    n = (match m with
      | .skip => if r.len ≤ ringFree (s.readOffset (s.descUp c)) (s.writeOffset (s.descUp c)) ch.size then r.len else 0
      | _ => min (ringFree (s.readOffset (s.descUp c)) (s.writeOffset (s.descUp c)) ch.size) r.len) →
    picks.length = (if n = 0 then 2 else n + 3) → s.schedule = picks.map (Move.port p) ++ moves →
    ∃ t, Host.Core.run Sys2Proof.core picks.length s = .next t ∧
      (t.port p).state = .idle ∧ (t.port p).result = n ∧ t.faults = s.faults ∧
      t.writeOffset (s.descUp c) = (s.writeOffset (s.descUp c) + n) % ch.size ∧
      (∀ k, k < n → t.byteAt (ch.buf + (s.writeOffset (s.descUp c) + k) % ch.size) = s.byteAt (r.addr + k)) ∧
      (∀ a, ¬ s.inWord (s.writeOffsetField (s.descUp c)) a →
        (∀ k, k < n → a ≠ ch.buf + (s.writeOffset (s.descUp c) + k) % ch.size) → t.byteAt a = s.byteAt a) ∧
      (∀ q, q ≠ p → t.port q = s.port q)

/-- What UP_WRITE can return, whatever other agents did meanwhile: SKIP all or nothing, TRIM at most LEN, BLOCK never less
than LEN (R130, R131, R132). -/
def Obligations.UpWriteResultByMode : Prop :=
  ∀ (s t : State) (p : Nat) (ph : WritePhase) (l : WriteLatch),
    s.Sound → step s = .next t → (s.port p).state = .busy (.write ph l) → t.booted = true →
    (t.port p).state = .idle →
    (l.mode = .skip → (t.port p).result = 0 ∨ (t.port p).result = l.len) ∧
    (l.mode = .trim → (t.port p).result ≤ l.len) ∧
    (l.mode = .block → (t.port p).result = l.len)

/-- The spin of a BLOCK write: it holds while the buffer is full, goes on once there is room, faults once the peer cursor is
out of range, only a host consume lifts the hold, and a held port is not final (R133). -/
def Obligations.BlockWriteHoldsUntilHostConsumes : Prop :=
  (∀ (s : State) (l : WriteLatch) (ch : Nat), s.cur.state = .busy (.write .sample l) → l.mode = .block →
    l.done < l.len → s.readOffsetField l.d + s.cfg.W ≤ s.cfg.space →
    (s.readOffset l.d < l.size → ringFree (s.readOffset l.d) l.cur l.size = 0 → exec (.upWrite ch) s = .next s) ∧
    (s.readOffset l.d < l.size → 1 ≤ ringFree (s.readOffset l.d) l.cur l.size →
      ∃ t l', exec (.upWrite ch) s = .next t ∧ t.cur.state = .busy (.write .copy l') ∧ 0 < l'.n) ∧
    (s.readOffset l.d ≥ l.size → exec (.upWrite ch) s = .next (s.raise .cursorRange l.ch))) ∧
  (∀ (s t : State) (p : Nat), s.Sound → s.Channels → s.booted = true → s.holds p → step s = .next t →
    t.booted = true → ¬ t.holds p →
    ∃ l k moves, (s.port p).state = .busy (.write .sample l) ∧ s.schedule = .host (.upConsume l.ch k) :: moves) ∧
  (∀ (s : State) (p : Nat), s.holds p → ¬ s.final)

/-! ## DOWN_READ -/

/-- The issue step of DOWN_READ: the checks in order, the first that fails faults; if none fails the command is in flight with
its latches set and samples next; the flags word plays no part (42_read.md R151). The values `n = 0` and `pending = []`
that the latches hold until the sample are the model's own, not R151's (log entry 16). -/
def Obligations.DownReadIssueChecksThenLatches : Prop :=
  ∀ (s : State) (ch : Nat), s.cur.state = .idle →
    (s.cfg.downCountAddr + s.cfg.W ≤ s.cfg.space → s.downCount ≤ ch →
      exec (.downRead ch) s = .next (s.raise .chRange ch)) ∧
    (s.descInside (s.descDown ch) →
      (∀ code, firstFailing (s.readChecks ch) = some code → exec (.downRead ch) s = .next (s.raise code ch)) ∧
      (firstFailing (s.readChecks ch) = none →
        exec (.downRead ch) s = .next (s.goOn (.read .sample
          { ch := ch, d := s.descDown ch, size := s.wordAt (s.sizeField (s.descDown ch)),
            buf := s.wordAt (s.bufferField (s.descDown ch)), cur := s.readOffset (s.descDown ch),
            addr := s.cur.addr, len := s.cur.len, n := 0, pending := [] }))))

/-- The sample step of DOWN_READ: the fault on a bad peer cursor, the completion with 0, or the size of the single chunk
(R152). -/
def Obligations.DownReadSampleSizesChunk : Prop :=
  ∀ (s : State) (l : ReadLatch) (ch : Nat), s.cur.state = .busy (.read .sample l) →
    s.writeOffsetField l.d + s.cfg.W ≤ s.cfg.space →
    (s.writeOffset l.d ≥ l.size → exec (.downRead ch) s = .next (s.raise .cursorRange l.ch)) ∧
    (s.writeOffset l.d < l.size →
      ∀ n, n = min (ringAvailable (s.writeOffset l.d) l.cur l.size) l.len →
        (n = 0 → exec (.downRead ch) s = .next (s.complete 0)) ∧
        (0 < n → exec (.downRead ch) s = .next (s.goOn (.read .copy { l with n := n, pending := List.range n }))))

/-- A copy step of DOWN_READ copies one pending byte of the buffer to its place in the output, whichever is picked, and every
pending byte can be picked (R153). -/
def Obligations.DownReadCopiesAnyPendingByte : Prop :=
  ∀ (s : State) (l : ReadLatch) (ch : Nat), s.cur.state = .busy (.read .copy l) → l.pending ≠ [] →
    (∀ k ∈ l.pending, l.buf + (l.cur + k) % l.size < s.cfg.space ∧ l.addr + k < s.cfg.space) →
    (∃ k ∈ l.pending, exec (.downRead ch) s =
      .next ((s.putByte (l.addr + k) (s.byteAt (l.buf + (l.cur + k) % l.size))).goOn
        (.read (if l.pending.erase k = [] then .publish else .copy) { l with pending := l.pending.erase k }))) ∧
    (∀ k ∈ l.pending, ∃ pick, ∀ u, u = { s with pick := pick } → exec (.downRead ch) u =
      .next ((u.putByte (l.addr + k) (s.byteAt (l.buf + (l.cur + k) % l.size))).goOn
        (.read (if l.pending.erase k = [] then .publish else .copy) { l with pending := l.pending.erase k })))

/-- The publish step of DOWN_READ stores the advanced read offset and completes with the count (R154). -/
def Obligations.DownReadPublishesAndCompletes : Prop :=
  ∀ (s : State) (l : ReadLatch) (ch : Nat), s.cur.state = .busy (.read .publish l) →
    s.readOffsetField l.d + s.cfg.W ≤ s.cfg.space →
    exec (.downRead ch) s = .next ((s.putWord (s.readOffsetField l.d) ((l.cur + l.n) % l.size)).complete l.n)

/-- A whole DOWN_READ, run alone from its issue: it copies the `n` oldest unread bytes to the output in order, publishes,
returns `n = min(available, LEN)` and changes nothing else, in `n + 3` steps (2 if `n = 0`), in any mode
(R155, R157, R158). -/
def Obligations.DownReadAloneCopiesOldestBytes : Prop :=
  ∀ (s : State) (p c n : Nat) (ch : Channel) (r : Request) (rest : List Request) (picks : List Nat)
    (moves : List Move),
    s.cfg.wf = true → s.Sound → s.Channels → s.booted = true → s.cfg.down[c]? = some ch →
    (s.port p).state = .idle → (s.port p).queue = r :: rest → r.cmd = encode (.downRead c) →
    r.addr < s.cfg.space → r.len < s.cfg.space → r.addr + r.len ≤ s.cfg.space →
    s.cfg.regions.any (fun x => Config.Region.meets (r.addr, r.len) x) = false →
    (∀ q, q ≠ p → (s.port q).latches .down c = false) →
    n = min (ringAvailable (s.writeOffset (s.descDown c)) (s.readOffset (s.descDown c)) ch.size) r.len →
    picks.length = (if n = 0 then 2 else n + 3) → s.schedule = picks.map (Move.port p) ++ moves →
    ∃ t, Host.Core.run Sys2Proof.core picks.length s = .next t ∧
      (t.port p).state = .idle ∧ (t.port p).result = n ∧ t.faults = s.faults ∧
      t.readOffset (s.descDown c) = (s.readOffset (s.descDown c) + n) % ch.size ∧
      (∀ k, k < n → t.byteAt (r.addr + k) = s.byteAt (ch.buf + (s.readOffset (s.descDown c) + k) % ch.size)) ∧
      (∀ a, ¬ s.inWord (s.readOffsetField (s.descDown c)) a → (∀ k, k < n → a ≠ r.addr + k) →
        t.byteAt a = s.byteAt a) ∧
      (∀ q, q ≠ p → t.port q = s.port q)

/-! ## UP_GET_MODE and UP_SET_MODE -/

/-- UP_GET_MODE: the checks in order, then completion in the same step with the mode's encoding; the reserved bits, the size,
the buffer, the cursors and a write in flight play no part (41_write.md R140). -/
def Obligations.UpGetModeReturnsModeBits : Prop :=
  ∀ (s : State) (ch : Nat), s.cur.state = .idle →
    (s.cfg.upCountAddr + s.cfg.W ≤ s.cfg.space → s.upCount ≤ ch →
      exec (.upGetMode ch) s = .next (s.raise .chRange ch)) ∧
    (s.descInside (s.descUp ch) → ch < s.upCount →
      (s.wordAt (s.flagsField (s.descUp ch)) % 4 = 3 → exec (.upGetMode ch) s = .next (s.raise .modeReserved ch)) ∧
      (s.wordAt (s.flagsField (s.descUp ch)) % 4 ≠ 3 →
        exec (.upGetMode ch) s = .next (s.complete (s.wordAt (s.flagsField (s.descUp ch)) % 4))))

/-- UP_SET_MODE: the checks in order, then one store of the flags word, with MODE the new mode and every reserved bit kept,
and completion with 0 in the same step; any old mode is overwritten (R142). -/
def Obligations.UpSetModeReplacesModeBits : Prop :=
  ∀ (s : State) (ch : Nat) (m : Mode), s.cfg.wf = true → s.cur.state = .idle →
    (s.upCount ≤ ch → exec (.upSetMode ch m) s = .next (s.raise .chRange ch)) ∧
    (ch < s.upCount →
      (∃ q c, q ≠ s.active ∧ (s.port q).state = .busy c ∧ c.channel = (.up, ch)) →
      exec (.upSetMode ch m) s = .next (s.raise .modeRace ch)) ∧
    (ch < s.upCount → s.descInside (s.descUp ch) →
      (¬ ∃ q c, q ≠ s.active ∧ (s.port q).state = .busy c ∧ c.channel = (.up, ch)) →
      ∃ t, exec (.upSetMode ch m) s = .next t ∧ t.cur = { s.cur with result := 0 } ∧ t.faults = s.faults ∧
        t.wordAt (s.flagsField (s.descUp ch)) % 4 = m.encoding ∧
        t.wordAt (s.flagsField (s.descUp ch)) / 4 = s.wordAt (s.flagsField (s.descUp ch)) / 4)

/-- A mode that was set is the mode that is read, and the mode the next write latches (R141, R143). -/
def Obligations.SetModeTakesEffectOnNextCommand : Prop :=
  ∀ (s t u : State) (ch : Nat) (m : Mode), s.cfg.wf = true → s.cur.state = .idle → s.descInside (s.descUp ch) →
    exec (.upSetMode ch m) s = .next t → t.faults = s.faults →
    u.mem = t.mem → u.cfg = t.cfg → u.cur.state = .idle →
    exec (.upGetMode ch) u = .next (u.complete m.encoding) ∧
    (∀ v ph l, exec (.upWrite ch) u = .next v → v.cur.state = .busy (.write ph l) → l.mode = m)

/-- The latches of a write in flight that its issue set, its mode among them, never change while it is in flight, and a step
that is not the port's own changes nothing of the port (10_state.md R33; R143). -/
def Obligations.LatchesChangeOnlyByOwnSteps : Prop :=
  ∀ (s t : State) (p : Nat), step s = .next t →
    (∀ ph l ph' l', (s.port p).state = .busy (.write ph l) → (t.port p).state = .busy (.write ph' l') →
      l'.ch = l.ch ∧ l'.d = l.d ∧ l'.size = l.size ∧ l'.buf = l.buf ∧ l'.mode = l.mode ∧ l'.addr = l.addr ∧
      l'.len = l.len) ∧
    (∀ ph l ph' l', (s.port p).state = .busy (.read ph l) → (t.port p).state = .busy (.read ph' l') →
      l'.ch = l.ch ∧ l'.d = l.d ∧ l'.size = l.size ∧ l'.buf = l.buf ∧ l'.cur = l.cur ∧ l'.addr = l.addr ∧
      l'.len = l.len) ∧
    ((∀ pick moves, s.schedule ≠ .port p pick :: moves) → (∀ v moves, s.schedule ≠ .reset v :: moves) →
      t.port p = s.port p)

/-! ## Frames -/

/-- What UP_WRITE leaves unchanged: all but the current port's STATE, its RESULT when it completes, the fault log when it
faults, the one byte a copy step stores and the one word a publish step stores (R126; 10_state.md R30). -/
def Obligations.UpWriteFrame : Prop :=
  ∀ (s t : State) (ch : Nat), exec (.upWrite ch) s = .next t →
    (t.cfg = s.cfg ∧ t.booted = s.booted ∧ t.bootPos = s.bootPos ∧ t.active = s.active ∧ t.pick = s.pick ∧
      t.schedule = s.schedule ∧ t.ports.length = s.ports.length) ∧
    (∀ q, q ≠ s.active → t.port q = s.port q) ∧
    (t.cur.cmd = s.cur.cmd ∧ t.cur.addr = s.cur.addr ∧ t.cur.len = s.cur.len ∧ t.cur.queue = s.cur.queue) ∧
    (t.cur.state ≠ .idle → t.cur.result = s.cur.result) ∧
    (t.cur.state ≠ .faulted → t.faults = s.faults) ∧
    (∀ l, s.cur.state = .busy (.write .copy l) → ∀ a, a ≠ writeTarget l (pickPending l.pending s.pick) →
      t.byteAt a = s.byteAt a) ∧
    (∀ l, s.cur.state = .busy (.write .publish l) → ∀ a, ¬ s.inWord (s.writeOffsetField l.d) a →
      t.byteAt a = s.byteAt a) ∧
    ((∀ l, s.cur.state ≠ .busy (.write .copy l)) → (∀ l, s.cur.state ≠ .busy (.write .publish l)) →
      ∀ a, t.byteAt a = s.byteAt a)

/-- What DOWN_READ leaves unchanged: all but the current port's STATE, its RESULT when it completes, the fault log when it
faults, the one byte a copy step stores and the one word the publish step stores (42_read.md R155; 10_state.md R30). -/
def Obligations.DownReadFrame : Prop :=
  ∀ (s t : State) (ch : Nat), exec (.downRead ch) s = .next t →
    (t.cfg = s.cfg ∧ t.booted = s.booted ∧ t.bootPos = s.bootPos ∧ t.active = s.active ∧ t.pick = s.pick ∧
      t.schedule = s.schedule ∧ t.ports.length = s.ports.length) ∧
    (∀ q, q ≠ s.active → t.port q = s.port q) ∧
    (t.cur.cmd = s.cur.cmd ∧ t.cur.addr = s.cur.addr ∧ t.cur.len = s.cur.len ∧ t.cur.queue = s.cur.queue) ∧
    (t.cur.state ≠ .idle → t.cur.result = s.cur.result) ∧
    (t.cur.state ≠ .faulted → t.faults = s.faults) ∧
    (∀ l, s.cur.state = .busy (.read .copy l) → ∀ a, a ≠ l.addr + pickPending l.pending s.pick →
      t.byteAt a = s.byteAt a) ∧
    (∀ l, s.cur.state = .busy (.read .publish l) → ∀ a, ¬ s.inWord (s.readOffsetField l.d) a →
      t.byteAt a = s.byteAt a) ∧
    ((∀ l, s.cur.state ≠ .busy (.read .copy l)) → (∀ l, s.cur.state ≠ .busy (.read .publish l)) →
      ∀ a, t.byteAt a = s.byteAt a)

/-- What UP_GET_MODE and UP_SET_MODE leave unchanged: all but the current port's STATE and RESULT, the fault log when they
fault, and for UP_SET_MODE the flags word of the channel (R140, R142). -/
def Obligations.ModeCommandsFrame : Prop :=
  ∀ (s t : State) (i : Instr) (ch : Nat), (i = .upGetMode ch ∨ ∃ m, i = .upSetMode ch m) → exec i s = .next t →
    (t.cfg = s.cfg ∧ t.booted = s.booted ∧ t.bootPos = s.bootPos ∧ t.active = s.active ∧ t.pick = s.pick ∧
      t.schedule = s.schedule ∧ t.ports.length = s.ports.length) ∧
    (∀ q, q ≠ s.active → t.port q = s.port q) ∧
    (t.cur.cmd = s.cur.cmd ∧ t.cur.addr = s.cur.addr ∧ t.cur.len = s.cur.len ∧ t.cur.queue = s.cur.queue) ∧
    (t.cur.state ≠ .idle → t.cur.result = s.cur.result) ∧
    (t.cur.state ≠ .faulted → t.faults = s.faults) ∧
    (i = .upGetMode ch → ∀ a, t.byteAt a = s.byteAt a) ∧
    (∀ a, ¬ s.inWord (s.flagsField (s.descUp ch)) a → t.byteAt a = s.byteAt a)

/-! ## Faults -/

/-- The checks at issue run in the order of R203 for each command, illegal words first: the first that fails is the fault
recorded, and if none fails none is (60_exceptions.md R203). -/
def Obligations.IssueChecksRunInPriorityOrder : Prop :=
  ∀ (s u : State) (p pick : Nat) (moves : List Move) (r : Request) (rest : List Request),
    s.cfg.wf = true → s.booted = true → s.upCount = s.cfg.nup → s.downCount = s.cfg.ndown →
    s.schedule = .port p pick :: moves → (s.port p).state = .idle → (s.port p).queue = r :: rest →
    u = (s.turn p pick moves).present r rest →
    (∀ code, firstFailing (u.issueChecks r.cmd) = some code → step s = .next (u.raise code (wordChannel r.cmd))) ∧
    (firstFailing (u.issueChecks r.cmd) = none → ∃ t, step s = .next t ∧ t.faults = s.faults)

/-- The fault log is append-only: a step adds at most one record, and only reset empties it (10_state.md R34). -/
def Obligations.FaultLogIsAppendOnly : Prop :=
  ∀ s t : State, step s = .next t →
    (∃ v moves, s.schedule = .reset v :: moves ∧ t.faults = []) ∨
    (t.faults = s.faults ∨ ∃ r : FaultRecord, t.faults = s.faults ++ [r])

/-- A fault appends its record, halts the port, writes neither memory nor RESULT and touches no other port; a FAULTED port
takes no further step until reset (60_exceptions.md R202). -/
def Obligations.FaultHaltsPortAndWritesNothing : Prop :=
  (∀ s t : State, step s = .next t → (∀ v moves, s.schedule ≠ .reset v :: moves) → t.faults ≠ s.faults →
    ∃ p pick moves code ch, s.schedule = .port p pick :: moves ∧
      t.faults = s.faults ++ [{ code := code, port := p, ch := ch }] ∧ (t.port p).state = .faulted ∧
      t.mem = s.mem ∧ (t.port p).result = (s.port p).result ∧ ∀ q, q ≠ p → t.port q = s.port q) ∧
  (∀ (s t : State) (p : Nat), step s = .next t → p < s.ports.length → (s.port p).state = .faulted →
    (∃ v moves, s.schedule = .reset v :: moves) ∨ t.port p = s.port p)

/-- After issue the only fault is CURSOR_RANGE, at a sample step; the copy and publish steps raise nothing (R204). -/
def Obligations.AfterIssueOnlyCursorRangeFaults : Prop :=
  ∀ (s t : State) (c : InFlight), s.cur.state = .busy c → exec c.instr s = .next t → t.faults ≠ s.faults →
    ((∃ l, c = .write .sample l) ∨ ∃ l, c = .read .sample l) ∧ t = s.raise .cursorRange c.channel.2

/-! ## Reset and boot -/

/-- Reset makes every port IDLE, whatever it was doing, empties the fault log and clears `booted`; it defines no value of
memory: any memory can follow; and nothing else takes a port out of FAULTED (70_reset_and_hazards.md R231). -/
def Obligations.ResetAbandonsEverything : Prop :=
  (∀ (s t : State) (v : ResetValues) (moves : List Move), s.cfg.wf = true → s.schedule = .reset v :: moves →
    step s = .next t →
    (∀ p, p < s.ports.length → (t.port p).state = .idle) ∧ t.ports.length = s.ports.length ∧ t.faults = [] ∧
      t.booted = false ∧ t.cfg = s.cfg) ∧
  (∀ (s : State) (m : Memory) (moves : List Move), s.cfg.wf = true → m.wf → (∀ c ∈ m, c.1 < s.cfg.space) →
    ∃ v t, step { s with schedule := .reset v :: moves } = .next t ∧ t.mem = m) ∧
  (∀ (s t : State) (p : Nat), step s = .next t → p < s.ports.length → (s.port p).state = .faulted →
    (t.port p).state ≠ .faulted → ∃ v moves, s.schedule = .reset v :: moves)

/-- The boot sequence, run alone from its start over any memory, leaves what R37 lists: the header, every descriptor, cursors
0, the initial modes, down flags 0; no byte outside the control block, no port and no fault record changes
(10_state.md R37; 70_reset_and_hazards.md R233). -/
def Obligations.BootLeavesListedValues : Prop :=
  ∀ (s : State) (moves : List Move), s.cfg.wf = true → s.booted = false → s.bootPos = 0 →
    s.schedule = List.replicate ((bootStores s.cfg).length + 1) Move.boot ++ moves →
    ∃ t, Host.Core.run Sys2Proof.core ((bootStores s.cfg).length + 1) s = .next t ∧
      t.booted = true ∧ t.cfg = s.cfg ∧ t.ports = s.ports ∧ t.faults = s.faults ∧ t.schedule = moves ∧
      t.signaturePresent = true ∧ t.upCount = s.cfg.nup ∧ t.downCount = s.cfg.ndown ∧
      (∀ c ch, s.cfg.up[c]? = some ch →
        t.wordAt (t.nameField (t.descUp c)) = ch.name ∧ t.wordAt (t.bufferField (t.descUp c)) = ch.buf ∧
        t.wordAt (t.sizeField (t.descUp c)) = ch.size ∧ t.writeOffset (t.descUp c) = 0 ∧
        t.readOffset (t.descUp c) = 0 ∧ t.wordAt (t.flagsField (t.descUp c)) = ch.initMode.encoding) ∧
      (∀ c ch, s.cfg.down[c]? = some ch →
        t.wordAt (t.nameField (t.descDown c)) = ch.name ∧ t.wordAt (t.bufferField (t.descDown c)) = ch.buf ∧
        t.wordAt (t.sizeField (t.descDown c)) = ch.size ∧ t.writeOffset (t.descDown c) = 0 ∧
        t.readOffset (t.descDown c) = 0 ∧ t.wordAt (t.flagsField (t.descDown c)) = 0) ∧
      (∀ a, (a < s.cfg.cbBase ∨ s.cfg.cbBase + s.cfg.cbSize ≤ a) → t.byteAt a = s.byteAt a)

/-- The signature comes last in the boot sequence, in rising address order: until its turn no boot move puts anything but
zeros over the signature's place, every other field is written before, and each of the last moves writes one signature
byte and nothing else (R234). -/
def Obligations.SignatureIsWrittenLast : Prop :=
  ∀ (s : State) (moves : List Move) (k : Nat) (b : Byte), s.cfg.wf = true → s.booted = false →
    s.schedule = .boot :: moves → s.cfg.signature[k]? = some b →
    (s.bootPos + s.cfg.sigLen < (bootStores s.cfg).length →
      ∃ t, step s = .next t ∧ (t.byteAt (s.cfg.cbBase + k) = s.byteAt (s.cfg.cbBase + k) ∨
        t.byteAt (s.cfg.cbBase + k) = 0)) ∧
    (s.bootPos + s.cfg.sigLen = (bootStores s.cfg).length + k →
      ∃ t, step s = .next t ∧ t.byteAt (s.cfg.cbBase + k) = b ∧
        ∀ a, a ≠ s.cfg.cbBase + k → t.byteAt a = s.byteAt a)

/-! ## Memory -/

/-- Byte order: a word store puts each byte of the value in its lane, a word load assembles the same lanes, and no step
changes the byte order (20_memory.md R52). -/
def Obligations.WordsUseConfiguredByteOrder : Prop :=
  (∀ (s : State) (a : Addr) (v : Word) (k : Nat), k < s.cfg.W →
    (s.cfg.endian = .little → (s.putWord a v).byteAt (a + k) = BitVec.ofNat 8 (v / 2 ^ (8 * k))) ∧
    (s.cfg.endian = .big →
      (s.putWord a v).byteAt (a + k) = BitVec.ofNat 8 (v / 2 ^ (8 * (s.cfg.W - 1 - k)))) ∧
    (s.cfg.endian = .little → (s.byteAt (a + k)).toNat = s.wordAt a / 2 ^ (8 * k) % 256) ∧
    (s.cfg.endian = .big → (s.byteAt (a + k)).toNat = s.wordAt a / 2 ^ (8 * (s.cfg.W - 1 - k)) % 256)) ∧
  (∀ s t : State, step s = .next t → t.cfg.endian = s.cfg.endian)

/-- A word store reads back as the value cut to `AW` bits and changes no byte outside the word; two memories in canonical form
that read alike are the same data (00_scope.md R11; log entry 6). -/
def Obligations.StoredWordReadsBack : Prop :=
  (∀ (s : State) (a : Addr) (v : Word),
    (s.putWord a v).wordAt a = v % 2 ^ s.cfg.AW ∧
    (∀ x, ¬ s.inWord a x → (s.putWord a v).byteAt x = s.byteAt x) ∧
    (s.mem.wf → (s.putWord a v).mem.wf)) ∧
  (∀ s t : State, s.mem.wf → t.mem.wf → (∀ a, s.byteAt a = t.byteAt a) → s.mem = t.mem)

/-! ## The host -/

/-- What the host can read: one byte anywhere, or one aligned word, and nothing else; a read changes no state
(43_host.md R171). -/
def Obligations.HostReadsBytesAndAlignedWords : Prop :=
  (∀ (s : State) (a : Addr) (n : Nat), s.cfg.wf = true →
    (a < s.cfg.space → s.hostRead a 1 = some (s.byteAt a).toNat) ∧
    (a % s.cfg.W = 0 → a + s.cfg.W ≤ s.cfg.space → s.hostRead a s.cfg.W = some (s.wordAt a)) ∧
    (n ≠ 1 → n ≠ s.cfg.W → s.hostRead a n = none) ∧
    (a % s.cfg.W ≠ 0 → s.hostRead a s.cfg.W = none)) ∧
  (∀ (s : State) (a : Addr) (n : Nat) (moves : List Move), s.cfg.wf = true →
    s.schedule = .host (.read a n) :: moves → step s = .next { s with schedule := moves })

/-- H_UP_CONSUME: within its bound it advances the up channel's read offset, one word; beyond it there is no such step
(43_host.md R172). -/
def Obligations.HostConsumeAdvancesReadOffset : Prop :=
  ∀ (s : State) (c k : Nat) (ch : UpChannel) (moves : List Move), s.cfg.wf = true → s.Channels →
    s.cfg.up[c]? = some ch → s.schedule = .host (.upConsume c k) :: moves →
    (k ≤ ringAvailable (s.writeOffset (s.descUp c)) (s.readOffset (s.descUp c)) ch.size →
      ∃ t, step s = .next t ∧ t.readOffset (s.descUp c) = (s.readOffset (s.descUp c) + k) % ch.size ∧
        t.ports = s.ports ∧ t.faults = s.faults ∧
        ∀ a, ¬ s.inWord (s.readOffsetField (s.descUp c)) a → t.byteAt a = s.byteAt a) ∧
    (ringAvailable (s.writeOffset (s.descUp c)) (s.readOffset (s.descUp c)) ch.size < k →
      step s = .next { s with schedule := moves })

/-- H_DOWN_DATA and H_DOWN_PUBLISH: within their bounds the first stores one byte into the free region and the second
advances the down channel's write offset, one word; beyond them there is no such step (43_host.md R173, R174). -/
def Obligations.HostFillsThenPublishesDownChannel : Prop :=
  ∀ (s : State) (c : Nat) (ch : Channel) (moves : List Move), s.cfg.wf = true → s.Channels →
    s.cfg.down[c]? = some ch →
    (∀ j b, s.schedule = .host (.downData c j b) :: moves →
      (j < ringFree (s.readOffset (s.descDown c)) (s.writeOffset (s.descDown c)) ch.size →
        ∃ t, step s = .next t ∧ t.byteAt (ch.buf + (s.writeOffset (s.descDown c) + j) % ch.size) = b ∧
          t.ports = s.ports ∧ t.faults = s.faults ∧
          ∀ a, a ≠ ch.buf + (s.writeOffset (s.descDown c) + j) % ch.size → t.byteAt a = s.byteAt a) ∧
      (ringFree (s.readOffset (s.descDown c)) (s.writeOffset (s.descDown c)) ch.size ≤ j →
        step s = .next { s with schedule := moves })) ∧
    (∀ k, s.schedule = .host (.downPublish c k) :: moves →
      (k ≤ ringFree (s.readOffset (s.descDown c)) (s.writeOffset (s.descDown c)) ch.size →
        ∃ t, step s = .next t ∧ t.writeOffset (s.descDown c) = (s.writeOffset (s.descDown c) + k) % ch.size ∧
          t.ports = s.ports ∧ t.faults = s.faults ∧
          ∀ a, ¬ s.inWord (s.writeOffsetField (s.descDown c)) a → t.byteAt a = s.byteAt a) ∧
      (ringFree (s.readOffset (s.descDown c)) (s.writeOffset (s.descDown c)) ch.size < k →
        step s = .next { s with schedule := moves }))

/-- Every byte a host step can change, in every state and so before boot too, is a byte of an up channel's read offset, of a
down channel's write offset, or of the free region of a down channel's buffer, each at its configured place; so it is no
byte of the signature and the counts, of any other descriptor word, or of an up channel's buffer (43_host.md R176). -/
def Obligations.HostWritesOnlyItsOwnPlaces : Prop :=
  ∀ (s t : State) (h : HostStep) (moves : List Move) (a : Addr),
    s.schedule = .host h :: moves → step s = .next t → t.byteAt a ≠ s.byteAt a →
    ((∃ c, c < s.cfg.nup ∧ s.inWord (s.readOffsetField (s.cfg.descAddr c)) a) ∨
      (∃ c, c < s.cfg.ndown ∧ s.inWord (s.writeOffsetField (s.cfg.descAddr (s.cfg.nup + c))) a) ∨
      (∃ (c : Nat) (ch : Channel) (j : Nat), s.cfg.down[c]? = some ch ∧
        j < ringFree (s.readOffset (s.cfg.descAddr (s.cfg.nup + c))) (s.writeOffset (s.cfg.descAddr (s.cfg.nup + c)))
          ch.size ∧
        a = ch.buf + (s.writeOffset (s.cfg.descAddr (s.cfg.nup + c)) + j) % ch.size)) ∧
    ¬ (s.cfg.cbBase ≤ a ∧ a < s.cfg.cbBase + s.cfg.sigLen + 2 * s.cfg.W) ∧
    (∀ i, i < s.cfg.nup + s.cfg.ndown → ∀ d, d = s.cfg.descAddr i →
      ¬ s.inWord (s.nameField d) a ∧ ¬ s.inWord (s.bufferField d) a ∧ ¬ s.inWord (s.sizeField d) a ∧
        ¬ s.inWord (s.flagsField d) a) ∧
    (∀ c, c < s.cfg.nup → ¬ s.inWord (s.writeOffsetField (s.cfg.descAddr c)) a) ∧
    (∀ c, c < s.cfg.ndown → ¬ s.inWord (s.readOffsetField (s.cfg.descAddr (s.cfg.nup + c))) a) ∧
    (∀ ch ∈ s.cfg.up, ¬ (ch.buf ≤ a ∧ a < ch.buf + ch.size))

/-- A requester's own memory traffic reaches nothing of the block: a byte it changes lies outside the control block and every
buffer, it is none while its port is BUSY, and it changes no port, no fault record and not the boot (20_memory.md R51;
10_state.md R31; log entry 22). -/
def Obligations.RequesterStoresOnlyOutsideTheBlock : Prop :=
  ∀ (s t : State) (p : Nat) (a : Addr) (b : Byte) (moves : List Move), s.cfg.wf = true →
    s.schedule = .requester p a b :: moves → step s = .next t →
    (∀ x, t.byteAt x ≠ s.byteAt x →
      x = a ∧ (∀ c, (s.port p).state ≠ .busy c) ∧
        ∀ r ∈ s.cfg.regions, 0 < r.2 → ¬ (r.1 ≤ x ∧ x < r.1 + r.2)) ∧
    t.ports = s.ports ∧ t.faults = s.faults ∧ t.booted = s.booted ∧ t.bootPos = s.bootPos ∧ t.cfg = s.cfg

/-! ## Invariants and whole-machine rules -/

/-- The state after reset is sound, with the values the spec gives it (10_state.md R36). The configuration and the zeros
of the registers are the model's choice (log entries 1 and 7). -/
def Obligations.ResetStateIsSound : Prop :=
  State.reset.Sound ∧ State.reset.faults = [] ∧ State.reset.booted = false ∧ State.reset.mem = [] ∧
    ∀ p, p < State.reset.cfg.nport → (State.reset.port p).state = .idle

/-- Every step keeps the machine's invariant: canonical memory inside the address space, registers of `AW` bits, latches in
order, CMD, ADDR and LEN kept while BUSY, one command in flight on a channel, quiet before boot, and FAULTED ports exactly
those of the fault log (10_state.md R30, R31, R33; 60_exceptions.md R202, R205). -/
def Obligations.StepKeepsSound : Prop :=
  ∀ s t : State, s.Sound → step s = .next t → t.Sound

/-- Once booted, every step but reset keeps the channels: header and descriptors as configured, every cursor a valid index,
a legal mode, down flags 0, and every chunk in flight within the room there is (10_state.md R22, R25; 40_ring_engine.md
R109, R110). -/
def Obligations.StepKeepsChannels : Prop :=
  ∀ s t : State, s.Sound → s.Channels → s.booted = true → step s = .next t → t.booted = true → t.Channels

/-- A sound state whose channels are in order never stops: every move of every agent has a next state, no fault of the
machine and no refusal (60_exceptions.md R200). -/
def Obligations.SafeStateAlwaysSteps : Prop :=
  ∀ s : State, s.cfg.wf = true → s.Safe → ∃ t, step s = .next t

/-- What the host can rely on while a port moves: every unread byte of an up channel stays as it was published, a byte of an
up buffer changes only in the free region, no byte of a down buffer changes, and no host cursor changes
(43_host.md R177). -/
def Obligations.PortsKeepWhatHostReliesOn : Prop :=
  ∀ (s t : State) (p pick : Nat) (moves : List Move), s.Sound → s.Channels → s.booted = true →
    s.schedule = .port p pick :: moves → step s = .next t →
    (∀ (c : Nat) (ch : UpChannel) (j : Nat), s.cfg.up[c]? = some ch →
      j < ringAvailable (s.writeOffset (s.descUp c)) (s.readOffset (s.descUp c)) ch.size →
      t.byteAt (ch.buf + (s.readOffset (s.descUp c) + j) % ch.size) =
        s.byteAt (ch.buf + (s.readOffset (s.descUp c) + j) % ch.size)) ∧
    (∀ (c : Nat) (ch : UpChannel) (a : Addr), s.cfg.up[c]? = some ch → ch.buf ≤ a → a < ch.buf + ch.size →
      t.byteAt a ≠ s.byteAt a →
      ∃ k, k < ringFree (s.readOffset (s.descUp c)) (s.writeOffset (s.descUp c)) ch.size ∧
        a = ch.buf + (s.writeOffset (s.descUp c) + k) % ch.size) ∧
    (∀ (c : Nat) (ch : Channel) (a : Addr), s.cfg.down[c]? = some ch → ch.buf ≤ a → a < ch.buf + ch.size →
      t.byteAt a = s.byteAt a) ∧
    (∀ c, c < s.cfg.nup → t.readOffset (s.descUp c) = s.readOffset (s.descUp c)) ∧
    (∀ c, c < s.cfg.ndown → t.writeOffset (s.descDown c) = s.writeOffset (s.descDown c))

/-- Each cursor has one writer: an up write offset changes only when a port publishes an UP_WRITE on the channel, an up read
offset only by the host's consume, a down write offset only by the host's publish, a down read offset only when a port
publishes a DOWN_READ; up flags change only by UP_SET_MODE; nothing else of a descriptor ever changes (10_state.md R24). -/
def Obligations.EachCursorHasOneWriter : Prop :=
  ∀ s t : State, s.Sound → s.Channels → s.booted = true → step s = .next t → t.booted = true →
    (∀ c, c < s.cfg.nup →
      (t.writeOffset (s.descUp c) ≠ s.writeOffset (s.descUp c) →
        ∃ p pick moves l, s.schedule = .port p pick :: moves ∧ (s.port p).state = .busy (.write .publish l) ∧
          l.ch = c) ∧
      (t.readOffset (s.descUp c) ≠ s.readOffset (s.descUp c) →
        ∃ k moves, s.schedule = .host (.upConsume c k) :: moves) ∧
      (t.wordAt (s.flagsField (s.descUp c)) ≠ s.wordAt (s.flagsField (s.descUp c)) →
        ∃ p pick moves r rest m, s.schedule = .port p pick :: moves ∧ (s.port p).state = .idle ∧
          (s.port p).queue = r :: rest ∧ decodeWord r.cmd = .ok (.upSetMode c m)) ∧
      t.wordAt (s.nameField (s.descUp c)) = s.wordAt (s.nameField (s.descUp c)) ∧
      t.wordAt (s.bufferField (s.descUp c)) = s.wordAt (s.bufferField (s.descUp c)) ∧
      t.wordAt (s.sizeField (s.descUp c)) = s.wordAt (s.sizeField (s.descUp c))) ∧
    (∀ c, c < s.cfg.ndown →
      (t.writeOffset (s.descDown c) ≠ s.writeOffset (s.descDown c) →
        ∃ k moves, s.schedule = .host (.downPublish c k) :: moves) ∧
      (t.readOffset (s.descDown c) ≠ s.readOffset (s.descDown c) →
        ∃ p pick moves l, s.schedule = .port p pick :: moves ∧ (s.port p).state = .busy (.read .publish l) ∧
          l.ch = c) ∧
      t.wordAt (s.flagsField (s.descDown c)) = s.wordAt (s.flagsField (s.descDown c)) ∧
      t.wordAt (s.nameField (s.descDown c)) = s.wordAt (s.nameField (s.descDown c)) ∧
      t.wordAt (s.bufferField (s.descDown c)) = s.wordAt (s.bufferField (s.descDown c)) ∧
      t.wordAt (s.sizeField (s.descDown c)) = s.wordAt (s.sizeField (s.descDown c)))

/-- An access of the controller that does not lie inside the address space stops the machine (20_memory.md R50). That it stops
by this fault is the model's choice (log entry 9). -/
def Obligations.AccessOutsideAddressSpaceStops : Prop :=
  ∀ (s : State) (a : Addr) (go : Word → Out) (goB : Byte → Out) (goS : State → Out) (v : Word) (b : Byte),
    (s.cfg.space < a + s.cfg.W →
      s.load a go = .fault (.noSuchAddress a) ∧ s.store a v goS = .fault (.noSuchAddress a)) ∧
    (s.cfg.space ≤ a → s.loadByte a goB = .fault (.noSuchAddress a) ∧ s.storeByte a b goS = .fault (.noSuchAddress a))

/-- Ends of a run: in a final state no port moves again and every step leaves it final; at a state where a run is judged,
final is having no FAULTED port; a fault state and a stuck state are not final, and a state in which a request waits is
none at which a run is judged (60_exceptions.md R217). -/
def Obligations.FinalStatesAreAtRest : Prop :=
  (∀ (s : State) (p pick : Nat) (moves : List Move), s.cfg.wf = true → s.final → s.schedule = .port p pick :: moves →
    step s = .next (s.turn p pick moves)) ∧
  (∀ s t : State, s.final → step s = .next t → t.final) ∧
  (∀ s : State, s.Sound → s.judged → (s.final ↔ ¬ s.faultState)) ∧
  (∀ s : State, s.faultState → ¬ s.final) ∧
  (∀ s : State, s.stuck → ¬ s.judged) ∧
  (∀ (s : State) (p : Nat), (s.port p).queue ≠ [] → ¬ s.judged)
end

