-- ==== Sys2Proof/Laws/Config.lean ====
section
/-! SUPPORT. What a well-formed configuration gives (00_scope.md R8): where the descriptors and buffers lie, and that they do
not meet. -/

namespace Sys2Proof.Config

/-- The two regions have no byte in common, as an inequality. -/
def Region.Apart (x y : Region) : Prop := x.1 + x.2 ≤ y.1 ∨ y.1 + y.2 ≤ x.1

theorem Region.apart_of_meets {x y : Region} (h : Region.meets x y = false) (hx : 0 < x.2) (hy : 0 < y.2) :
    Region.Apart x y := by
  unfold Region.meets at h
  unfold Region.Apart
  simp only [hx, hy, decide_true, Bool.true_and, Bool.and_eq_false_iff, decide_eq_false_iff_not] at h
  rcases h with h | h <;> [right; left] <;> exact Nat.le_of_not_lt h

theorem Region.meets_of_not_apart {x y : Region} (hx : 0 < x.2) (hy : 0 < y.2) (h : ¬ Region.Apart x y) :
    Region.meets x y = true := by
  by_contra hm
  exact h (Region.apart_of_meets (by simpa using hm) hx hy)

theorem Region.apart_symm {x y : Region} (h : Region.Apart x y) : Region.Apart y x := Or.symm h

variable {c : Config}

theorem wf_parts (h : c.wf = true) :
    c.wordSizeOk = true ∧ c.signatureOk = true ∧ c.baseOk = true ∧ c.countsOk = true ∧ c.channelsOk = true ∧
      c.portsOk = true ∧ c.regionsInside = true ∧ c.regionsDisjoint = true := by
  simpa [wf, Bool.and_eq_true, and_assoc] using h

theorem W_cases (h : c.wf = true) : c.W = 4 ∨ c.W = 8 := by
  simpa [wordSizeOk] using (wf_parts h).1

theorem W_pos (h : c.wf = true) : 0 < c.W := by
  rcases W_cases h with h | h <;> omega

theorem space_pos (c : Config) : 0 < c.space := Nat.two_pow_pos _

theorem sigLen_pos (h : c.wf = true) : 0 < c.sigLen := by
  have := (wf_parts h).2.1
  simp only [signatureOk, Bool.and_eq_true, decide_eq_true_eq] at this
  exact this.1.1

theorem counts_le (h : c.wf = true) : c.nup ≤ 256 ∧ c.ndown ≤ 256 := by
  simpa [countsOk] using (wf_parts h).2.2.2.1

theorem nport_pos (h : c.wf = true) : 1 ≤ c.nport := by
  simpa [portsOk] using (wf_parts h).2.2.2.2.2.1

theorem region_inside (h : c.wf = true) {r : Region} (hr : r ∈ c.regions) : r.1 + r.2 ≤ c.space := by
  have := (wf_parts h).2.2.2.2.2.2.1
  simp only [regionsInside, List.all_eq_true, decide_eq_true_eq] at this
  exact this r hr

theorem cb_inside (h : c.wf = true) : c.cbBase + c.cbSize ≤ c.space :=
  region_inside h (r := c.cbRegion) (by simp [regions])

theorem channelOk_up (h : c.wf = true) {ch : UpChannel} (hc : ch ∈ c.up) : c.channelOk ch.toChannel = true := by
  have := (wf_parts h).2.2.2.2.1
  simp only [channelsOk, Bool.and_eq_true, List.all_eq_true] at this
  exact this.1 ch hc

theorem channelOk_down (h : c.wf = true) {ch : Channel} (hc : ch ∈ c.down) : c.channelOk ch = true := by
  have := (wf_parts h).2.2.2.2.1
  simp only [channelsOk, Bool.and_eq_true, List.all_eq_true] at this
  exact this.2 ch hc

theorem channel_bounds {ch : Channel} (h : c.channelOk ch = true) :
    1 ≤ ch.size ∧ ch.size < c.space ∧ ch.name < c.space := by
  simpa [channelOk, and_assoc] using h

theorem upRegion_mem {ch : UpChannel} (hc : ch ∈ c.up) : (ch.buf, ch.size) ∈ c.bufRegions := by
  simp only [bufRegions, List.mem_append, List.mem_map]
  exact .inl ⟨ch, hc, rfl⟩

theorem downRegion_mem {ch : Channel} (hc : ch ∈ c.down) : (ch.buf, ch.size) ∈ c.bufRegions := by
  simp only [bufRegions, List.mem_append, List.mem_map]
  exact .inr ⟨ch, hc, rfl⟩

theorem bufRegions_sub {r : Region} (hr : r ∈ c.bufRegions) : r ∈ c.regions := List.mem_cons_of_mem _ hr

theorem bufRegion_pos (h : c.wf = true) {r : Region} (hr : r ∈ c.bufRegions) : 0 < r.2 := by
  simp only [bufRegions, List.mem_append, List.mem_map] at hr
  rcases hr with ⟨ch, hc, rfl⟩ | ⟨ch, hc, rfl⟩
  · exact (channel_bounds (channelOk_up h hc)).1
  · exact (channel_bounds (channelOk_down h hc)).1

theorem cbSize_pos (h : c.wf = true) : 0 < c.cbSize := by
  have := sigLen_pos h
  unfold cbSize
  omega

theorem regions_pairwise (h : c.wf = true) : c.regions.Pairwise (fun x y => Region.meets x y = false) := by
  simpa [regionsDisjoint] using (wf_parts h).2.2.2.2.2.2.2

/-- A buffer and the control block have no byte in common. -/
theorem cb_apart (h : c.wf = true) {r : Region} (hr : r ∈ c.bufRegions) : Region.Apart c.cbRegion r :=
  Region.apart_of_meets ((List.pairwise_cons.1 (regions_pairwise h)).1 r hr) (cbSize_pos h) (bufRegion_pos h hr)

/-- The buffers at two different places of the list of buffers have no byte in common. -/
theorem bufs_apart (h : c.wf = true) {i j : Nat} {x y : Region} (hi : c.bufRegions[i]? = some x)
    (hj : c.bufRegions[j]? = some y) (hij : i ≠ j) : Region.Apart x y := by
  have hp := (List.pairwise_cons.1 (regions_pairwise h)).2
  have key : ∀ {i j : Nat} {x y : Region}, c.bufRegions[i]? = some x → c.bufRegions[j]? = some y → i < j →
      Region.Apart x y := by
    intro i j x y hi hj hlt
    obtain ⟨hi', rfl⟩ := List.getElem?_eq_some_iff.1 hi
    obtain ⟨hj', rfl⟩ := List.getElem?_eq_some_iff.1 hj
    exact Region.apart_of_meets (List.pairwise_iff_getElem.1 hp i j hi' hj' hlt)
      (bufRegion_pos h (List.getElem_mem hi')) (bufRegion_pos h (List.getElem_mem hj'))
  rcases Nat.lt_or_gt_of_ne hij with hlt | hgt
  · exact key hi hj hlt
  · exact Region.apart_symm (key hj hi hgt)

theorem bufRegions_up {i : Nat} {ch : UpChannel} (hc : c.up[i]? = some ch) :
    c.bufRegions[i]? = some (ch.buf, ch.size) := by
  obtain ⟨hi, rfl⟩ := List.getElem?_eq_some_iff.1 hc
  unfold bufRegions
  rw [List.getElem?_append_left (by simpa using hi)]
  simp [hi]

theorem bufRegions_down {i : Nat} {ch : Channel} (hc : c.down[i]? = some ch) :
    c.bufRegions[c.nup + i]? = some (ch.buf, ch.size) := by
  obtain ⟨hi, rfl⟩ := List.getElem?_eq_some_iff.1 hc
  unfold bufRegions nup
  rw [List.getElem?_append_right (by simp)]
  simp [hi]

/-- Descriptor slot `i` lies inside the control block. -/
theorem descAddr_inside {i : Nat} (hi : i < c.nup + c.ndown) :
    c.descAddr i + 6 * c.W ≤ c.cbBase + c.cbSize := by
  have h1 : 6 * c.W * i + 6 * c.W ≤ 6 * c.W * (c.nup + c.ndown) := by
    rw [← Nat.mul_succ]; exact Nat.mul_le_mul_left _ hi
  unfold descAddr cbSize
  simp only [Addr] at *
  omega

/-- Every descriptor lies behind the header. -/
theorem header_before_desc (c : Config) (i : Nat) : c.cbBase + c.sigLen + 2 * c.W ≤ c.descAddr i :=
  Nat.le_add_right _ _

/-- Different slots do not overlap. -/
theorem descAddr_apart (c : Config) {i j : Nat} (h : i < j) : c.descAddr i + 6 * c.W ≤ c.descAddr j := by
  have h1 : 6 * c.W * i + 6 * c.W ≤ 6 * c.W * j := by
    rw [← Nat.mul_succ]; exact Nat.mul_le_mul_left _ h
  unfold descAddr
  simp only [Addr] at *
  omega

end Sys2Proof.Config
end

