-- ==== Sys2Proof/Laws/Memory.lean ====
section
/-! SUPPORT. Memory: what a read sees after a write, of bytes and of words, and that every write keeps the canonical form. -/

namespace Sys2Proof.Machine.Memory

/-! ### Bytes -/

theorem read_erase_same (m : Memory) (a : Addr) : (m.erase a).read a = unwritten := by
  induction m with
  | nil => rfl
  | cons c rest ih =>
    obtain ⟨x, b⟩ := c
    by_cases h : x = a <;> simp [erase, read, h, ih]

theorem read_erase_ne (m : Memory) {a x : Addr} (h : x ≠ a) : (m.erase a).read x = m.read x := by
  induction m with
  | nil => rfl
  | cons c rest ih =>
    obtain ⟨y, b⟩ := c
    by_cases hy : y = a
    · subst hy; simp [erase, read, ih, Ne.symm h]
    · simp [erase, read, hy, ih]

theorem read_insert_ne (m : Memory) {a x : Addr} (b : Byte) (h : x ≠ a) : (m.insert a b).read x = m.read x := by
  induction m with
  | nil => simp [insert, read, Ne.symm h]
  | cons c rest ih =>
    obtain ⟨y, d⟩ := c
    by_cases hy : a < y
    · simp [insert, read, hy, Ne.symm h]
    · simp [insert, read, hy, ih]

theorem read_insert_erase_same (m : Memory) (a : Addr) (b : Byte) : ((m.erase a).insert a b).read a = b := by
  induction m with
  | nil => simp [erase, insert, read]
  | cons c rest ih =>
    obtain ⟨y, d⟩ := c
    by_cases hy : y = a
    · simpa [erase, hy] using ih
    · by_cases hl : a < y <;> simp [erase, hy, insert, hl, read, ih]

/-- A byte just written reads back. -/
@[simp] theorem read_write_same (m : Memory) (a : Addr) (b : Byte) : (m.write a b).read a = b := by
  unfold write
  split
  · rw [read_erase_same, ‹b = unwritten›]
  · exact read_insert_erase_same m a b

/-- A write leaves every other byte alone. -/
theorem read_write_ne (m : Memory) {a x : Addr} (b : Byte) (h : x ≠ a) : (m.write a b).read x = m.read x := by
  unfold write
  split
  · exact read_erase_ne m h
  · rw [read_insert_ne _ b h, read_erase_ne m h]

theorem read_write (m : Memory) (a x : Addr) (b : Byte) :
    (m.write a b).read x = if x = a then b else m.read x := by
  split
  · subst x; exact read_write_same m a b
  · exact read_write_ne m b ‹_›

/-! ### The canonical form -/

theorem mem_erase {m : Memory} {a : Addr} {c : Host.Cell} : c ∈ m.erase a ↔ c ∈ m ∧ c.1 ≠ a := by
  induction m with
  | nil => simp [erase]
  | cons d rest ih =>
    obtain ⟨x, b⟩ := d
    by_cases h : x = a
    · simp only [erase, h, if_true, ih, List.mem_cons]
      constructor
      · rintro ⟨h1, h2⟩; exact ⟨.inr h1, h2⟩
      · rintro ⟨rfl | h1, h2⟩
        · exact absurd rfl h2
        · exact ⟨h1, h2⟩
    · simp only [erase, h, if_false, List.mem_cons, ih]
      constructor
      · rintro (rfl | ⟨h1, h2⟩)
        · exact ⟨.inl rfl, h⟩
        · exact ⟨.inr h1, h2⟩
      · rintro ⟨rfl | h1, h2⟩
        · exact .inl rfl
        · exact .inr ⟨h1, h2⟩

theorem mem_insert {m : Memory} {a : Addr} {b : Byte} {c : Host.Cell} :
    c ∈ m.insert a b ↔ c = (a, b) ∨ c ∈ m := by
  induction m with
  | nil => simp [insert]
  | cons d rest ih =>
    obtain ⟨x, e⟩ := d
    by_cases h : a < x
    · simp [insert, h]
    · simp only [insert, h, if_false, List.mem_cons, ih]; tauto

theorem wf_erase {m : Memory} (h : m.wf) (a : Addr) : (m.erase a).wf := by
  refine ⟨?_, fun c hc => h.2 c (mem_erase.1 hc).1⟩
  have : (m.erase a).Sublist m := by
    clear h
    induction m with
    | nil => exact List.Sublist.refl _
    | cons d rest ih =>
      obtain ⟨x, b⟩ := d
      by_cases hx : x = a
      · simpa [erase, hx] using ih.trans (List.sublist_cons_self _ _)
      · simpa [erase, hx] using ih.cons_cons (x, b)
  exact h.1.sublist this

theorem wf_insert_erase {m : Memory} (h : m.wf) (a : Addr) {b : Byte} (hb : b ≠ unwritten) :
    ((m.erase a).insert a b).wf := by
  have key : ∀ n : Memory, n.wf → (∀ c ∈ n, c.1 ≠ a) → (n.insert a b).wf := by
    intro n
    induction n with
    | nil => intro _ _; exact ⟨by simp [insert], by simpa [insert] using hb⟩
    | cons d rest ih =>
      obtain ⟨x, e⟩ := d
      intro hn ha
      obtain ⟨h1, h2⟩ := hn
      rw [List.pairwise_cons] at h1
      by_cases hlt : a < x
      · simp only [insert, hlt, if_true]
        refine ⟨List.pairwise_cons.2 ⟨?_, List.pairwise_cons.2 h1⟩, ?_⟩
        · rintro c hc
          rcases List.mem_cons.1 hc with rfl | hc
          · exact hlt
          · exact Nat.lt_trans hlt (h1.1 c hc)
        · rintro c hc
          rcases List.mem_cons.1 hc with rfl | hc
          · exact hb
          · exact h2 c hc
      · simp only [insert, hlt, if_false]
        have hxa : x < a := by
          have : x ≠ a := ha (x, e) (List.mem_cons_self ..)
          have : (x : Nat) ≠ a := this
          exact Nat.lt_of_le_of_ne (Nat.le_of_not_lt hlt) this
        have hr := ih ⟨h1.2, fun c hc => h2 c (List.mem_cons_of_mem _ hc)⟩
          (fun c hc => ha c (List.mem_cons_of_mem _ hc))
        refine ⟨List.pairwise_cons.2 ⟨?_, hr.1⟩, ?_⟩
        · intro c hc
          rcases mem_insert.1 hc with rfl | hc
          · exact hxa
          · exact h1.1 c hc
        · rintro c hc
          rcases List.mem_cons.1 hc with rfl | hc
          · exact h2 _ (List.mem_cons_self ..)
          · exact hr.2 c hc
  exact key _ (wf_erase h a) (fun c hc => (mem_erase.1 hc).2)

/-- A byte write keeps the canonical form. -/
theorem wf_write {m : Memory} (h : m.wf) (a : Addr) (b : Byte) : (m.write a b).wf := by
  unfold write
  split
  · exact wf_erase h a
  · exact wf_insert_erase h a ‹_›

/-- A byte write lists no address but the old ones and its own. -/
theorem mem_write {m : Memory} {a : Addr} {b : Byte} {c : Host.Cell} (h : c ∈ m.write a b) : c.1 = a ∨ c ∈ m := by
  unfold write at h
  split at h
  · exact .inr (mem_erase.1 h).1
  · rcases mem_insert.1 h with rfl | h
    · exact .inl rfl
    · exact .inr (mem_erase.1 h).1

theorem wf_nil : Memory.wf [] := by simp [wf]

theorem wf_ofCells (cells : List Host.Cell) : (ofCells cells).wf := by
  have : ∀ (cs : List Host.Cell) (m : Memory), m.wf → (cs.foldl (fun m c => m.write c.1 c.2) m).wf := by
    intro cs
    induction cs with
    | nil => intro m h; exact h
    | cons c rest ih => intro m h; exact ih _ (wf_write h c.1 c.2)
  exact this cells [] wf_nil

/-- An address that no entry lists reads as unwritten. -/
theorem read_of_not_listed {m : Memory} {a : Addr} (h : ∀ c ∈ m, c.1 ≠ a) : m.read a = unwritten := by
  induction m with
  | nil => rfl
  | cons c rest ih =>
    obtain ⟨x, b⟩ := c
    have hx : x ≠ a := h (x, b) (List.mem_cons_self ..)
    simp only [read, hx, if_false]
    exact ih (fun c hc => h c (List.mem_cons_of_mem _ hc))

theorem read_of_listed {m : Memory} (h : m.wf) {a : Addr} {b : Byte} (hc : (a, b) ∈ m) : m.read a = b := by
  induction m with
  | nil => cases hc
  | cons c rest ih =>
    obtain ⟨x, d⟩ := c
    have hp := List.pairwise_cons.1 h.1
    rcases List.mem_cons.1 hc with heq | hc
    · cases heq; simp [read]
    · have hlt : x < a := hp.1 (a, b) hc
      have hne : x ≠ a := Nat.ne_of_lt hlt
      simp only [read, hne, if_false]
      exact ih ⟨hp.2, fun c hc => h.2 c (List.mem_cons_of_mem _ hc)⟩ hc

/-- Two memories in canonical form that read alike are equal. -/
theorem ext_of_wf {m n : Memory} (hm : m.wf) (hn : n.wf) (h : ∀ a, m.read a = n.read a) : m = n := by
  have sub : ∀ {m n : Memory}, m.wf → n.wf → (∀ a, m.read a = n.read a) → ∀ c ∈ m, c ∈ n := by
    rintro m n hm hn h ⟨a, b⟩ hc
    have hb : b ≠ unwritten := hm.2 _ hc
    have hr : n.read a = b := by rw [← h a, read_of_listed hm hc]
    by_contra hnot
    have : ∃ c ∈ n, c.1 = a := by
      by_contra hall
      push Not at hall
      exact hb (by rw [← hr, read_of_not_listed hall])
    obtain ⟨⟨x, d⟩, hd, rfl⟩ := this
    rw [read_of_listed hn hd] at hr
    exact hnot (hr ▸ hd)
  have nd : ∀ {m : Memory}, m.wf → m.Nodup := fun h => h.1.imp (fun {x y} hxy he => by
    have : x.1 < y.1 := hxy
    rw [he] at this
    exact Nat.lt_irrefl _ this)
  have perm : m.Perm n := (List.perm_ext_iff_of_nodup (nd hm) (nd hn)).2
    (fun c => ⟨sub hm hn h c, sub hn hm (fun a => (h a).symm) c⟩)
  refine perm.eq_of_pairwise (le := fun x y => x.1 < y.1) ?_ hm.1 hn.1
  intro a b _ _ hab hba
  exact absurd (Nat.lt_trans hab hba) (Nat.lt_irrefl _)

/-! ### Words -/

theorem read_writeLittle_out (m : Memory) (n : Nat) : ∀ (a : Addr) (v : Word) (x : Addr), (x < a ∨ a + n ≤ x) →
    (m.writeLittle a n v).read x = m.read x := by
  induction n with
  | zero => intros; rfl
  | succ n ih =>
    intro a v x hx
    have hne : x ≠ a := by rcases hx with h | h <;> [exact Nat.ne_of_lt h; (intro he; subst he; simp at h)]
    rw [writeLittle, read_write_ne _ _ hne]
    exact ih (a + 1) (v / 256) x (by rcases hx with h | h <;> [left; right] <;> simp only [Addr] at * <;> omega)

theorem read_writeBig_out (m : Memory) (n : Nat) : ∀ (a : Addr) (v : Word) (x : Addr), (x < a ∨ a + n ≤ x) →
    (m.writeBig a n v).read x = m.read x := by
  induction n with
  | zero => intros; rfl
  | succ n ih =>
    intro a v x hx
    have hne : x ≠ a + n := by simp only [Addr] at *; omega
    rw [writeBig, read_write_ne _ _ hne]
    exact ih a (v / 256) x (by simp only [Addr] at *; omega)

/-- A word write leaves every byte outside it alone. -/
theorem read_writeWord_out (m : Memory) (e : Endian) (n : Nat) {a x : Addr} (v : Word) (hx : x < a ∨ a + n ≤ x) :
    (m.writeWord e n a v).read x = m.read x := by
  cases e
  · exact read_writeLittle_out m n a v x hx
  · exact read_writeBig_out m n a v x hx

/-- The byte lanes of a little-endian word (20_memory.md R52). -/
theorem read_writeLittle_in (m : Memory) (n : Nat) : ∀ (a : Addr) (v : Word) (k : Nat), k < n →
    (m.writeLittle a n v).read (a + k) = BitVec.ofNat 8 (v / 256 ^ k) := by
  induction n with
  | zero => intro _ _ k hk; omega
  | succ n ih =>
    intro a v k hk
    cases k with
    | zero => simp [writeLittle]
    | succ k =>
      have hne : a + (k + 1) ≠ a := by simp only [Addr] at *; omega
      rw [writeLittle, read_write_ne _ _ hne, show a + (k + 1) = a + 1 + k by simp only [Addr] at *; omega,
        ih (a + 1) (v / 256) k (by omega), Nat.pow_succ', Nat.div_div_eq_div_mul]

/-- The byte lanes of a big-endian word (20_memory.md R52). -/
theorem read_writeBig_in (m : Memory) (n : Nat) : ∀ (a : Addr) (v : Word) (k : Nat), k < n →
    (m.writeBig a n v).read (a + k) = BitVec.ofNat 8 (v / 256 ^ (n - 1 - k)) := by
  induction n with
  | zero => intro _ _ k hk; omega
  | succ n ih =>
    intro a v k hk
    by_cases hkn : k = n
    · subst hkn; simp [writeBig]
    · have hne : a + k ≠ a + n := by simp only [Addr] at *; omega
      rw [writeBig, read_write_ne _ _ hne, ih a (v / 256) k (by omega), Nat.div_div_eq_div_mul, ← Nat.pow_succ',
        show (n - 1 - k).succ = n + 1 - 1 - k by omega]

/-- Words are read byte by byte: equal bytes give equal words. -/
theorem readWord_congr {m m' : Memory} (e : Endian) (n : Nat) : ∀ (a : Addr),
    (∀ x, a ≤ x → x < a + n → m.read x = m'.read x) → m.readWord e n a = m'.readWord e n a := by
  cases e
  · show ∀ a : Addr, _ → m.readLittle a n = m'.readLittle a n
    induction n with
    | zero => intros; rfl
    | succ n ih =>
      intro a h
      rw [readLittle, readLittle, h a (Nat.le_refl _) (by simp only [Addr] at *; omega),
        ih (a + 1) (fun x h1 h2 => h x (by simp only [Addr] at *; omega) (by simp only [Addr] at *; omega))]
  · show ∀ a : Addr, _ → m.readBig a n = m'.readBig a n
    induction n with
    | zero => intros; rfl
    | succ n ih =>
      intro a h
      rw [readBig, readBig, h (a + n) (by simp only [Addr] at *; omega) (by simp only [Addr] at *; omega),
        ih a (fun x h1 h2 => h x h1 (by simp only [Addr] at *; omega))]

/-- A word read after a word write elsewhere. -/
theorem readWord_writeWord_disjoint (m : Memory) (e : Endian) (n : Nat) {a x : Addr} (v : Word)
    (h : x + n ≤ a ∨ a + n ≤ x) : (m.writeWord e n a v).readWord e n x = m.readWord e n x :=
  readWord_congr e n x (fun y h1 h2 => read_writeWord_out m e n v (by simp only [Addr] at *; omega))

/-- A word read after a byte write elsewhere. -/
theorem readWord_write_disjoint (m : Memory) (e : Endian) (n : Nat) {a x : Addr} (b : Byte)
    (h : a < x ∨ x + n ≤ a) : (m.write a b).readWord e n x = m.readWord e n x :=
  readWord_congr e n x (fun y h1 h2 => read_write_ne m b (by simp only [Addr] at *; omega))

/-- A word just written reads back, cut to its `n` bytes. -/
theorem readWord_writeWord_same (m : Memory) (e : Endian) (n : Nat) : ∀ (a : Addr) (v : Word),
    (m.writeWord e n a v).readWord e n a = v % 256 ^ n := by
  cases e
  · show ∀ (a : Addr) (v : Word), (m.writeLittle a n v).readLittle a n = v % 256 ^ n
    induction n with
    | zero => intros; simp [readLittle, Nat.mod_one]
    | succ n ih =>
      intro a v
      have h1 : ((m.writeLittle (a + 1) n (v / 256)).write a (BitVec.ofNat 8 v)).readLittle (a + 1) n
          = (m.writeLittle (a + 1) n (v / 256)).readLittle (a + 1) n :=
        readWord_write_disjoint _ .little n _ (.inl (by simp only [Addr] at *; omega))
      rw [writeLittle, readLittle, h1, ih, read_write_same, BitVec.toNat_ofNat, Nat.pow_succ' (n := n), Nat.mod_mul]
  · show ∀ (a : Addr) (v : Word), (m.writeBig a n v).readBig a n = v % 256 ^ n
    induction n with
    | zero => intros; simp [readBig, Nat.mod_one]
    | succ n ih =>
      intro a v
      have h1 : ((m.writeBig a n (v / 256)).write (a + n) (BitVec.ofNat 8 v)).readBig a n
          = (m.writeBig a n (v / 256)).readBig a n :=
        readWord_write_disjoint _ .big n _ (.inr (Nat.le_refl _))
      rw [writeBig, readBig, h1, ih, read_write_same, BitVec.toNat_ofNat, Nat.pow_succ' (n := n), Nat.mod_mul]
      exact Nat.add_comm _ _

/-- A word is below `256^n`. -/
theorem readWord_lt (m : Memory) (e : Endian) (n : Nat) : ∀ a : Addr, m.readWord e n a < 256 ^ n := by
  cases e
  · show ∀ a : Addr, m.readLittle a n < 256 ^ n
    induction n with
    | zero => intro a; simp [readLittle]
    | succ n ih =>
      intro a
      have h1 := ih (a + 1)
      have h2 := (m.read a).isLt
      rw [readLittle, Nat.pow_succ']
      simp only [Addr, Word] at *
      omega
  · show ∀ a : Addr, m.readBig a n < 256 ^ n
    induction n with
    | zero => intro a; simp [readBig]
    | succ n ih =>
      intro a
      have h1 := ih a
      have h2 := (m.read (a + n)).isLt
      rw [readBig, Nat.pow_succ']
      simp only [Addr, Word] at *
      omega

/-- A word write keeps the canonical form. -/
theorem wf_writeWord {m : Memory} (h : m.wf) (e : Endian) (n : Nat) : ∀ (a : Addr) (v : Word),
    (m.writeWord e n a v).wf := by
  cases e
  · show ∀ (a : Addr) (v : Word), (m.writeLittle a n v).wf
    induction n with
    | zero => intros; exact h
    | succ n ih => intro a v; exact wf_write (ih _ _) _ _
  · show ∀ (a : Addr) (v : Word), (m.writeBig a n v).wf
    induction n with
    | zero => intros; exact h
    | succ n ih => intro a v; exact wf_write (ih _ _) _ _

/-- A word write lists no address but the old ones and those of its bytes. -/
theorem mem_writeWord {m : Memory} (e : Endian) (n : Nat) : ∀ (a : Addr) (v : Word) (c : Host.Cell),
    c ∈ m.writeWord e n a v → (a ≤ c.1 ∧ c.1 < a + n) ∨ c ∈ m := by
  cases e
  · show ∀ (a : Addr) (v : Word) (c : Host.Cell), c ∈ m.writeLittle a n v → _
    induction n with
    | zero => intro _ _ _ h; exact .inr h
    | succ n ih =>
      intro a v c h
      rcases mem_write h with he | h
      · left; simp only [Addr] at *; omega
      · rcases ih _ _ _ h with hh | hh
        · left; simp only [Addr] at *; omega
        · exact .inr hh
  · show ∀ (a : Addr) (v : Word) (c : Host.Cell), c ∈ m.writeBig a n v → _
    induction n with
    | zero => intro _ _ _ h; exact .inr h
    | succ n ih =>
      intro a v c h
      rcases mem_write h with he | h
      · left; simp only [Addr] at *; omega
      · rcases ih _ _ _ h with hh | hh
        · left; simp only [Addr] at *; omega
        · exact .inr hh

end Sys2Proof.Machine.Memory
end

