-- ==== Sys2Proof/Laws/Ring.lean ====
section
/-! SUPPORT. Closed forms and bounds of the ring arithmetic (40_ring_engine.md), for cursors in range. -/

namespace Sys2Proof.Machine

theorem ringFree_of_lt {r w size : Nat} (hr : r < size) (h : w < r) : ringFree r w size = r - w - 1 := by
  unfold ringFree
  rw [Int.emod_eq_of_lt (by omega) (by omega)]
  omega

theorem ringFree_of_le {r w size : Nat} (hw : w < size) (h : r ≤ w) : ringFree r w size = size - 1 - (w - r) := by
  unfold ringFree
  rw [← Int.add_emod_right, Int.emod_eq_of_lt (by omega) (by omega)]
  omega

theorem ringAvailable_of_le {w r size : Nat} (hw : w < size) (h : r ≤ w) : ringAvailable w r size = w - r := by
  unfold ringAvailable
  rw [Int.emod_eq_of_lt (by omega) (by omega)]
  omega

theorem ringAvailable_of_lt {w r size : Nat} (hr : r < size) (h : w < r) :
    ringAvailable w r size = size - (r - w) := by
  unfold ringAvailable
  rw [← Int.add_emod_right, Int.emod_eq_of_lt (by omega) (by omega)]
  omega

theorem ringAdvance_of_lt {x n size : Nat} (h : x + n < size) : ringAdvance x n size = x + n := Nat.mod_eq_of_lt h

theorem ringAdvance_of_ge {x n size : Nat} (h1 : size ≤ x + n) (h2 : x + n < 2 * size) :
    ringAdvance x n size = x + n - size := by
  unfold ringAdvance
  rw [Nat.mod_eq_sub_mod h1, Nat.mod_eq_of_lt (by omega)]

/-- The closed forms as one case split, for `omega` to finish from. -/
theorem ringFree_cases {r w size : Nat} (hr : r < size) (hw : w < size) :
    (w < r ∧ ringFree r w size = r - w - 1) ∨ (r ≤ w ∧ ringFree r w size = size - 1 - (w - r)) := by
  rcases Nat.lt_or_ge w r with h | h
  · exact .inl ⟨h, ringFree_of_lt hr h⟩
  · exact .inr ⟨h, ringFree_of_le hw h⟩

theorem ringAvailable_cases {w r size : Nat} (hw : w < size) (hr : r < size) :
    (r ≤ w ∧ ringAvailable w r size = w - r) ∨ (w < r ∧ ringAvailable w r size = size - (r - w)) := by
  rcases Nat.lt_or_ge w r with h | h
  · exact .inr ⟨h, ringAvailable_of_lt hr h⟩
  · exact .inl ⟨h, ringAvailable_of_le hw h⟩

theorem ringAdvance_cases {x n size : Nat} (hx : x < size) (hn : n ≤ size) :
    (x + n < size ∧ ringAdvance x n size = x + n) ∨ (size ≤ x + n ∧ ringAdvance x n size = x + n - size) := by
  rcases Nat.lt_or_ge (x + n) size with h | h
  · exact .inl ⟨h, ringAdvance_of_lt h⟩
  · exact .inr ⟨h, ringAdvance_of_ge h (by omega)⟩

theorem ringAdvance_lt {x n size : Nat} (h : 0 < size) : ringAdvance x n size < size := Nat.mod_lt _ h

theorem chunkOffset_lt {x k size : Nat} (h : 0 < size) : chunkOffset x k size < size := Nat.mod_lt _ h

theorem ringFree_lt {r w size : Nat} (hr : r < size) (hw : w < size) : ringFree r w size < size := by
  rcases ringFree_cases hr hw with ⟨_, h⟩ | ⟨_, h⟩ <;> omega

theorem ringAvailable_lt {w r size : Nat} (hw : w < size) (hr : r < size) : ringAvailable w r size < size := by
  rcases ringAvailable_cases hw hr with ⟨_, h⟩ | ⟨_, h⟩ <;> omega

/-- Distinct bytes of a chunk shorter than the buffer lie at distinct offsets. -/
theorem chunkOffset_inj {x i j size : Nat} (hi : i < size) (hj : j < size)
    (h : chunkOffset x i size = chunkOffset x j size) : i = j := by
  have h' : i ≡ j [MOD size] := Nat.ModEq.add_left_cancel' x h
  have := Nat.mod_eq_of_lt hi
  have := Nat.mod_eq_of_lt hj
  unfold Nat.ModEq at h'
  omega

theorem chunk_le_free (m : Mode) (f rem : Nat) : chunk m f rem ≤ f := by
  cases m <;> simp only [chunk] <;> [split; skip; skip] <;> omega

theorem chunk_le_rem (m : Mode) (f rem : Nat) : chunk m f rem ≤ rem := by
  cases m <;> simp only [chunk] <;> [split; skip; skip] <;> omega

end Sys2Proof.Machine
end

