-- ==== Sys2Proof/Laws/State.lean ====
section
/-! SUPPORT. The small lemmas of `State`: one for each field a named update leaves alone, what an update does to the field it
changes, and how ports read back. With these no later proof unfolds a record update. -/

namespace Sys2Proof.Machine.State

/-! ### `putByte` -/

@[simp] theorem putByte_cfg (s : State) (a : Addr) (b : Byte) : (s.putByte a b).cfg = s.cfg := rfl
@[simp] theorem putByte_ports (s : State) (a : Addr) (b : Byte) : (s.putByte a b).ports = s.ports := rfl
@[simp] theorem putByte_faults (s : State) (a : Addr) (b : Byte) : (s.putByte a b).faults = s.faults := rfl
@[simp] theorem putByte_booted (s : State) (a : Addr) (b : Byte) : (s.putByte a b).booted = s.booted := rfl
@[simp] theorem putByte_bootPos (s : State) (a : Addr) (b : Byte) : (s.putByte a b).bootPos = s.bootPos := rfl
@[simp] theorem putByte_active (s : State) (a : Addr) (b : Byte) : (s.putByte a b).active = s.active := rfl
@[simp] theorem putByte_pick (s : State) (a : Addr) (b : Byte) : (s.putByte a b).pick = s.pick := rfl
@[simp] theorem putByte_schedule (s : State) (a : Addr) (b : Byte) : (s.putByte a b).schedule = s.schedule := rfl

/-! ### `putWord` -/

@[simp] theorem putWord_cfg (s : State) (a : Addr) (v : Word) : (s.putWord a v).cfg = s.cfg := rfl
@[simp] theorem putWord_ports (s : State) (a : Addr) (v : Word) : (s.putWord a v).ports = s.ports := rfl
@[simp] theorem putWord_faults (s : State) (a : Addr) (v : Word) : (s.putWord a v).faults = s.faults := rfl
@[simp] theorem putWord_booted (s : State) (a : Addr) (v : Word) : (s.putWord a v).booted = s.booted := rfl
@[simp] theorem putWord_bootPos (s : State) (a : Addr) (v : Word) : (s.putWord a v).bootPos = s.bootPos := rfl
@[simp] theorem putWord_active (s : State) (a : Addr) (v : Word) : (s.putWord a v).active = s.active := rfl
@[simp] theorem putWord_pick (s : State) (a : Addr) (v : Word) : (s.putWord a v).pick = s.pick := rfl
@[simp] theorem putWord_schedule (s : State) (a : Addr) (v : Word) : (s.putWord a v).schedule = s.schedule := rfl

/-! ### `setCur` -/

@[simp] theorem setCur_cfg (s : State) (q : Port) : (s.setCur q).cfg = s.cfg := rfl
@[simp] theorem setCur_mem (s : State) (q : Port) : (s.setCur q).mem = s.mem := rfl
@[simp] theorem setCur_faults (s : State) (q : Port) : (s.setCur q).faults = s.faults := rfl
@[simp] theorem setCur_booted (s : State) (q : Port) : (s.setCur q).booted = s.booted := rfl
@[simp] theorem setCur_bootPos (s : State) (q : Port) : (s.setCur q).bootPos = s.bootPos := rfl
@[simp] theorem setCur_active (s : State) (q : Port) : (s.setCur q).active = s.active := rfl
@[simp] theorem setCur_pick (s : State) (q : Port) : (s.setCur q).pick = s.pick := rfl
@[simp] theorem setCur_schedule (s : State) (q : Port) : (s.setCur q).schedule = s.schedule := rfl

/-! ### `goOn` -/

@[simp] theorem goOn_cfg (s : State) (c : InFlight) : (s.goOn c).cfg = s.cfg := rfl
@[simp] theorem goOn_mem (s : State) (c : InFlight) : (s.goOn c).mem = s.mem := rfl
@[simp] theorem goOn_faults (s : State) (c : InFlight) : (s.goOn c).faults = s.faults := rfl
@[simp] theorem goOn_booted (s : State) (c : InFlight) : (s.goOn c).booted = s.booted := rfl
@[simp] theorem goOn_bootPos (s : State) (c : InFlight) : (s.goOn c).bootPos = s.bootPos := rfl
@[simp] theorem goOn_active (s : State) (c : InFlight) : (s.goOn c).active = s.active := rfl
@[simp] theorem goOn_pick (s : State) (c : InFlight) : (s.goOn c).pick = s.pick := rfl
@[simp] theorem goOn_schedule (s : State) (c : InFlight) : (s.goOn c).schedule = s.schedule := rfl

/-! ### `complete` -/

@[simp] theorem complete_cfg (s : State) (n : Word) : (s.complete n).cfg = s.cfg := rfl
@[simp] theorem complete_mem (s : State) (n : Word) : (s.complete n).mem = s.mem := rfl
@[simp] theorem complete_faults (s : State) (n : Word) : (s.complete n).faults = s.faults := rfl
@[simp] theorem complete_booted (s : State) (n : Word) : (s.complete n).booted = s.booted := rfl
@[simp] theorem complete_bootPos (s : State) (n : Word) : (s.complete n).bootPos = s.bootPos := rfl
@[simp] theorem complete_active (s : State) (n : Word) : (s.complete n).active = s.active := rfl
@[simp] theorem complete_pick (s : State) (n : Word) : (s.complete n).pick = s.pick := rfl
@[simp] theorem complete_schedule (s : State) (n : Word) : (s.complete n).schedule = s.schedule := rfl

/-! ### `raise` -/

@[simp] theorem raise_cfg (s : State) (code : FaultCode) (ch : Nat) : (s.raise code ch).cfg = s.cfg := rfl
@[simp] theorem raise_mem (s : State) (code : FaultCode) (ch : Nat) : (s.raise code ch).mem = s.mem := rfl
@[simp] theorem raise_booted (s : State) (code : FaultCode) (ch : Nat) : (s.raise code ch).booted = s.booted := rfl
@[simp] theorem raise_bootPos (s : State) (code : FaultCode) (ch : Nat) : (s.raise code ch).bootPos = s.bootPos := rfl
@[simp] theorem raise_active (s : State) (code : FaultCode) (ch : Nat) : (s.raise code ch).active = s.active := rfl
@[simp] theorem raise_pick (s : State) (code : FaultCode) (ch : Nat) : (s.raise code ch).pick = s.pick := rfl
@[simp] theorem raise_schedule (s : State) (code : FaultCode) (ch : Nat) : (s.raise code ch).schedule = s.schedule := rfl

/-! ### `present` -/

@[simp] theorem present_cfg (s : State) (r : Request) (rest : List Request) : (s.present r rest).cfg = s.cfg := rfl
@[simp] theorem present_mem (s : State) (r : Request) (rest : List Request) : (s.present r rest).mem = s.mem := rfl
@[simp] theorem present_faults (s : State) (r : Request) (rest : List Request) : (s.present r rest).faults = s.faults := rfl
@[simp] theorem present_booted (s : State) (r : Request) (rest : List Request) : (s.present r rest).booted = s.booted := rfl
@[simp] theorem present_bootPos (s : State) (r : Request) (rest : List Request) : (s.present r rest).bootPos = s.bootPos := rfl
@[simp] theorem present_active (s : State) (r : Request) (rest : List Request) : (s.present r rest).active = s.active := rfl
@[simp] theorem present_pick (s : State) (r : Request) (rest : List Request) : (s.present r rest).pick = s.pick := rfl
@[simp] theorem present_schedule (s : State) (r : Request) (rest : List Request) : (s.present r rest).schedule = s.schedule := rfl

/-! ### What an update changes -/

@[simp] theorem putByte_mem (s : State) (a : Addr) (b : Byte) : (s.putByte a b).mem = s.mem.write a b := rfl
@[simp] theorem putWord_mem (s : State) (a : Addr) (v : Word) :
    (s.putWord a v).mem = s.mem.writeWord s.cfg.endian s.cfg.W a v := rfl
@[simp] theorem setCur_ports (s : State) (q : Port) : (s.setCur q).ports = s.ports.set s.active q := rfl
@[simp] theorem goOn_ports (s : State) (c : InFlight) :
    (s.goOn c).ports = s.ports.set s.active { s.cur with state := .busy c } := rfl
@[simp] theorem complete_ports (s : State) (n : Word) :
    (s.complete n).ports = s.ports.set s.active { s.cur with state := .idle, result := n } := rfl
@[simp] theorem raise_ports (s : State) (code : FaultCode) (ch : Nat) :
    (s.raise code ch).ports = s.ports.set s.active { s.cur with state := .faulted } := rfl
@[simp] theorem raise_faults (s : State) (code : FaultCode) (ch : Nat) :
    (s.raise code ch).faults = s.faults ++ [{ code := code, port := s.active, ch := ch }] := rfl
@[simp] theorem present_ports (s : State) (r : Request) (rest : List Request) :
    (s.present r rest).ports = s.ports.set s.active
      { s.cur with cmd := r.cmd, addr := r.addr % s.cfg.space, len := r.len % s.cfg.space, queue := rest } := rfl

/-! ### Ports -/

theorem port_eq_getElem (s : State) {p : Nat} (h : p < s.ports.length) : s.port p = s.ports[p] := by
  simp [port, List.getD_eq_getElem?_getD, h]

theorem port_absent (s : State) {p : Nat} (h : s.ports.length ≤ p) : s.port p = Port.absent := by
  simp [port, List.getD_eq_getElem?_getD, h]

/-- A port that is not FAULTED exists. -/
theorem lt_of_port_state (s : State) {p : Nat} (h : (s.port p).state ≠ .faulted) : p < s.ports.length := by
  by_contra hp
  exact h (by rw [port_absent s (Nat.le_of_not_lt hp)]; rfl)

theorem port_mem (s : State) {p : Nat} (h : p < s.ports.length) : s.port p ∈ s.ports := by
  rw [port_eq_getElem s h]; exact List.getElem_mem h

/-- Every port of the list is some `port p`. -/
theorem exists_port_of_mem (s : State) {q : Port} (h : q ∈ s.ports) : ∃ p, p < s.ports.length ∧ s.port p = q := by
  obtain ⟨p, hp, rfl⟩ := List.getElem_of_mem h
  exact ⟨p, hp, port_eq_getElem s hp⟩

/-- Two states with the same port list have the same ports. -/
theorem port_congr {s t : State} (h : s.ports = t.ports) (p : Nat) : s.port p = t.port p := by
  simp [port, h]

@[simp] theorem port_putByte (s : State) (a : Addr) (b : Byte) (p : Nat) : (s.putByte a b).port p = s.port p := rfl
@[simp] theorem port_putWord (s : State) (a : Addr) (v : Word) (p : Nat) : (s.putWord a v).port p = s.port p := rfl
@[simp] theorem cur_putByte (s : State) (a : Addr) (b : Byte) : (s.putByte a b).cur = s.cur := rfl
@[simp] theorem cur_putWord (s : State) (a : Addr) (v : Word) : (s.putWord a v).cur = s.cur := rfl

theorem port_setCur (s : State) (q : Port) (p : Nat) :
    (s.setCur q).port p = if p = s.active ∧ p < s.ports.length then q else s.port p := by
  by_cases hp : p < s.ports.length <;> by_cases he : p = s.active
  · subst he; simp [port, setCur, List.getD_eq_getElem?_getD, hp]
  · simp [port, setCur, List.getD_eq_getElem?_getD, hp, he, List.getElem_set_ne (Ne.symm he)]
  · subst he; simp [port, setCur, List.getD_eq_getElem?_getD, hp]
  · simp [port, setCur, List.getD_eq_getElem?_getD, hp, he]

/-- Replacing the current port leaves every other port alone. -/
theorem port_setCur_ne (s : State) (q : Port) {p : Nat} (h : p ≠ s.active) : (s.setCur q).port p = s.port p := by
  rw [port_setCur, if_neg (fun hc => h hc.1)]

/-- Replacing the current port, if it exists, makes it that port. -/
theorem cur_setCur (s : State) (q : Port) (h : s.active < s.ports.length) : (s.setCur q).cur = q := by
  show (s.setCur q).port s.active = q
  rw [port_setCur, if_pos ⟨rfl, h⟩]

theorem goOn_eq (s : State) (c : InFlight) : s.goOn c = s.setCur { s.cur with state := .busy c } := rfl
theorem complete_eq (s : State) (n : Word) : s.complete n = s.setCur { s.cur with state := .idle, result := n } := rfl

theorem port_goOn_ne (s : State) (c : InFlight) {p : Nat} (h : p ≠ s.active) : (s.goOn c).port p = s.port p :=
  port_setCur_ne s _ h
theorem port_complete_ne (s : State) (n : Word) {p : Nat} (h : p ≠ s.active) : (s.complete n).port p = s.port p :=
  port_setCur_ne s _ h
theorem port_raise_ne (s : State) (code : FaultCode) (ch : Nat) {p : Nat} (h : p ≠ s.active) :
    (s.raise code ch).port p = s.port p := port_setCur_ne s _ h
theorem port_present_ne (s : State) (r : Request) (rest : List Request) {p : Nat} (h : p ≠ s.active) :
    (s.present r rest).port p = s.port p := port_setCur_ne s _ h

theorem cur_goOn (s : State) (c : InFlight) (h : s.active < s.ports.length) :
    (s.goOn c).cur = { s.cur with state := .busy c } := cur_setCur s _ h
theorem cur_complete (s : State) (n : Word) (h : s.active < s.ports.length) :
    (s.complete n).cur = { s.cur with state := .idle, result := n } := cur_setCur s _ h
theorem cur_raise (s : State) (code : FaultCode) (ch : Nat) (h : s.active < s.ports.length) :
    (s.raise code ch).cur = { s.cur with state := .faulted } := cur_setCur s _ h
theorem cur_present (s : State) (r : Request) (rest : List Request) (h : s.active < s.ports.length) :
    (s.present r rest).cur =
      { s.cur with cmd := r.cmd, addr := r.addr % s.cfg.space, len := r.len % s.cfg.space, queue := rest } :=
  cur_setCur s _ h

/-- The current port exists when it is IDLE. -/
theorem active_lt_of_idle {s : State} (h : s.cur.state = .idle) : s.active < s.ports.length :=
  lt_of_port_state s (p := s.active) (by show s.cur.state ≠ _; rw [h]; simp)

/-- The current port exists when it is BUSY. -/
theorem active_lt_of_busy {s : State} {c : InFlight} (h : s.cur.state = .busy c) : s.active < s.ports.length :=
  lt_of_port_state s (p := s.active) (by show s.cur.state ≠ _; rw [h]; simp)

/-! ### Reads see only memory and the configuration -/

theorem wordAt_congr {s t : State} (hm : t.mem = s.mem) (hc : t.cfg = s.cfg) (a : Addr) : t.wordAt a = s.wordAt a := by
  simp [wordAt, hm, hc]

theorem byteAt_congr {s t : State} (hm : t.mem = s.mem) (a : Addr) : t.byteAt a = s.byteAt a := by
  simp [byteAt, hm]

@[simp] theorem wordAt_setCur (s : State) (q : Port) (a : Addr) : (s.setCur q).wordAt a = s.wordAt a := rfl
@[simp] theorem byteAt_setCur (s : State) (q : Port) (a : Addr) : (s.setCur q).byteAt a = s.byteAt a := rfl
@[simp] theorem wordAt_goOn (s : State) (c : InFlight) (a : Addr) : (s.goOn c).wordAt a = s.wordAt a := rfl
@[simp] theorem byteAt_goOn (s : State) (c : InFlight) (a : Addr) : (s.goOn c).byteAt a = s.byteAt a := rfl
@[simp] theorem wordAt_complete (s : State) (n : Word) (a : Addr) : (s.complete n).wordAt a = s.wordAt a := rfl
@[simp] theorem byteAt_complete (s : State) (n : Word) (a : Addr) : (s.complete n).byteAt a = s.byteAt a := rfl
@[simp] theorem wordAt_raise (s : State) (code : FaultCode) (ch : Nat) (a : Addr) : (s.raise code ch).wordAt a = s.wordAt a := rfl
@[simp] theorem byteAt_raise (s : State) (code : FaultCode) (ch : Nat) (a : Addr) : (s.raise code ch).byteAt a = s.byteAt a := rfl
@[simp] theorem wordAt_present (s : State) (r : Request) (rest : List Request) (a : Addr) : (s.present r rest).wordAt a = s.wordAt a := rfl
@[simp] theorem byteAt_present (s : State) (r : Request) (rest : List Request) (a : Addr) : (s.present r rest).byteAt a = s.byteAt a := rfl

end Sys2Proof.Machine.State
end

