-- ==== Sys2Proof/Laws/Ops.lean ====
section
/-! SUPPORT. What each shared operation can do: for the four accesses, the equation inside the address space and the
inversion of a next state; for the port operations, what they leave. The proofs about instructions cite these. -/

namespace Sys2Proof.Machine.State

/-! ### Accesses -/

theorem load_eq {s : State} {a : Addr} (h : a + s.cfg.W ≤ s.cfg.space) (go : Word → Out) :
    s.load a go = go (s.wordAt a) := if_pos h
theorem loadByte_eq {s : State} {a : Addr} (h : a < s.cfg.space) (go : Byte → Out) :
    s.loadByte a go = go (s.byteAt a) := if_pos h
theorem store_eq {s : State} {a : Addr} (h : a + s.cfg.W ≤ s.cfg.space) (v : Word) (go : State → Out) :
    s.store a v go = go (s.putWord a v) := if_pos h
theorem storeByte_eq {s : State} {a : Addr} (h : a < s.cfg.space) (b : Byte) (go : State → Out) :
    s.storeByte a b go = go (s.putByte a b) := if_pos h

theorem load_next {s t : State} {a : Addr} {go : Word → Out} (h : s.load a go = .next t) :
    a + s.cfg.W ≤ s.cfg.space ∧ go (s.wordAt a) = .next t := by
  unfold load at h
  split at h
  · exact ⟨‹_›, h⟩
  · cases h

theorem loadByte_next {s t : State} {a : Addr} {go : Byte → Out} (h : s.loadByte a go = .next t) :
    a < s.cfg.space ∧ go (s.byteAt a) = .next t := by
  unfold loadByte at h
  split at h
  · exact ⟨‹_›, h⟩
  · cases h

theorem store_next {s t : State} {a : Addr} {v : Word} {go : State → Out} (h : s.store a v go = .next t) :
    a + s.cfg.W ≤ s.cfg.space ∧ go (s.putWord a v) = .next t := by
  unfold store at h
  split at h
  · exact ⟨‹_›, h⟩
  · cases h

theorem storeByte_next {s t : State} {a : Addr} {b : Byte} {go : State → Out} (h : s.storeByte a b go = .next t) :
    a < s.cfg.space ∧ go (s.putByte a b) = .next t := by
  unfold storeByte at h
  split at h
  · exact ⟨‹_›, h⟩
  · cases h

/-! ### Words and bytes after a store -/

theorem space_eq (c : Config) : c.space = 256 ^ c.W := by
  unfold Config.space Config.AW
  rw [Nat.pow_mul]

theorem wordAt_lt (s : State) (a : Addr) : s.wordAt a < s.cfg.space := by
  rw [space_eq]; exact Memory.readWord_lt ..

theorem wordAt_putWord_same (s : State) (a : Addr) (v : Word) : (s.putWord a v).wordAt a = v % s.cfg.space := by
  rw [space_eq]; exact Memory.readWord_writeWord_same ..

theorem wordAt_putWord_disjoint (s : State) {a x : Addr} (v : Word) (h : x + s.cfg.W ≤ a ∨ a + s.cfg.W ≤ x) :
    (s.putWord a v).wordAt x = s.wordAt x := Memory.readWord_writeWord_disjoint _ _ _ _ h

theorem byteAt_putWord_out (s : State) {a x : Addr} (v : Word) (h : x < a ∨ a + s.cfg.W ≤ x) :
    (s.putWord a v).byteAt x = s.byteAt x := Memory.read_writeWord_out _ _ _ _ h

theorem wordAt_putByte_disjoint (s : State) {a x : Addr} (b : Byte) (h : a < x ∨ x + s.cfg.W ≤ a) :
    (s.putByte a b).wordAt x = s.wordAt x := Memory.readWord_write_disjoint _ _ _ _ h

@[simp] theorem byteAt_putByte_same (s : State) (a : Addr) (b : Byte) : (s.putByte a b).byteAt a = b :=
  Memory.read_write_same ..

theorem byteAt_putByte_ne (s : State) {a x : Addr} (b : Byte) (h : x ≠ a) : (s.putByte a b).byteAt x = s.byteAt x :=
  Memory.read_write_ne _ _ h

/-! ### Races -/

/-- The race test finds exactly the other ports that latch the channel. -/
theorem otherLatches_iff (s : State) (dir : Dir) (ch : Nat) :
    s.otherLatches dir ch = true ↔
      ∃ p c, p ≠ s.active ∧ (s.port p).state = .busy c ∧ c.channel = (dir, ch) := by
  unfold otherLatches
  simp only [List.any_eq_true, List.mem_range, Bool.and_eq_true, bne_iff_ne]
  constructor
  · rintro ⟨p, _, hne, hl⟩
    unfold Port.latches at hl
    cases hs : (s.port p).state with
    | idle => rw [hs] at hl; cases hl
    | faulted => rw [hs] at hl; cases hl
    | busy c => rw [hs] at hl; exact ⟨p, c, hne, hs, beq_iff_eq.1 hl⟩
  · rintro ⟨p, c, hne, hs, hc⟩
    refine ⟨p, lt_of_port_state s (by rw [hs]; simp), hne, ?_⟩
    unfold Port.latches
    rw [hs]
    simpa using hc

end Sys2Proof.Machine.State

namespace Sys2Proof.Machine

/-- The byte a copy step picks is a pending one. -/
theorem pickPending_mem {pending : List Nat} (h : pending ≠ []) (pick : Nat) : pickPending pending pick ∈ pending := by
  have hl : pick % pending.length < pending.length := Nat.mod_lt _ (List.length_pos_iff.2 h)
  unfold pickPending
  rw [List.getD_eq_getElem?_getD, List.getElem?_eq_getElem hl]
  exact List.getElem_mem hl

/-- Every pending byte can be the picked one. -/
theorem exists_pick {pending : List Nat} {k : Nat} (h : k ∈ pending) : ∃ pick, pickPending pending pick = k := by
  obtain ⟨i, hi, rfl⟩ := List.getElem_of_mem h
  refine ⟨i, ?_⟩
  unfold pickPending
  rw [Nat.mod_eq_of_lt hi, List.getD_eq_getElem?_getD, List.getElem?_eq_getElem hi]
  rfl

end Sys2Proof.Machine
end

