-- ==== Sys2Proof/Laws/Meanings.lean ====
section
/-! SUPPORT. Inversion: for each phase of each command, everything a step of it that answers a next state can have done. Later
proofs cite these and do not unfold the meanings. -/

namespace Sys2Proof.Machine

/-- The latches UP_WRITE sets at issue (41_write.md R121). -/
abbrev State.writeLatch (s : State) (ch : Nat) (mode : Mode) : WriteLatch :=
  { ch := ch, d := s.descUp ch, size := s.wordAt (s.sizeField (s.descUp ch)),
    buf := s.wordAt (s.bufferField (s.descUp ch)), cur := s.wordAt (s.writeOffsetField (s.descUp ch)), mode := mode,
    addr := s.cur.addr, len := s.cur.len, done := 0, n := 0, pending := [] }

/-- The latches DOWN_READ sets at issue (42_read.md R151). -/
abbrev State.readLatch (s : State) (ch : Nat) : ReadLatch :=
  { ch := ch, d := s.descDown ch, size := s.wordAt (s.sizeField (s.descDown ch)),
    buf := s.wordAt (s.bufferField (s.descDown ch)), cur := s.wordAt (s.readOffsetField (s.descDown ch)),
    addr := s.cur.addr, len := s.cur.len, n := 0, pending := [] }

/-- An issue step of UP_WRITE faults, or every check passed and it latches. -/
theorem issueWrite_next {ch : Nat} {s t : State} (h : issueWrite ch s = .next t) :
    (∃ code, t = s.raise code ch) ∨
    ∃ mode, ch < s.upCount ∧ s.otherLatches .up ch = false ∧ s.wordAt (s.sizeField (s.descUp ch)) ≠ 0 ∧
      s.wordAt (s.bufferField (s.descUp ch)) + s.wordAt (s.sizeField (s.descUp ch)) ≤ s.cfg.space ∧
      s.wordAt (s.writeOffsetField (s.descUp ch)) < s.wordAt (s.sizeField (s.descUp ch)) ∧
      flagsMode (s.wordAt (s.flagsField (s.descUp ch))) = some mode ∧ s.cur.addr + s.cur.len ≤ s.cfg.space ∧
      s.payloadOverlaps = false ∧ t = s.goOn (.write .sample (s.writeLatch ch mode)) := by
  unfold issueWrite at h
  obtain ⟨-, h⟩ := State.load_next h
  split at h
  · cases h; exact .inl ⟨_, rfl⟩
  split at h
  · cases h; exact .inl ⟨_, rfl⟩
  obtain ⟨-, h⟩ := State.load_next h
  split at h
  · cases h; exact .inl ⟨_, rfl⟩
  obtain ⟨-, h⟩ := State.load_next h
  split at h
  · cases h; exact .inl ⟨_, rfl⟩
  obtain ⟨-, h⟩ := State.load_next h
  split at h
  · cases h; exact .inl ⟨_, rfl⟩
  obtain ⟨-, h⟩ := State.load_next h
  split at h
  · cases h; exact .inl ⟨_, rfl⟩
  split at h
  · cases h; exact .inl ⟨_, rfl⟩
  split at h
  · cases h; exact .inl ⟨_, rfl⟩
  cases h
  refine .inr ⟨_, ?_, ?_, ?_, ?_, ?_, ?_, ?_, ?_, rfl⟩
  · exact Nat.lt_of_not_le ‹_›
  · simpa using ‹¬ s.otherLatches .up ch = true›
  · assumption
  · exact Nat.le_of_not_lt ‹_›
  · exact Nat.lt_of_not_le ‹_›
  · assumption
  · exact Nat.le_of_not_lt ‹_›
  · simpa using ‹¬ s.payloadOverlaps = true›

/-- A sample step of UP_WRITE faults on the peer cursor, sizes a chunk, holds, or completes. -/
theorem writeSample_next {l : WriteLatch} {s t : State} (h : writeSample l s = .next t) :
    (l.size ≤ s.wordAt (s.readOffsetField l.d) ∧ t = s.raise .cursorRange l.ch) ∨
    (s.wordAt (s.readOffsetField l.d) < l.size ∧
      ∃ n, n = chunk l.mode (ringFree (s.wordAt (s.readOffsetField l.d)) l.cur l.size) (l.len - l.done) ∧
      ((0 < n ∧ t = s.goOn (.write .copy { l with n := n, pending := List.range n })) ∨
       (n = 0 ∧ l.mode = .block ∧ 0 < l.len - l.done ∧ t = s) ∨
       (n = 0 ∧ ¬ (l.mode = .block ∧ 0 < l.len - l.done) ∧ t = s.complete l.done))) := by
  unfold writeSample at h
  obtain ⟨-, h⟩ := State.load_next h
  split at h
  · cases h; exact .inl ⟨‹_›, rfl⟩
  refine .inr ⟨Nat.lt_of_not_le ‹_›, _, rfl, ?_⟩
  dsimp only at h
  split at h
  · cases h; exact .inl ⟨‹_›, rfl⟩
  split at h
  · cases h
    exact .inr (.inl ⟨by omega, (‹_ ∧ _› : _ ∧ _).1, (‹_ ∧ _› : _ ∧ _).2, rfl⟩)
  · cases h; exact .inr (.inr ⟨by omega, ‹_›, rfl⟩)

/-- A copy step of UP_WRITE copies one pending byte of the payload to its place in the buffer. -/
theorem writeCopy_next {l : WriteLatch} {s t : State} (h : writeCopy l s = .next t) :
    (l.pending = [] ∧ t = s) ∨
    ∃ k, k ∈ l.pending ∧ k = pickPending l.pending s.pick ∧ writeTarget l k < s.cfg.space ∧
      t = (s.putByte (writeTarget l k) (s.byteAt (l.addr + l.done + k))).goOn
        (.write (if l.pending.erase k = [] then .publish else .copy) { l with pending := l.pending.erase k }) := by
  unfold writeCopy at h
  split at h
  · cases h; exact .inl ⟨‹_›, rfl⟩
  dsimp only at h
  obtain ⟨-, h⟩ := State.loadByte_next h
  obtain ⟨hs, h⟩ := State.storeByte_next h
  cases h
  exact .inr ⟨_, pickPending_mem ‹_› _, rfl, hs, rfl⟩

/-- A publish step of UP_WRITE stores the own cursor, then makes another pass or completes. -/
theorem writePublish_next {l : WriteLatch} {s t : State} (h : writePublish l s = .next t) :
    s.writeOffsetField l.d + s.cfg.W ≤ s.cfg.space ∧
    ∃ u, u = s.putWord (s.writeOffsetField l.d) (ringAdvance l.cur l.n l.size) ∧
    ((l.mode = .block ∧ l.done + l.n < l.len ∧
        t = u.goOn (.write .sample { l with cur := ringAdvance l.cur l.n l.size, done := l.done + l.n })) ∨
     (¬ (l.mode = .block ∧ l.done + l.n < l.len) ∧ t = u.complete (l.done + l.n))) := by
  unfold writePublish at h
  dsimp only at h
  obtain ⟨hs, h⟩ := State.store_next h
  refine ⟨hs, _, rfl, ?_⟩
  split at h
  · cases h; exact .inl ⟨(‹_ ∧ _› : _ ∧ _).1, (‹_ ∧ _› : _ ∧ _).2, rfl⟩
  · cases h; exact .inr ⟨‹_›, rfl⟩

/-- An issue step of DOWN_READ faults, or every check passed and it latches. -/
theorem issueRead_next {ch : Nat} {s t : State} (h : issueRead ch s = .next t) :
    (∃ code, t = s.raise code ch) ∨
    (ch < s.downCount ∧ s.otherLatches .down ch = false ∧ s.wordAt (s.sizeField (s.descDown ch)) ≠ 0 ∧
      s.wordAt (s.bufferField (s.descDown ch)) + s.wordAt (s.sizeField (s.descDown ch)) ≤ s.cfg.space ∧
      s.wordAt (s.readOffsetField (s.descDown ch)) < s.wordAt (s.sizeField (s.descDown ch)) ∧
      s.cur.addr + s.cur.len ≤ s.cfg.space ∧ s.payloadOverlaps = false ∧
      t = s.goOn (.read .sample (s.readLatch ch))) := by
  unfold issueRead at h
  obtain ⟨-, h⟩ := State.load_next h
  split at h
  · cases h; exact .inl ⟨_, rfl⟩
  split at h
  · cases h; exact .inl ⟨_, rfl⟩
  obtain ⟨-, h⟩ := State.load_next h
  dsimp only at h
  obtain ⟨-, h⟩ := State.load_next h
  split at h
  · cases h; exact .inl ⟨_, rfl⟩
  obtain ⟨-, h⟩ := State.load_next h
  split at h
  · cases h; exact .inl ⟨_, rfl⟩
  obtain ⟨-, h⟩ := State.load_next h
  split at h
  · cases h; exact .inl ⟨_, rfl⟩
  split at h
  · cases h; exact .inl ⟨_, rfl⟩
  split at h
  · cases h; exact .inl ⟨_, rfl⟩
  cases h
  refine .inr ⟨?_, ?_, ?_, ?_, ?_, ?_, ?_, rfl⟩
  · exact Nat.lt_of_not_le ‹_›
  · simpa using ‹¬ s.otherLatches .down ch = true›
  · assumption
  · exact Nat.le_of_not_lt ‹_›
  · exact Nat.lt_of_not_le ‹_›
  · exact Nat.le_of_not_lt ‹_›
  · simpa using ‹¬ s.payloadOverlaps = true›

/-- A sample step of DOWN_READ faults on the peer cursor, sizes the chunk, or completes with 0. -/
theorem readSample_next {l : ReadLatch} {s t : State} (h : readSample l s = .next t) :
    (l.size ≤ s.wordAt (s.writeOffsetField l.d) ∧ t = s.raise .cursorRange l.ch) ∨
    (s.wordAt (s.writeOffsetField l.d) < l.size ∧
      ∃ n, n = min (ringAvailable (s.wordAt (s.writeOffsetField l.d)) l.cur l.size) l.len ∧
      ((n = 0 ∧ t = s.complete 0) ∨
       (0 < n ∧ t = s.goOn (.read .copy { l with n := n, pending := List.range n })))) := by
  unfold readSample at h
  obtain ⟨-, h⟩ := State.load_next h
  split at h
  · cases h; exact .inl ⟨‹_›, rfl⟩
  refine .inr ⟨Nat.lt_of_not_le ‹_›, _, rfl, ?_⟩
  dsimp only at h
  split at h
  · cases h; exact .inl ⟨‹_›, rfl⟩
  · cases h; exact .inr ⟨by omega, rfl⟩

/-- A copy step of DOWN_READ copies one pending byte of the buffer to its place in the output region. -/
theorem readCopy_next {l : ReadLatch} {s t : State} (h : readCopy l s = .next t) :
    (l.pending = [] ∧ t = s) ∨
    ∃ k, k ∈ l.pending ∧ k = pickPending l.pending s.pick ∧ l.addr + k < s.cfg.space ∧
      t = (s.putByte (l.addr + k) (s.byteAt (readSource l k))).goOn
        (.read (if l.pending.erase k = [] then .publish else .copy) { l with pending := l.pending.erase k }) := by
  unfold readCopy at h
  split at h
  · cases h; exact .inl ⟨‹_›, rfl⟩
  dsimp only at h
  obtain ⟨-, h⟩ := State.loadByte_next h
  obtain ⟨hs, h⟩ := State.storeByte_next h
  cases h
  exact .inr ⟨_, pickPending_mem ‹_› _, rfl, hs, rfl⟩

/-- The publish step of DOWN_READ stores the own cursor and completes. -/
theorem readPublish_next {l : ReadLatch} {s t : State} (h : readPublish l s = .next t) :
    s.readOffsetField l.d + s.cfg.W ≤ s.cfg.space ∧
    t = (s.putWord (s.readOffsetField l.d) (ringAdvance l.cur l.n l.size)).complete l.n := by
  unfold readPublish at h
  obtain ⟨hs, h⟩ := State.store_next h
  cases h
  exact ⟨hs, rfl⟩

/-- UP_GET_MODE on an IDLE port faults or completes with the mode. -/
theorem execUpGetMode_next {ch : Nat} {s t : State} (hi : s.cur.state = .idle) (h : execUpGetMode ch s = .next t) :
    (∃ code, t = s.raise code ch) ∨
    ∃ m, ch < s.upCount ∧ flagsMode (s.wordAt (s.flagsField (s.descUp ch))) = some m ∧ t = s.complete m.encoding := by
  unfold execUpGetMode at h
  rw [hi] at h
  obtain ⟨-, h⟩ := State.load_next h
  split at h
  · cases h; exact .inl ⟨_, rfl⟩
  obtain ⟨-, h⟩ := State.load_next h
  split at h
  · cases h; exact .inl ⟨_, rfl⟩
  · cases h; exact .inr ⟨_, Nat.lt_of_not_le ‹_›, ‹_›, rfl⟩

/-- UP_SET_MODE on an IDLE port faults, or stores the flags word and completes with 0. -/
theorem execUpSetMode_next {ch : Nat} {mode : Mode} {s t : State} (hi : s.cur.state = .idle)
    (h : execUpSetMode ch mode s = .next t) :
    (∃ code, t = s.raise code ch) ∨
    (ch < s.upCount ∧ s.otherLatches .up ch = false ∧
      s.flagsField (s.descUp ch) + s.cfg.W ≤ s.cfg.space ∧
      t = (s.putWord (s.flagsField (s.descUp ch))
        (setFlagsMode (s.wordAt (s.flagsField (s.descUp ch))) mode)).complete 0) := by
  unfold execUpSetMode at h
  rw [hi] at h
  obtain ⟨-, h⟩ := State.load_next h
  split at h
  · cases h; exact .inl ⟨_, rfl⟩
  split at h
  · cases h; exact .inl ⟨_, rfl⟩
  obtain ⟨-, h⟩ := State.load_next h
  obtain ⟨hs, h⟩ := State.store_next h
  cases h
  exact .inr ⟨Nat.lt_of_not_le ‹_›, by simpa using ‹¬ s.otherLatches .up ch = true›, hs, rfl⟩

/-! ### The arms -/

theorem exec_upWrite (ch : Nat) (s : State) : exec (.upWrite ch) s = execUpWrite ch s := rfl
theorem exec_downRead (ch : Nat) (s : State) : exec (.downRead ch) s = execDownRead ch s := rfl
theorem exec_upGetMode (ch : Nat) (s : State) : exec (.upGetMode ch) s = execUpGetMode ch s := rfl
theorem exec_upSetMode (ch : Nat) (m : Mode) (s : State) : exec (.upSetMode ch m) s = execUpSetMode ch m s := rfl

/-! A port with a command in flight goes on by its phase. -/

theorem exec_write_sample {l : WriteLatch} {s : State} (h : s.cur.state = .busy (.write .sample l)) (ch : Nat) :
    exec (.upWrite ch) s = writeSample l s := by simp only [exec, execUpWrite, h]
theorem exec_write_copy {l : WriteLatch} {s : State} (h : s.cur.state = .busy (.write .copy l)) (ch : Nat) :
    exec (.upWrite ch) s = writeCopy l s := by simp only [exec, execUpWrite, h]
theorem exec_write_publish {l : WriteLatch} {s : State} (h : s.cur.state = .busy (.write .publish l)) (ch : Nat) :
    exec (.upWrite ch) s = writePublish l s := by simp only [exec, execUpWrite, h]
theorem exec_read_sample {l : ReadLatch} {s : State} (h : s.cur.state = .busy (.read .sample l)) (ch : Nat) :
    exec (.downRead ch) s = readSample l s := by simp only [exec, execDownRead, h]
theorem exec_read_copy {l : ReadLatch} {s : State} (h : s.cur.state = .busy (.read .copy l)) (ch : Nat) :
    exec (.downRead ch) s = readCopy l s := by simp only [exec, execDownRead, h]
theorem exec_read_publish {l : ReadLatch} {s : State} (h : s.cur.state = .busy (.read .publish l)) (ch : Nat) :
    exec (.downRead ch) s = readPublish l s := by simp only [exec, execDownRead, h]

/-! ### The step -/

/-- A step that answers a next state: the configuration is well formed, and nothing is scheduled or the next move ran. -/
theorem step_next {s t : State} (h : step s = .next t) :
    s.cfg.wf = true ∧ ((s.schedule = [] ∧ t = s) ∨
      ∃ mv rest, s.schedule = mv :: rest ∧ runMove mv { s with schedule := rest } = .next t) := by
  unfold step at h
  split at h
  · refine ⟨‹_›, ?_⟩
    split at h
    · cases h; exact .inl ⟨‹_›, rfl⟩
    · exact .inr ⟨_, _, ‹_›, h⟩
  · cases h

theorem step_eq {s : State} {mv : Move} {rest : List Move} (hc : s.cfg.wf = true) (hs : s.schedule = mv :: rest) :
    step s = runMove mv { s with schedule := rest } := by
  unfold step
  rw [if_pos hc, hs]

/-! What a port's step is, by its state. -/

theorem portStep_issue {s : State} {r : Request} {rest : List Request} (hi : s.cur.state = .idle) (hb : s.booted = true)
    (hq : s.cur.queue = r :: rest) : portStep s = issueMove r rest s := by
  unfold portStep
  simp only [hi, hb, hq, if_true]

theorem portStep_unbooted {s : State} (hi : s.cur.state = .idle) (hb : s.booted = false) : portStep s = .next s := by
  unfold portStep
  simp [hi, hb]

theorem portStep_noRequest {s : State} (hi : s.cur.state = .idle) (hq : s.cur.queue = []) : portStep s = .next s := by
  unfold portStep
  simp [hi, hq]

theorem portStep_busy {s : State} {c : InFlight} (hi : s.cur.state = .busy c) : portStep s = exec c.instr s := by
  unfold portStep
  simp only [hi]

theorem portStep_faulted {s : State} (hi : s.cur.state = .faulted) : portStep s = .next s := by
  unfold portStep
  simp only [hi]

/-- A port's step that answers a next state: it had no step, it issued a command or faulted on an illegal word, or its
command in flight went on. -/
theorem portStep_next {u t : State} (h : portStep u = .next t) :
    (t = u ∧ ((u.cur.state = .idle ∧ (u.booted = false ∨ u.cur.queue = [])) ∨ u.cur.state = .faulted)) ∨
    (∃ r rest i, u.booted = true ∧ u.cur.state = .idle ∧ u.cur.queue = r :: rest ∧ decodeWord r.cmd = .ok i ∧
      exec i (u.present r rest) = .next t) ∨
    (∃ r rest e, u.booted = true ∧ u.cur.state = .idle ∧ u.cur.queue = r :: rest ∧ decodeWord r.cmd = .error e ∧
      t = (u.present r rest).raise .illegalCmd (cmdCh r.cmd).toNat) ∨
    (∃ c, u.cur.state = .busy c ∧ exec c.instr u = .next t) := by
  unfold portStep at h
  split at h
  · rename_i hst
    split at h
    · rename_i hb
      split at h
      · cases h; exact .inl ⟨rfl, .inl ⟨hst, .inr ‹_›⟩⟩
      · rename_i r rest hq
        unfold issueMove at h
        split at h
        · exact .inr (.inl ⟨r, rest, _, hb, hst, hq, ‹_›, h⟩)
        · cases h; exact .inr (.inr (.inl ⟨r, rest, _, hb, hst, hq, ‹_›, rfl⟩))
    · rename_i hb
      cases h; exact .inl ⟨rfl, .inl ⟨hst, .inl (by simpa using hb)⟩⟩
  · exact .inr (.inr (.inr ⟨_, ‹_›, h⟩))
  · cases h; exact .inl ⟨rfl, .inr ‹_›⟩

end Sys2Proof.Machine
end

