-- ==== Sys2Proof/Laws/Agents.lean ====
section
/-! SUPPORT. What a move of the host, of a requester, of the boot agent and of reset can do, each said once. -/

namespace Sys2Proof.Machine

open State

/-- `H_UP_CONSUME` is no step, or its one word store with everything its rule asks for. -/
theorem hostUpConsume_cases (c k : Nat) (s : State) :
    hostUpConsume c k s = s ∨ ∃ ch, s.cfg.up[c]? = some ch ∧ s.signaturePresent = true ∧
      s.descUp c + 6 * s.cfg.W ≤ s.cfg.space ∧ s.wordAt (s.readOffsetField (s.descUp c)) < ch.size ∧
      s.wordAt (s.writeOffsetField (s.descUp c)) < ch.size ∧
      k ≤ ringAvailable (s.wordAt (s.writeOffsetField (s.descUp c))) (s.wordAt (s.readOffsetField (s.descUp c))) ch.size ∧
      hostUpConsume c k s = s.putWord (s.readOffsetField (s.descUp c))
        (ringAdvance (s.wordAt (s.readOffsetField (s.descUp c))) k ch.size) := by
  unfold hostUpConsume
  split
  · exact .inl rfl
  · rename_i ch hch
    dsimp only
    split
    · rename_i h
      have h1 := h.1
      simp only [hostReaches, Bool.and_eq_true, decide_eq_true_eq] at h1
      exact .inr ⟨ch, hch, h1.1, h1.2, h.2.1, h.2.2.1, h.2.2.2, rfl⟩
    · exact .inl rfl

/-- `H_DOWN_DATA` is no step, or its one byte store with everything its rule asks for. -/
theorem hostDownData_cases (c j : Nat) (b : Byte) (s : State) :
    hostDownData c j b s = s ∨ ∃ ch, s.cfg.down[c]? = some ch ∧ s.upCount = s.cfg.nup ∧
      s.signaturePresent = true ∧
      s.wordAt (s.readOffsetField (s.descDown c)) < ch.size ∧ s.wordAt (s.writeOffsetField (s.descDown c)) < ch.size ∧
      j < ringFree (s.wordAt (s.readOffsetField (s.descDown c))) (s.wordAt (s.writeOffsetField (s.descDown c))) ch.size ∧
      hostDownData c j b s =
        s.putByte (ch.buf + chunkOffset (s.wordAt (s.writeOffsetField (s.descDown c))) j ch.size) b := by
  unfold hostDownData
  split
  · exact .inl rfl
  · rename_i ch hch
    dsimp only
    split
    · rename_i h
      have hu := h.1
      have h1 := h.2.1
      simp only [headerMatches, decide_eq_true_eq] at hu
      simp only [hostReaches, Bool.and_eq_true, decide_eq_true_eq] at h1
      exact .inr ⟨ch, hch, hu, h1.1, h.2.2.1, h.2.2.2.1, h.2.2.2.2, rfl⟩
    · exact .inl rfl

/-- `H_DOWN_PUBLISH` is no step, or its one word store with everything its rule asks for. -/
theorem hostDownPublish_cases (c k : Nat) (s : State) :
    hostDownPublish c k s = s ∨ ∃ ch, s.cfg.down[c]? = some ch ∧ s.upCount = s.cfg.nup ∧
      s.signaturePresent = true ∧
      s.descDown c + 6 * s.cfg.W ≤ s.cfg.space ∧ s.wordAt (s.readOffsetField (s.descDown c)) < ch.size ∧
      s.wordAt (s.writeOffsetField (s.descDown c)) < ch.size ∧
      k ≤ ringFree (s.wordAt (s.readOffsetField (s.descDown c))) (s.wordAt (s.writeOffsetField (s.descDown c))) ch.size ∧
      hostDownPublish c k s = s.putWord (s.writeOffsetField (s.descDown c))
        (ringAdvance (s.wordAt (s.writeOffsetField (s.descDown c))) k ch.size) := by
  unfold hostDownPublish
  split
  · exact .inl rfl
  · rename_i ch hch
    dsimp only
    split
    · rename_i h
      have hu := h.1
      have h1 := h.2.1
      simp only [headerMatches, decide_eq_true_eq] at hu
      simp only [hostReaches, Bool.and_eq_true, decide_eq_true_eq] at h1
      exact .inr ⟨ch, hch, hu, h1.1, h1.2, h.2.2.1, h.2.2.2.1, h.2.2.2.2, rfl⟩
    · exact .inl rfl

/-- A requester's move is no step, or one byte store outside every region of the block. -/
theorem requesterMove_cases (p : Nat) (a : Addr) (b : Byte) (s : State) :
    requesterMove p a b s = s ∨ (a < s.cfg.space ∧ p < s.ports.length ∧ (∀ c, (s.port p).state ≠ .busy c) ∧
      s.cfg.regions.any (fun r => Config.Region.meets (a, 1) r) = false ∧ requesterMove p a b s = s.putByte a b) := by
  unfold requesterMove
  split
  · rename_i h
    split
    · exact .inl rfl
    · rename_i hi; exact .inr ⟨h.1, h.2.2, by simp [hi], h.2.1, rfl⟩
    · rename_i hi; exact .inr ⟨h.1, h.2.2, by simp [hi], h.2.1, rfl⟩
  · exact .inl rfl

/-- A boot move does nothing once booted, makes the next store of the boot sequence, or ends it. -/
theorem bootMove_cases (s : State) :
    (s.booted = true ∧ bootMove s = s) ∨
    (∃ st, s.booted = false ∧ (bootStores s.cfg)[s.bootPos]? = some st ∧
      bootMove s = { s with mem := st.apply s.cfg s.mem, bootPos := s.bootPos + 1 }) ∨
    (s.booted = false ∧ (bootStores s.cfg).length ≤ s.bootPos ∧ bootMove s = { s with booted := true }) := by
  unfold bootMove
  split
  · exact .inl ⟨‹_›, rfl⟩
  · rename_i hb
    split
    · exact .inr (.inl ⟨_, by simpa using hb, ‹_›, rfl⟩)
    · exact .inr (.inr ⟨by simpa using hb, List.getElem?_eq_none_iff.1 ‹_›, rfl⟩)

/-- The channel a command names is the CH field of its word. -/
theorem decodeWord_ch {w : CmdWord} {i : Instr} (h : decodeWord w = .ok i) : i.ch = (cmdCh w).toNat := by
  unfold decodeWord at h
  split at h; · cases h
  split at h; · cases h
  split at h
  · split at h <;> cases h; rfl
  split at h; · cases h
  split at h
  · cases h; rfl
  split at h <;> cases h <;> rfl

/-- A decoded command is well formed. -/
theorem decodeWord_wf {w : CmdWord} {i : Instr} (h : decodeWord w = .ok i) : i.ch < 256 := by
  rw [decodeWord_ch h]; exact (cmdCh w).isLt

/-- The store lies inside the control block. -/
def BootStore.Inside (c : Config) (st : BootStore) : Prop :=
  match st with | .byte a _ => a < c.cbBase + c.cbSize | .word a _ => a + c.W ≤ c.cbBase + c.cbSize

/-- Every store of the boot sequence lies inside the control block. -/
theorem boot_store_inside {c : Config} {st : BootStore} (h : st ∈ bootStores c) :
    st.Inside c := by
  have hup : ∀ (l : List UpChannel) (i : Nat), i + l.length ≤ c.nup + c.ndown → ∀ st ∈ bootUp c i l,
    st.Inside c := by
    intro l
    induction l with
    | nil => intro i _ st h; cases h
    | cons ch rest ih =>
      intro i hi st h
      have hin := Config.descAddr_inside (c := c) (i := i) (by simp at hi; omega)
      simp only [bootUp, bootChannel, List.mem_append, List.mem_cons, List.not_mem_nil, or_false] at h
      rcases h with ((rfl | rfl | rfl) | rfl) | h
      · simp only [BootStore.Inside, Addr] at *; omega
      · simp only [BootStore.Inside, Addr] at *; omega
      · simp only [BootStore.Inside, Addr] at *; omega
      · simp only [BootStore.Inside, Addr] at *; omega
      · exact ih (i+1) (by simp at hi; omega) st h
  have hdn : ∀ (l : List Channel) (i : Nat), i + l.length ≤ c.nup + c.ndown → ∀ st ∈ bootDown c i l,
    st.Inside c := by
    intro l
    induction l with
    | nil => intro i _ st h; cases h
    | cons ch rest ih =>
      intro i hi st h
      have hin := Config.descAddr_inside (c := c) (i := i) (by simp at hi; omega)
      simp only [bootDown, bootChannel, List.mem_append, List.mem_cons, List.not_mem_nil, or_false] at h
      rcases h with (rfl | rfl | rfl) | h
      · simp only [BootStore.Inside, Addr] at *; omega
      · simp only [BootStore.Inside, Addr] at *; omega
      · simp only [BootStore.Inside, Addr] at *; omega
      · exact ih (i+1) (by simp at hi; omega) st h
  have hsg : ∀ (l : List Byte) (a : Nat), ∀ st ∈ bootSignature a l, (match st with | .byte x _ => a ≤ x ∧ x < a + l.length | .word _ _ => False) := by
    intro l
    induction l with
    | nil => intro a st h; cases h
    | cons b rest ih =>
      intro a st h
      simp only [bootSignature, List.mem_cons] at h
      rcases h with rfl | h
      · simp
      · have := ih (a+1) st h
        cases st with
        | byte x y => simp only [List.length_cons, Addr] at *; omega
        | word x y => exact this
  simp only [bootStores, List.mem_append] at h
  rcases h with (((h | h) | h) | h) | h
  · simp only [bootZeros, List.mem_map, List.mem_range] at h
    obtain ⟨k, hk, rfl⟩ := h
    simp only [BootStore.Inside, Addr] at *; omega
  · simp only [bootCounts, List.mem_cons, List.not_mem_nil, or_false] at h
    rcases h with rfl | rfl <;> simp only [BootStore.Inside, Config.upCountAddr, Config.downCountAddr, Config.cbSize, Addr] at * <;> omega
  · exact hup _ 0 (by simp [Config.nup]) st h
  · exact hdn _ _ (by simp [Config.ndown]) st h
  · have := hsg _ _ st h
    cases st with
    | byte x y => simp only [BootStore.Inside, Config.cbSize, Config.sigLen, Addr] at *; omega
    | word x y => exact this.elim

/-- Each port after reset is some port, reset. -/
theorem resetPorts_get (sp : Nat) : ∀ (qs : List Port) (vs : List PortRegs) (p : Nat) (hp : p <
    (resetPorts sp qs vs).length),
   ∃ q v, q ∈ qs ∧ (resetPorts sp qs vs)[p] = q.afterReset sp v := by
  intro qs
  induction qs with
  | nil => intro vs p hp; simp [resetPorts] at hp
  | cons q qs ih =>
    intro vs p hp
    cases vs with
    | nil =>
      cases p with
      | zero => exact ⟨q, _, List.mem_cons_self .., rfl⟩
      | succ p =>
        obtain ⟨q', v, h1, h2⟩ := ih [] p (by simpa [resetPorts] using hp)
        exact ⟨q', v, List.mem_cons_of_mem _ h1, by simpa [resetPorts] using h2⟩
    | cons v vs =>
      cases p with
      | zero => exact ⟨q, v, List.mem_cons_self .., rfl⟩
      | succ p =>
        obtain ⟨q', v, h1, h2⟩ := ih vs p (by simpa [resetPorts] using hp)
        exact ⟨q', v, List.mem_cons_of_mem _ h1, by simpa [resetPorts] using h2⟩

/-- Reset keeps the number of ports. -/
theorem resetPorts_length (sp : Nat) : ∀ (qs : List Port) (vs : List PortRegs),
    (resetPorts sp qs vs).length = qs.length := by
  intro qs
  induction qs with
  | nil => intro vs; rfl
  | cons q qs ih => intro vs; cases vs <;> simp [resetPorts, ih]

/-- A listed address of `ofCells` is one of the given addresses. -/
theorem mem_ofCells {cells : List Host.Cell} {c : Host.Cell} (h : c ∈ Memory.ofCells cells) :
    ∃ d ∈ cells, d.1 = c.1 := by
  have : ∀ (cs : List Host.Cell) (m : Memory), c ∈ cs.foldl (fun m c => m.write c.1 c.2) m → (∃ d ∈ cs, d.1 = c.1) ∨ c ∈ m := by
    intro cs
    induction cs with
    | nil => intro m h; exact .inr h
    | cons d rest ih =>
      intro m h
      rcases ih _ h with ⟨e, he, hh⟩ | h
      · exact .inl ⟨e, List.mem_cons_of_mem _ he, hh⟩
      · rcases Memory.mem_write h with h | h
        · exact .inl ⟨d, List.mem_cons_self .., h.symm⟩
        · exact .inr h
  rcases this cells [] h with h | h
  · exact h
  · cases h

end Sys2Proof.Machine
end

