-- ==== Sys2Proof/Laws/Fields.lean ====
section
/-! SUPPORT. The control block in memory: where its fields lie, that they are apart, what a store into one does to the
others, and that buffers and payload regions lie outside it. -/

namespace Sys2Proof.Machine

open State

/-- The address of field `j` (0 name, 1 buffer, 2 size, 3 write offset, 4 read offset, 5 flags) of descriptor slot `i`. -/
def fieldAddr (c : Config) (i j : Nat) : Nat := c.descAddr i + j * c.W

/-- Two different descriptor fields have no byte in common. -/
theorem fieldAddr_apart (c : Config) {i j i' j' : Nat} (hj : j < 6) (hj' : j' < 6) (h : ¬ (i' = i ∧ j' = j)) :
    fieldAddr c i j + c.W ≤ fieldAddr c i' j' ∨ fieldAddr c i' j' + c.W ≤ fieldAddr c i j := by
  have e1 : j * c.W + c.W ≤ 6 * c.W := by rw [← Nat.succ_mul]; exact Nat.mul_le_mul_right _ hj
  have e2 : j' * c.W + c.W ≤ 6 * c.W := by rw [← Nat.succ_mul]; exact Nat.mul_le_mul_right _ hj'
  unfold fieldAddr
  rcases Nat.lt_trichotomy i i' with hi | hi | hi
  · have := Config.descAddr_apart c hi
    simp only [Addr] at *; omega
  · subst hi
    have hne : j ≠ j' := fun he => h ⟨rfl, he.symm⟩
    rcases Nat.lt_or_gt_of_ne hne with hl | hl
    · have : j * c.W + c.W ≤ j' * c.W := by rw [← Nat.succ_mul]; exact Nat.mul_le_mul_right _ hl
      simp only [Addr] at *; omega
    · have : j' * c.W + c.W ≤ j * c.W := by rw [← Nat.succ_mul]; exact Nat.mul_le_mul_right _ hl
      simp only [Addr] at *; omega
  · have := Config.descAddr_apart c hi
    simp only [Addr] at *; omega

/-- A descriptor field lies inside the control block, after its header. -/
theorem fieldAddr_inside {c : Config} {i j : Nat} (hi : i < c.nup + c.ndown) (hj : j < 6) :
   c.cbBase + c.sigLen + 2 * c.W ≤ fieldAddr c i j ∧ fieldAddr c i j + c.W ≤ c.cbBase + c.cbSize := by
  have e1 : j * c.W + c.W ≤ 6 * c.W := by rw [← Nat.succ_mul]; exact Nat.mul_le_mul_right _ hj
  have h1 := Config.descAddr_inside hi
  have h2 := Config.header_before_desc c i
  unfold fieldAddr
  simp only [Addr] at *; omega

/-- Storing one descriptor field changes that field only. -/
theorem wordAt_putWord_fieldAddr (s : State) {i j i' j' : Nat} (hj : j < 6) (hj' : j' < 6) (v : Nat) :
   (s.putWord (fieldAddr s.cfg i j) v).wordAt (fieldAddr s.cfg i' j') = if i' = i ∧ j' = j then v % s.cfg.space else s.wordAt (fieldAddr s.cfg i' j') := by
  split
  · rename_i h; rw [h.1, h.2]; exact wordAt_putWord_same ..
  · rename_i h
    refine wordAt_putWord_disjoint s v ?_
    have := fieldAddr_apart s.cfg hj hj' h
    simp only [Addr] at *; omega

theorem nameField_eq (s : State) (i : Nat) : s.nameField
    (s.cfg.descAddr i) = fieldAddr s.cfg i 0 := by simp [nameField, fieldAddr]

theorem bufferField_eq (s : State) (i : Nat) : s.bufferField
    (s.cfg.descAddr i) = fieldAddr s.cfg i 1 := by simp [bufferField, fieldAddr]

theorem sizeField_eq (s : State) (i : Nat) : s.sizeField
    (s.cfg.descAddr i) = fieldAddr s.cfg i 2 := by simp [sizeField, fieldAddr]

theorem writeOffsetField_eq (s : State) (i : Nat) : s.writeOffsetField
    (s.cfg.descAddr i) = fieldAddr s.cfg i 3 := by simp [writeOffsetField, fieldAddr]

theorem readOffsetField_eq (s : State) (i : Nat) : s.readOffsetField
    (s.cfg.descAddr i) = fieldAddr s.cfg i 4 := by simp [readOffsetField, fieldAddr]

theorem flagsField_eq (s : State) (i : Nat) : s.flagsField
    (s.cfg.descAddr i) = fieldAddr s.cfg i 5 := by simp [flagsField, fieldAddr]

/-- The signature test looks at its own bytes only. -/
theorem holdsBytes_congr {m m' : Memory} : ∀ (l : List Byte) (a : Nat),
    (∀ x, a ≤ x → x < a + l.length → m'.read x = m.read x) → m'.holdsBytes a l = m.holdsBytes a l := by
  intro l
  induction l with
  | nil => intros; rfl
  | cons b rest ih =>
    intro a h
    simp only [Memory.holdsBytes]
    rw [h a (Nat.le_refl _) (by simp), ih (a+1) (fun x h1 h2 => h x (by omega) (by simp; omega))]

/-- An index with an element is within the list. -/
theorem lt_of_getElem? {α : Type} {l : List α} {i : Nat} {x : α} (h : l[i]? = some x) : i < l.length :=
    (List.getElem?_eq_some_iff.1 h).1

theorem channel_lt_up {c : Config} {i : Nat} {ch : UpChannel} (h : c.up[i]? = some ch) : i < c.nup + c.ndown := by
  have := lt_of_getElem? h; simp only [Config.nup]; omega

theorem channel_lt_down {c : Config} {i : Nat} {ch : Channel} (h : c.down[i]? = some ch) :
    c.nup + i < c.nup + c.ndown := by
  have := lt_of_getElem? h; simp only [Config.ndown]; omega

theorem size_lt_space_up {c : Config} (hw : c.wf = true) {i : Nat} {ch : UpChannel} (h : c.up[i]? = some ch) :
    ch.size < c.space :=
  (Config.channel_bounds (Config.channelOk_up hw (List.mem_of_getElem? h))).2.1

theorem size_lt_space_down {c : Config} (hw : c.wf = true) {i : Nat} {ch : Channel} (h :
    c.down[i]? = some ch) : ch.size < c.space :=
  (Config.channel_bounds (Config.channelOk_down hw (List.mem_of_getElem? h))).2.1

/-- The two states have the same configuration and the same control block bytes. -/
structure SameCb (s t : State) : Prop where
  cfg : t.cfg = s.cfg
  bytes : ∀ a, s.cfg.cbBase ≤ a → a < s.cfg.cbBase + s.cfg.cbSize → t.byteAt a = s.byteAt a

/-- A word of the control block is the same in both states. -/
theorem SameCb.word {s t : State} (h : SameCb s t) {a : Nat} (h1 : s.cfg.cbBase ≤ a) (h2 :
    a + s.cfg.W ≤ s.cfg.cbBase + s.cfg.cbSize) :
   t.wordAt a = s.wordAt a := by
  unfold wordAt
  rw [h.cfg]
  exact Memory.readWord_congr _ _ _ (fun x h3 h4 => h.bytes x (by simp only [Addr] at *; omega) (by simp only [Addr] at *; omega))

/-- A descriptor field is the same in both states. -/
theorem SameCb.field {s t : State} (h : SameCb s t) {i j : Nat} (hi : i < s.cfg.nup + s.cfg.ndown) (hj : j < 6) :
   t.wordAt (fieldAddr s.cfg i j) = s.wordAt (fieldAddr s.cfg i j) := by
  have := fieldAddr_inside hi hj
  refine h.word ?_ this.2
  have := this.1
  simp only [Addr] at *; omega

/-- The signature is present in both states or in neither. -/
theorem SameCb.sig {s t : State} (h : SameCb s t) : t.signaturePresent = s.signaturePresent := by
  unfold signaturePresent
  rw [h.cfg]
  refine holdsBytes_congr _ _ (fun x h1 h2 => h.bytes x h1 ?_)
  simp only [Config.cbSize, Config.sigLen, Addr] at *; omega

theorem SameCb.refl (s : State) : SameCb s s := ⟨rfl, fun _ _ _ => rfl⟩

/-- Equal memories have equal control blocks. -/
theorem SameCb.of_mem {s t : State} (hc : t.cfg = s.cfg) (hm : t.mem = s.mem) :
    SameCb s t := ⟨hc, fun a _ _ => byteAt_congr hm a⟩

theorem upCount_in (c : Config) : c.cbBase ≤ c.upCountAddr ∧ c.upCountAddr + c.W ≤ c.cbBase + c.cbSize := by
  simp only [Config.upCountAddr, Config.cbSize, Addr]; omega

theorem downCount_in (c : Config) : c.cbBase ≤ c.downCountAddr ∧ c.downCountAddr + c.W ≤ c.cbBase + c.cbSize := by
  simp only [Config.downCountAddr, Config.cbSize, Addr]; omega

/-- A byte store outside the control block leaves it as it is. -/
theorem sameCb_putByte {s : State} {a : Nat} (b : Byte) (ha :
    a < s.cfg.cbBase ∨ s.cfg.cbBase + s.cfg.cbSize ≤ a) : SameCb s (s.putByte a b) :=
  ⟨rfl, fun x h1 h2 => byteAt_putByte_ne s b (by intro he; subst he; simp only [Addr] at *; omega)⟩

/-- A store into a descriptor leaves the header as it is. -/
theorem putWord_header {s : State} {i j v : Nat} (hi : i < s.cfg.nup + s.cfg.ndown) (hj : j < 6) :
   (s.putWord (fieldAddr s.cfg i j) v).wordAt s.cfg.upCountAddr = s.wordAt s.cfg.upCountAddr ∧
   (s.putWord (fieldAddr s.cfg i j) v).wordAt s.cfg.downCountAddr = s.wordAt s.cfg.downCountAddr ∧
   (s.putWord (fieldAddr s.cfg i j) v).signaturePresent = s.signaturePresent := by
  have h := (fieldAddr_inside hi hj).1
  refine ⟨wordAt_putWord_disjoint s v (.inl ?_), wordAt_putWord_disjoint s v (.inl ?_), ?_⟩
  · simp only [Config.upCountAddr, Addr] at *; omega
  · simp only [Config.downCountAddr, Addr] at *; omega
  · unfold signaturePresent
    refine holdsBytes_congr _ _ (fun x h1 h2 => byteAt_putWord_out s v (.inl ?_))
    simp only [putWord_cfg, Config.sigLen, Addr] at *; omega

/-- A byte of a payload region that overlaps no region of the block lies outside each of them. -/
theorem apart_payload {s : State} {a len : Nat} (h : s.cfg.regions.any (fun r => Config.Region.meets
    (a, len) r) = false) {r : Config.Region} (hr : r ∈ s.cfg.regions) (hrp : 0 < r.2) {k : Nat} (hk : k < len) : a + k < r.1 ∨ r.1 + r.2 ≤ a + k := by
  have : Config.Region.meets (a, len) r = false := by
    have := List.any_eq_false.1 h r hr; simpa using this
  have := Config.Region.apart_of_meets this (show 0 < len by omega) hrp
  unfold Config.Region.Apart at this
  simp only [Addr] at *; omega

/-- A byte of a buffer lies outside the control block. -/
theorem buf_outside_cb {s : State} (hc : s.cfg.wf = true) {r : Config.Region} (hr : r ∈ s.cfg.bufRegions) {a :
    Nat} (h1 : r.1 ≤ a) (h2 : a < r.1 + r.2) :
   a < s.cfg.cbBase ∨ s.cfg.cbBase + s.cfg.cbSize ≤ a := by
  have := Config.cb_apart hc hr
  unfold Config.Region.Apart Config.cbRegion at this
  simp only [Addr] at *; omega

/-- A mode encoding fits two bits. -/
theorem mode_encoding_lt (m : Mode) : m.encoding < 4 := by cases m <;> decide

/-- Every mode encoding fits a word. -/
theorem space_ge4 (c : Config) (h : c.wf = true) : 4 < c.space := by
  rw [space_eq]; rcases Config.W_cases h with h | h <;> rw [h] <;> decide

/-- A flags word with its mode replaced still fits a word. -/
theorem setFlags_lt (c : Config) (hc : c.wf = true) {old : Nat} (h : old < c.space) (m : Mode) :
    setFlagsMode old m < c.space := by
  have : c.space % 4 = 0 := by
    rw [space_eq]; rcases Config.W_cases hc with h | h <;> rw [h] <;> decide
  have hm := mode_encoding_lt m
  unfold setFlagsMode
  simp only [Word] at *
  omega

/-- The mode that was put into a flags word is the mode it holds. -/
theorem flagsMode_set (old : Nat) (m : Mode) : flagsMode (setFlagsMode old m) = some m := by
  unfold flagsMode setFlagsMode modeBits
  rw [Nat.mul_add_mod]
  cases m <;> rfl

end Sys2Proof.Machine
end

