-- ==== Sys2Proof/Laws/Sound.lean ====
section
/-! SUPPORT. The shared operations keep the machine's invariant `State.Sound`. -/

namespace Sys2Proof.Machine

open State

/-- A port is BUSY only once booted. -/
theorem State.Sound.booted_of_busy {s : State} (hs : s.Sound) {p c} (h : (s.port p).state = .busy c) :
    s.booted = true := by
  by_contra hb
  have := hs.quietBeforeBoot (by simpa using hb) p (lt_of_port_state s (by rw [h]; simp))
  rw [h] at this; cases this

theorem sound_putByte {s : State} (hs : s.Sound) {a : Addr} (ha : a < s.cfg.space) (b : Byte) : (s.putByte a b).Sound :=
  { hs with
    memCanonical := Memory.wf_write hs.memCanonical a b
    memInside := by
      intro c hc
      rcases Memory.mem_write hc with h | h
      · simpa [h] using ha
      · exact hs.memInside c h }

theorem sound_putWord {s : State} (hs : s.Sound) {a : Addr} (ha : a + s.cfg.W ≤ s.cfg.space) (v : Word) :
    (s.putWord a v).Sound :=
  { hs with
    memCanonical := Memory.wf_writeWord hs.memCanonical _ _ _ _
    memInside := by
      intro c hc
      rcases Memory.mem_writeWord _ _ _ _ _ hc with h | h
      · simp only [putWord_cfg, Addr] at *; omega
      · exact hs.memInside c h }

theorem sound_bookkeeping {s : State} (hs : s.Sound) (a b : Nat) (c : List Move) : State.Sound
    { s with active := a, pick := b, schedule := c } :=
  { hs with }

/-- Replacing the current port by one that is in order keeps the machine sound. -/
theorem sound_setCur {s : State} (hs : s.Sound) (q : Port) (hl : s.active < s.ports.length)
    (hb : s.booted = true ∨ q.state = .idle)
    (hreg : q.addr < s.cfg.space ∧ q.len < s.cfg.space ∧ q.result < s.cfg.space)
    (hnf : q.state ≠ .faulted) (hcf : s.cur.state ≠ .faulted)
    (hbusy : ∀ c, q.state = .busy c → c.Ok s.cfg ∧ decodeWord q.cmd = .ok c.instr ∧ c.addr = q.addr ∧ c.len = q.len ∧
      ∀ p d, p ≠ s.active → (s.port p).state = .busy d → c.channel ≠ d.channel) :
    (s.setCur q).Sound := by
  have hp : ∀ p, (s.setCur q).port p = if p = s.active then q else s.port p := by
    intro p; rw [port_setCur]; by_cases h : p = s.active
    · subst h; simp [hl]
    · simp [h]
  have hlen : (s.setCur q).ports.length = s.ports.length := by simp
  constructor
  · exact hs.memCanonical
  · exact hs.memInside
  · rw [hlen]; exact hs.portCount
  · intro p; rw [hp]; split
    · exact hreg
    · exact hs.registersFit p
  · intro p c; rw [hp]; split
    · intro h; exact (hbusy c h).1
    · exact hs.latchesOk p c
  · intro p c; rw [hp]; split
    · intro h; exact ⟨(hbusy c h).2.1, (hbusy c h).2.2.1, (hbusy c h).2.2.2.1⟩
    · exact hs.registersKept p c
  · intro p p' c d; rw [hp, hp]
    by_cases h1 : p = s.active <;> by_cases h2 : p' = s.active
    · simp [h1, h2]
    · simp only [h1, h2, if_true, if_false]; intro hc hd he; exact absurd he ((hbusy c hc).2.2.2.2 p' d h2 hd)
    · simp only [h1, h2, if_true, if_false]; intro hc hd he; exact absurd he.symm ((hbusy d hd).2.2.2.2 p c h1 hc)
    · simp only [h1, h2, if_false]; exact hs.exclusive p p' c d
  · intro hb0 p hpl; rw [hp]; split
    · rcases hb with h | h
      · rw [setCur_booted] at hb0; rw [h] at hb0; cases hb0
      · exact h
    · exact hs.quietBeforeBoot hb0 p (by rwa [hlen] at hpl)
  · intro r hr
    have := hs.faultHalts r hr
    rw [hp, hlen]; split
    · rename_i h; rw [h] at this; exact absurd this.2 hcf
    · exact this
  · intro p hpl; rw [hp, hlen] at *; split
    · intro h; exact absurd h hnf
    · exact hs.haltsByFault p hpl
  · exact hs.bootWithin
  · exact hs.bootDone

theorem sound_goOn {s : State} (hs : s.Sound) (c : InFlight) (hl : s.active < s.ports.length) (hb : s.booted = true)
    (hcf : s.cur.state ≠ .faulted) (ho : c.Ok s.cfg) (hd : decodeWord s.cur.cmd = .ok c.instr) (ha : c.addr = s.cur.addr)
    (hn : c.len = s.cur.len) (he : ∀ p d, p ≠ s.active → (s.port p).state = .busy d → c.channel ≠ d.channel) :
    (s.goOn c).Sound := by
  rw [goOn_eq]
  refine sound_setCur hs _ hl (.inl hb) (hs.registersFit s.active) (by simp) hcf ?_
  intro c' hc'
  cases hc'
  exact ⟨ho, hd, ha, hn, he⟩

theorem sound_complete {s : State} (hs : s.Sound) (n : Nat) (hl : s.active < s.ports.length)
    (hcf : s.cur.state ≠ .faulted) (hn : n < s.cfg.space) : (s.complete n).Sound := by
  rw [complete_eq]
  refine sound_setCur hs _ hl (.inr rfl) ⟨(hs.registersFit s.active).1, (hs.registersFit s.active).2.1, hn⟩ (by simp) hcf ?_
  intro c' hc'
  cases hc'

theorem sound_present {s : State} (hs : s.Sound) (r rest) (hi : s.cur.state = .idle) : (s.present r rest).Sound := by
  unfold State.present
  refine sound_setCur hs _ (active_lt_of_idle hi) (.inr hi) ⟨Nat.mod_lt _ (Config.space_pos _), Nat.mod_lt _ (Config.space_pos _), (hs.registersFit s.active).2.2⟩ (by simp [hi]) (by simp [hi]) ?_
  intro c' hc'
  rw [show s.cur.state = .busy c' from hc'] at hi
  cases hi

theorem sound_raise {s : State} (hs : s.Sound) (code ch) (hl : s.active < s.ports.length) (hb :
    s.booted = true) : (s.raise code ch).Sound := by
  have hp : ∀ p, (s.raise code ch).port p = if p = s.active then { s.cur with state := .faulted } else s.port p := by
    intro p; show (s.setCur _).port p = _; rw [port_setCur]; by_cases h : p = s.active
    · subst h; simp [hl]
    · simp [h]
  have hlen : (s.raise code ch).ports.length = s.ports.length := by simp
  constructor
  · exact hs.memCanonical
  · exact hs.memInside
  · rw [hlen]; exact hs.portCount
  · intro p; rw [hp]; split
    · exact hs.registersFit s.active
    · exact hs.registersFit p
  · intro p c; rw [hp]; split
    · intro h; cases h
    · exact hs.latchesOk p c
  · intro p c; rw [hp]; split
    · intro h; cases h
    · exact hs.registersKept p c
  · intro p p' c d; rw [hp, hp]
    by_cases h1 : p = s.active <;> by_cases h2 : p' = s.active <;> simp only [h1, h2, if_true, if_false]
    · simp
    · intro h; cases h
    · intro _ h; cases h
    · exact hs.exclusive p p' c d
  · intro hb0; rw [raise_booted, hb] at hb0; cases hb0
  · intro r hr
    rw [hlen, hp]
    simp only [raise_faults, List.mem_append, List.mem_singleton] at hr
    rcases hr with hr | rfl
    · have := hs.faultHalts r hr
      split
      · exact ⟨this.1, rfl⟩
      · exact this
    · simp [hl]
  · intro p hpl; rw [hp, hlen] at *
    simp only [raise_faults, List.mem_append, List.mem_singleton]
    split
    · rename_i h; intro _; exact ⟨_, .inr rfl, h.symm⟩
    · intro h; obtain ⟨r, hr, he⟩ := hs.haltsByFault p hpl h; exact ⟨r, .inl hr, he⟩
  · exact hs.bootWithin
  · exact hs.bootDone

/-- What a passed race check says of the other ports. -/
theorem exclusive_of_otherLatches {s : State} {dir ch} (h : s.otherLatches dir ch = false) :
   ∀ p d, p ≠ s.active → (s.port p).state = .busy d → (dir, ch) ≠ d.channel := by
  intro p d hp hd he
  have : s.otherLatches dir ch = true := (otherLatches_iff s dir ch).2 ⟨p, d, hp, hd, he.symm⟩
  rw [h] at this; cases this

/-- A store of the boot sequence keeps the machine sound. -/
theorem sound_apply {s : State} (hc : s.cfg.wf = true) (hs : s.Sound) {st : BootStore} (h : st ∈ bootStores s.cfg) :
    State.Sound { s with mem := st.apply s.cfg s.mem } := by
  have hi := boot_store_inside h
  have hin := Config.cb_inside hc
  cases st with
  | byte a b => exact sound_putByte hs (Nat.lt_of_lt_of_le hi hin) b
  | word a v => exact sound_putWord hs (Nat.le_trans hi hin) v

/-- No other port has the current port's up channel in flight. -/
theorem others_up {s : State} (hs : s.Sound) {ph l} (hi : s.cur.state = .busy (.write ph l)) {p ph' l'} (hp :
    p ≠ s.active)
   (h : (s.port p).state = .busy (.write ph' l')) : l'.ch ≠ l.ch := by
  intro he
  exact hp (hs.exclusive p s.active _ _ h hi (by simp [InFlight.channel, he]))

/-- No other port has the current port's down channel in flight. -/
theorem others_down {s : State} (hs : s.Sound) {ph l} (hi : s.cur.state = .busy (.read ph l)) {p ph' l'} (hp :
    p ≠ s.active)
   (h : (s.port p).state = .busy (.read ph' l')) : l'.ch ≠ l.ch := by
  intro he
  exact hp (hs.exclusive p s.active _ _ h hi (by simp [InFlight.channel, he]))

end Sys2Proof.Machine
end

