-- ==== Sys2Proof/Laws/Channels.lean ====
section
/-! SUPPORT. The invariant of the channels, `State.Channels`, in two parts, and what the shared operations do to each. -/

namespace Sys2Proof.Machine

open State

/-- What the control block holds after boot, field by field: the part of `State.Channels` about memory. -/
structure BlockView (s : State) : Prop where
  upCount : s.wordAt s.cfg.upCountAddr = s.cfg.nup
  downCount : s.wordAt s.cfg.downCountAddr = s.cfg.ndown
  sig : s.signaturePresent = true
  up : ∀ c ch, s.cfg.up[c]? = some ch → s.wordAt (fieldAddr s.cfg c 0) = ch.name ∧ s.wordAt (fieldAddr s.cfg c 1) = ch.buf ∧ s.wordAt (fieldAddr s.cfg c 2) = ch.size ∧
      s.wordAt (fieldAddr s.cfg c 3) < ch.size ∧ s.wordAt (fieldAddr s.cfg c 4) < ch.size ∧ (flagsMode (s.wordAt (fieldAddr s.cfg c 5))).isSome
  down : ∀ c ch, s.cfg.down[c]? = some ch → s.wordAt (fieldAddr s.cfg (s.cfg.nup + c) 0) = ch.name ∧ s.wordAt (fieldAddr s.cfg (s.cfg.nup + c) 1) = ch.buf ∧ s.wordAt (fieldAddr s.cfg (s.cfg.nup + c) 2) = ch.size ∧
      s.wordAt (fieldAddr s.cfg (s.cfg.nup + c) 3) < ch.size ∧ s.wordAt (fieldAddr s.cfg (s.cfg.nup + c) 4) < ch.size ∧ s.wordAt (fieldAddr s.cfg (s.cfg.nup + c) 5) = 0

/-- What ties a port's command in flight to memory: the part of `State.Channels` about one port. -/
def Ties (s : State) (q : PortState) : Prop :=
  (∀ ph l, q = .busy (.write ph l) → ∃ ch, s.cfg.up[l.ch]? = some ch ∧ l.d = s.cfg.descAddr l.ch ∧ l.size = ch.size ∧ l.buf = ch.buf ∧
      l.cur = s.wordAt (fieldAddr s.cfg l.ch 3) ∧ (ph ≠ .sample → l.n ≤ ringFree (s.wordAt (fieldAddr s.cfg l.ch 4)) l.cur l.size)) ∧
  (∀ ph l, q = .busy (.read ph l) → ∃ ch, s.cfg.down[l.ch]? = some ch ∧ l.d = s.cfg.descAddr (s.cfg.nup + l.ch) ∧ l.size = ch.size ∧ l.buf = ch.buf ∧
      l.cur = s.wordAt (fieldAddr s.cfg (s.cfg.nup + l.ch) 4) ∧ (ph ≠ .sample → l.n ≤ ringAvailable (s.wordAt (fieldAddr s.cfg (s.cfg.nup + l.ch) 3)) l.cur l.size))

/-- `State.Channels` is its memory part and its part about each port. -/
theorem channels_iff (s : State) : s.Channels ↔ BlockView s ∧ ∀ p, Ties s (s.port p).state := by
  constructor
  · intro h
    have hd : ∀ c, s.descDown c = s.cfg.descAddr (s.cfg.nup + c) := fun c => by rw [descDown, h.upCount]
    refine ⟨⟨h.upCount, h.downCount, h.signature, ?_, ?_⟩, ?_⟩
    · intro c ch hc
      obtain ⟨h1, h2⟩ := h.up c ch hc
      rw [← nameField_eq, ← bufferField_eq, ← sizeField_eq, ← writeOffsetField_eq, ← readOffsetField_eq, ← flagsField_eq]
      exact ⟨h1.name, h1.buffer, h1.size, h1.writeInRange, h1.readInRange, h2⟩
    · intro c ch hc
      obtain ⟨h1, h2⟩ := h.down c ch hc
      rw [hd] at h1 h2
      rw [← nameField_eq, ← bufferField_eq, ← sizeField_eq, ← writeOffsetField_eq, ← readOffsetField_eq, ← flagsField_eq]
      exact ⟨h1.name, h1.buffer, h1.size, h1.writeInRange, h1.readInRange, h2⟩
    · intro p
      refine ⟨fun ph l hq => ?_, fun ph l hq => ?_⟩
      · obtain ⟨ch, h1, h2, h3, h4, h5, h6⟩ := h.writes p ph l hq
        have h2' : l.d = s.cfg.descAddr l.ch := h2
        unfold writeOffset readOffset at *
        rw [h2', writeOffsetField_eq] at h5; rw [h2', readOffsetField_eq] at h6
        exact ⟨ch, h1, h2, h3, h4, h5, h6⟩
      · obtain ⟨ch, h1, h2, h3, h4, h5, h6⟩ := h.reads p ph l hq
        unfold writeOffset readOffset at *
        rw [hd] at h2
        rw [h2, readOffsetField_eq] at h5; rw [h2, writeOffsetField_eq] at h6
        exact ⟨ch, h1, h2, h3, h4, h5, h6⟩
  · rintro ⟨hv, ht⟩
    have hd : ∀ c, s.descDown c = s.cfg.descAddr (s.cfg.nup + c) := fun c => by
      rw [descDown, show s.upCount = s.cfg.nup from hv.upCount]
    refine ⟨hv.upCount, hv.downCount, hv.sig, ?_, ?_, ?_, ?_⟩
    · intro c ch hc
      obtain ⟨h1, h2, h3, h4, h5, h6⟩ := hv.up c ch hc
      rw [descUp, flagsField_eq]
      refine ⟨⟨?_, ?_, ?_, ?_, ?_⟩, h6⟩
      · rw [nameField_eq]; exact h1
      · rw [bufferField_eq]; exact h2
      · rw [sizeField_eq]; exact h3
      · rw [writeOffset, writeOffsetField_eq]; exact h4
      · rw [readOffset, readOffsetField_eq]; exact h5
    · intro c ch hc
      obtain ⟨h1, h2, h3, h4, h5, h6⟩ := hv.down c ch hc
      rw [hd, flagsField_eq]
      refine ⟨⟨?_, ?_, ?_, ?_, ?_⟩, h6⟩
      · rw [nameField_eq]; exact h1
      · rw [bufferField_eq]; exact h2
      · rw [sizeField_eq]; exact h3
      · rw [writeOffset, writeOffsetField_eq]; exact h4
      · rw [readOffset, readOffsetField_eq]; exact h5
    · intro p ph l hq
      obtain ⟨ch, h1, h2, h3, h4, h5, h6⟩ := (ht p).1 ph l hq
      refine ⟨ch, h1, h2, h3, h4, ?_, ?_⟩
      · rw [writeOffset, h2, writeOffsetField_eq]; exact h5
      · rw [readOffset, h2, readOffsetField_eq]; exact h6
    · intro p ph l hq
      obtain ⟨ch, h1, h2, h3, h4, h5, h6⟩ := (ht p).2 ph l hq
      refine ⟨ch, h1, by rw [hd]; exact h2, h3, h4, ?_, ?_⟩
      · rw [readOffset, h2, readOffsetField_eq]; exact h5
      · rw [writeOffset, h2, writeOffsetField_eq]; exact h6

theorem SameCb.view {s t : State} (h : SameCb s t) (hv : BlockView s) : BlockView t := by
  have e := h.cfg
  refine ⟨?_, ?_, ?_, ?_, ?_⟩
  · rw [e, h.word (upCount_in _).1 (upCount_in _).2]; exact hv.upCount
  · rw [e, h.word (downCount_in _).1 (downCount_in _).2]; exact hv.downCount
  · rw [h.sig]; exact hv.sig
  · intro c ch hc
    rw [e] at hc ⊢
    have hl : c < s.cfg.nup + s.cfg.ndown := by have := lt_of_getElem? hc; simp only [Config.nup]; omega
    simp only [h.field hl (show 0 < 6 by omega), h.field hl (show 1 < 6 by omega), h.field hl (show 2 < 6 by omega), h.field hl (show 3 < 6 by omega), h.field hl (show 4 < 6 by omega), h.field hl (show 5 < 6 by omega)]
    exact hv.up c ch hc
  · intro c ch hc
    rw [e] at hc ⊢
    have hl : s.cfg.nup + c < s.cfg.nup + s.cfg.ndown := by have := lt_of_getElem? hc; simp only [Config.ndown]; omega
    simp only [h.field hl (show 0 < 6 by omega), h.field hl (show 1 < 6 by omega), h.field hl (show 2 < 6 by omega), h.field hl (show 3 < 6 by omega), h.field hl (show 4 < 6 by omega), h.field hl (show 5 < 6 by omega)]
    exact hv.down c ch hc

theorem SameCb.ties {s t : State} (h : SameCb s t) {q : PortState} (ht : Ties s q) : Ties t q := by
  have e := h.cfg
  refine ⟨fun ph l hq => ?_, fun ph l hq => ?_⟩
  · obtain ⟨ch, h1, h2, h3, h4, h5, h6⟩ := ht.1 ph l hq
    have hl : l.ch < s.cfg.nup + s.cfg.ndown := by have := lt_of_getElem? h1; simp only [Config.nup]; omega
    rw [e, h.field hl (by omega), h.field hl (by omega)]
    exact ⟨ch, h1, h2, h3, h4, h5, h6⟩
  · obtain ⟨ch, h1, h2, h3, h4, h5, h6⟩ := ht.2 ph l hq
    have hl : s.cfg.nup + l.ch < s.cfg.nup + s.cfg.ndown := by have := lt_of_getElem? h1; simp only [Config.ndown]; omega
    rw [e, h.field hl (by omega), h.field hl (by omega)]
    exact ⟨ch, h1, h2, h3, h4, h5, h6⟩

theorem ties_idle (s : State) : Ties s .idle := ⟨(fun _ _ h => nomatch h), (fun _ _ h => nomatch h)⟩

theorem ties_faulted (s : State) : Ties s .faulted := ⟨(fun _ _ h => nomatch h), (fun _ _ h => nomatch h)⟩

/-- The channels stay in order in a state with the same control block, of whose ports only the current one changed. -/
theorem channels_same {s t : State} (hs : s.Channels) (h : SameCb s t) (ha : t.active = s.active)
    (hp : ∀ p, p ≠ s.active → t.port p = s.port p) (hcur : Ties s t.cur.state) : t.Channels := by
  rw [channels_iff] at *
  refine ⟨h.view hs.1, fun p => ?_⟩
  by_cases he : p = s.active
  · subst he; exact h.ties (by rw [← ha]; exact hcur)
  · rw [hp p he]; exact h.ties (hs.2 p)

/-- The memory part after a store into a cursor or flags word, given what the new word satisfies. -/
theorem blockView_putWord {s : State} (hv : BlockView s) {i j v : Nat} (hi : i < s.cfg.nup + s.cfg.ndown) (hj :
    j < 6) (hj3 : 3 ≤ j)
    (hup : ∀ ch, s.cfg.up[i]? = some ch → (j = 5 → (flagsMode (v % s.cfg.space)).isSome) ∧ (j ≠ 5 → v % s.cfg.space < ch.size))
    (hdn : ∀ c ch, s.cfg.down[c]? = some ch → i = s.cfg.nup + c → j ≠ 5 ∧ v % s.cfg.space < ch.size) :
    BlockView (s.putWord (fieldAddr s.cfg i j) v) := by
  obtain ⟨g1, g2, g3⟩ := putWord_header (s := s) (v := v) hi hj
  refine ⟨?_, ?_, ?_, ?_, ?_⟩
  · rw [putWord_cfg, g1]; exact hv.upCount
  · rw [putWord_cfg, g2]; exact hv.downCount
  · rw [g3]; exact hv.sig
  · intro c ch hc
    rw [putWord_cfg] at *
    obtain ⟨h1, h2, h3, h4, h5, h6⟩ := hv.up c ch hc
    have w := fun j' (h : j' < 6) => wordAt_putWord_fieldAddr s (i := i) (i' := c) hj h v
    rw [w 0 (by omega), w 1 (by omega), w 2 (by omega), w 3 (by omega), w 4 (by omega), w 5 (by omega)]
    rw [if_neg (by omega), if_neg (by omega), if_neg (by omega)]
    refine ⟨h1, h2, h3, ?_, ?_, ?_⟩
    · split
      · rename_i h; obtain ⟨rfl, rfl⟩ := h; exact (hup ch hc).2 (by omega)
      · exact h4
    · split
      · rename_i h; obtain ⟨rfl, rfl⟩ := h; exact (hup ch hc).2 (by omega)
      · exact h5
    · split
      · rename_i h; obtain ⟨rfl, rfl⟩ := h; exact (hup ch hc).1 rfl
      · exact h6
  · intro c ch hc
    rw [putWord_cfg] at *
    obtain ⟨h1, h2, h3, h4, h5, h6⟩ := hv.down c ch hc
    have w := fun j' (h : j' < 6) => wordAt_putWord_fieldAddr s (i := i) (i' := s.cfg.nup + c) hj h v
    rw [w 0 (by omega), w 1 (by omega), w 2 (by omega), w 3 (by omega), w 4 (by omega), w 5 (by omega)]
    rw [if_neg (by omega), if_neg (by omega), if_neg (by omega)]
    refine ⟨h1, h2, h3, ?_, ?_, ?_⟩
    · split
      · rename_i h; exact (hdn c ch hc h.1.symm).2
      · exact h4
    · split
      · rename_i h; exact (hdn c ch hc h.1.symm).2
      · exact h5
    · split
      · rename_i h; exact absurd h.2.symm (hdn c ch hc h.1.symm).1
      · exact h6

/-- A port's ties after a store into a field that the port does not own. -/
theorem ties_putWord {s : State} {i j v : Nat} (hi : i < s.cfg.nup + s.cfg.ndown) (hj : j < 6) {q : PortState}
    (ht : Ties s q)
    (hw : ∀ ph l, q = .busy (.write ph l) → l.ch = i → j ≠ 3 ∧ (j = 4 → ph ≠ .sample → l.n ≤ ringFree (v % s.cfg.space) l.cur l.size))
    (hr : ∀ ph l, q = .busy (.read ph l) → s.cfg.nup + l.ch = i → j ≠ 4 ∧ (j = 3 → ph ≠ .sample → l.n ≤ ringAvailable (v % s.cfg.space) l.cur l.size)) :
    Ties (s.putWord (fieldAddr s.cfg i j) v) q := by
  refine ⟨fun ph l hq => ?_, fun ph l hq => ?_⟩
  · obtain ⟨ch, h1, h2, h3, h4, h5, h6⟩ := ht.1 ph l hq
    have w := fun j' (h : j' < 6) => wordAt_putWord_fieldAddr s (i := i) (i' := l.ch) hj h v
    refine ⟨ch, h1, h2, h3, h4, ?_, ?_⟩
    · rw [putWord_cfg, w 3 (by omega), if_neg]; exact h5
      rintro ⟨rfl, rfl⟩; exact (hw ph l hq rfl).1 rfl
    · intro hph
      rw [putWord_cfg, w 4 (by omega)]
      split
      · rename_i h; exact (hw ph l hq h.1).2 h.2.symm hph
      · exact h6 hph
  · obtain ⟨ch, h1, h2, h3, h4, h5, h6⟩ := ht.2 ph l hq
    have w := fun j' (h : j' < 6) => wordAt_putWord_fieldAddr s (i := i) (i' := s.cfg.nup + l.ch) hj h v
    refine ⟨ch, h1, h2, h3, h4, ?_, ?_⟩
    · rw [putWord_cfg, w 4 (by omega), if_neg]; exact h5
      rintro ⟨rfl, rfl⟩; exact (hr ph l hq rfl).1 rfl
    · intro hph
      rw [putWord_cfg, w 3 (by omega)]
      split
      · rename_i h; exact (hr ph l hq h.1).2 h.2.symm hph
      · exact h6 hph

/-- The memory part after a store into a cursor or flags word of an up channel. -/
theorem blockView_putWord_up {s : State} (hs : s.Channels) {c : Nat} {ch : UpChannel} (hc :
    s.cfg.up[c]? = some ch) {j v : Nat} (hj : j < 6) (hj3 : 3 ≤ j)
   (h5 : j = 5 → (flagsMode (v % s.cfg.space)).isSome) (hne : j ≠ 5 → v % s.cfg.space < ch.size) : BlockView (s.putWord (fieldAddr s.cfg c j) v) := by
  refine blockView_putWord ((channels_iff s).1 hs).1 (channel_lt_up hc) hj hj3 ?_ ?_
  · intro ch' hc'; rw [hc] at hc'; cases hc'; exact ⟨h5, hne⟩
  · intro c' ch' hc' he; have := lt_of_getElem? hc; simp only [Config.nup] at he; omega

/-- The memory part after a store into a cursor of a down channel. -/
theorem blockView_putWord_down {s : State} (hs : s.Channels) {c : Nat} {ch : Channel} (hc :
    s.cfg.down[c]? = some ch) {j v : Nat} (hj : j < 5) (hj3 : 3 ≤ j)
   (hne : v % s.cfg.space < ch.size) : BlockView (s.putWord (fieldAddr s.cfg (s.cfg.nup + c) j) v) := by
  refine blockView_putWord ((channels_iff s).1 hs).1 (channel_lt_down hc) (by omega) hj3 ?_ ?_
  · intro ch' hc'; have := lt_of_getElem? hc'; simp only [Config.nup] at this; omega
  · intro c' ch' hc' he
    have : c' = c := by omega
    subst this; rw [hc] at hc'; cases hc'; exact ⟨by omega, hne⟩

theorem channels_raise {s : State} (hs : s.Channels) (code ch) : (s.raise code ch).Channels := by
  refine channels_same hs (SameCb.of_mem rfl rfl) rfl (fun p hp => port_raise_ne s code ch hp) ?_
  by_cases hl : s.active < s.ports.length
  · rw [cur_raise s code ch hl]; exact ties_faulted s
  · show Ties s ((s.raise code ch).port s.active).state
    rw [port_absent _ (by simp; omega)]; exact ties_faulted s

theorem channels_complete {s : State} (hs : s.Channels) (n) (hl : s.active < s.ports.length) :
    (s.complete n).Channels := by
  refine channels_same hs (SameCb.of_mem rfl rfl) rfl (fun p hp => port_complete_ne s n hp) ?_
  rw [cur_complete s n hl]; exact ties_idle s

theorem channels_goOn {s : State} (hs : s.Channels) (c) (hl : s.active < s.ports.length) (ht : Ties s
    (.busy c)) : (s.goOn c).Channels := by
  refine channels_same hs (SameCb.of_mem rfl rfl) rfl (fun p hp => port_goOn_ne s c hp) ?_
  rw [cur_goOn s c hl]; exact ht

theorem channels_present {s : State} (hs : s.Channels) (r rest) (hi : s.cur.state = .idle) :
    (s.present r rest).Channels := by
  refine channels_same hs (SameCb.of_mem rfl rfl) rfl (fun p hp => port_present_ne s r rest hp) ?_
  rw [cur_present s r rest (active_lt_of_idle hi)]; rw [hi]; exact ties_idle s

theorem channels_bookkeeping {s : State} (hs : s.Channels) (a b : Nat) (c : List Move) : State.Channels
    { s with active := a, pick := b, schedule := c } := by
  rw [channels_iff] at *
  exact ⟨(SameCb.of_mem rfl rfl : SameCb s { s with active := a, pick := b, schedule := c }).view hs.1, fun p => (SameCb.of_mem rfl rfl : SameCb s { s with active := a, pick := b, schedule := c }).ties (hs.2 p)⟩

end Sys2Proof.Machine
end

