-- ==== Sys2Proof/Laws/PerInstr.lean ====
section
/-! SUPPORT. Per-instruction family `Encoding`: the number of a command's word is its fields at the places of
30_encoding.md R80. -/

namespace Sys2Proof.Laws.Encoding

/-- The word of a well-formed command has CH at bit 16, MD at bit 2, OP at bit 0 and zeros elsewhere. -/
def Statement (i : Instr) : Prop := i.wf = true → (encode i).toNat = 2 ^ 16 * i.ch + 2 ^ 2 * i.md + i.op

/-- The fields of `encode` laid end to end, for any field values in range. -/
theorem append_toNat {ch md op : Nat} (h1 : ch < 256) (h2 : md < 4) (h3 : op < 4) :
    (BitVec.ofNat 8 0 ++ BitVec.ofNat 8 ch ++ BitVec.ofNat 12 0 ++ BitVec.ofNat 2 md ++ BitVec.ofNat 2 op).toNat =
      2 ^ 16 * ch + 2 ^ 2 * md + op := by
  simp only [BitVec.toNat_append, BitVec.toNat_ofNat]
  rw [Nat.mod_eq_of_lt (a := ch) h1, Nat.mod_eq_of_lt (a := md) h2, Nat.mod_eq_of_lt (a := op) h3]
  rw [← Nat.shiftLeft_add_eq_or_of_lt (b := op) h3, ← Nat.shiftLeft_add_eq_or_of_lt (b := md) h2]
  simp only [Nat.shiftLeft_eq, Nat.zero_mod, Nat.zero_mul, Nat.zero_or, Nat.or_zero]
  omega

theorem md_lt (m : Mode) : m.encoding < 4 := by cases m <;> decide

theorem upWrite (ch : Nat) : Statement (.upWrite ch) := fun h =>
  append_toNat (of_decide_eq_true h) (Nat.lt_of_sub_eq_succ rfl) (Nat.lt_of_sub_eq_succ rfl)

theorem downRead (ch : Nat) : Statement (.downRead ch) := fun h =>
  append_toNat (of_decide_eq_true h) (Nat.lt_of_sub_eq_succ rfl) (Nat.lt_of_sub_eq_succ rfl)

theorem upGetMode (ch : Nat) : Statement (.upGetMode ch) := fun h =>
  append_toNat (of_decide_eq_true h) (Nat.lt_of_sub_eq_succ rfl) (Nat.lt_of_sub_eq_succ rfl)

theorem upSetMode (ch : Nat) (mode : Mode) : Statement (.upSetMode ch mode) := fun h =>
  append_toNat (of_decide_eq_true h) (md_lt mode) (Nat.lt_of_sub_eq_succ rfl)

end Sys2Proof.Laws.Encoding
end

