-- ==== Sys2Proof/Laws/Runs.lean ====
section
/-! SUPPORT. The turn of a port as a state, a run taken apart step by step, and its ends read off the ports. -/

namespace Sys2Proof.Machine

open State

variable (s : State) (p pick : Nat) (moves : List Move)

@[simp] theorem turn_cfg : (s.turn p pick moves).cfg = s.cfg := rfl
@[simp] theorem turn_mem : (s.turn p pick moves).mem = s.mem := rfl
@[simp] theorem turn_ports : (s.turn p pick moves).ports = s.ports := rfl
@[simp] theorem turn_faults : (s.turn p pick moves).faults = s.faults := rfl
@[simp] theorem turn_booted : (s.turn p pick moves).booted = s.booted := rfl
@[simp] theorem turn_bootPos : (s.turn p pick moves).bootPos = s.bootPos := rfl
@[simp] theorem turn_active : (s.turn p pick moves).active = p := rfl
@[simp] theorem turn_pick : (s.turn p pick moves).pick = pick := rfl
@[simp] theorem turn_schedule : (s.turn p pick moves).schedule = moves := rfl
@[simp] theorem turn_cur : (s.turn p pick moves).cur = s.port p := rfl
@[simp] theorem turn_port (q : Nat) : (s.turn p pick moves).port q = s.port q := rfl
@[simp] theorem turn_wordAt (a : Addr) : (s.turn p pick moves).wordAt a = s.wordAt a := rfl
@[simp] theorem turn_byteAt (a : Addr) : (s.turn p pick moves).byteAt a = s.byteAt a := rfl

variable {s p pick moves}

/-- A step on a port's turn is that port's step. -/
theorem step_turn (hc : s.cfg.wf = true) (hs : s.schedule = .port p pick :: moves) :
    step s = portStep (s.turn p pick moves) := by
  rw [step_eq hc hs]
  rfl

/-- A step of an IDLE port of a booted controller is the issue of the next request. -/
theorem step_issue {r : Request} {rest : List Request} (hc : s.cfg.wf = true) (hb : s.booted = true)
    (hs : s.schedule = .port p pick :: moves) (hi : (s.port p).state = .idle) (hq : (s.port p).queue = r :: rest) :
    step s = issueMove r rest (s.turn p pick moves) := by
  rw [step_turn hc hs]
  exact portStep_issue hi hb hq

/-- A run takes its first step and goes on. -/
theorem run_next {t : State} (h : step s = .next t) (k : Nat) :
    Host.Core.run core (k + 1) s = Host.Core.run core k t := by
  simp only [Host.Core.run]
  rw [show core.step s = .next t from h]

/-- A run of no steps is over. -/
theorem run_zero (s : State) : Host.Core.run core 0 s = .next s := rfl

/-- The current port's state once it goes on. -/
theorem port_goOn_same {c : InFlight} (h : s.active < s.ports.length) :
    (s.goOn c).port s.active = { s.cur with state := .busy c } := cur_goOn s c h

/-- The current port once it completes. -/
theorem port_complete_same {n : Word} (h : s.active < s.ports.length) :
    (s.complete n).port s.active = { s.cur with state := .idle, result := n } := cur_complete s n h

/-- Whether a state is one at which a run is judged, read off the list of its ports. -/
theorem judged_iff (s : State) :
    s.judged ↔ ∀ q ∈ s.ports, q.queue = [] ∧ (q.state = .idle ∨ q.state = .faulted) := by
  constructor
  · rintro ⟨hq, hs⟩ q hm
    obtain ⟨p, hp, rfl⟩ := List.getElem_of_mem hm
    rw [← port_eq_getElem s hp]
    exact ⟨hq p, hs p hp⟩
  · refine fun h => ⟨fun p => ?_, fun p hp => (h _ (port_mem s hp)).2⟩
    by_cases hp : p < s.ports.length
    · exact (h _ (port_mem s hp)).1
    · rw [port_absent s (Nat.le_of_not_lt hp)]; rfl

/-- Whether a state is final, read off the list of its ports and the fault log. -/
theorem final_iff (s : State) : s.final ↔ (∀ q ∈ s.ports, q.queue = [] ∧ q.state = .idle) ∧ s.faults = [] := by
  constructor
  · rintro ⟨hj, hi, hf⟩
    refine ⟨fun q hm => ⟨((judged_iff s).1 hj q hm).1, ?_⟩, hf⟩
    obtain ⟨p, hp, rfl⟩ := List.getElem_of_mem hm
    rw [← port_eq_getElem s hp]
    exact hi p hp
  · exact fun ⟨h, hf⟩ => ⟨(judged_iff s).2 fun q hm => ⟨(h q hm).1, .inl (h q hm).2⟩,
      fun p hp => (h _ (port_mem s hp)).2, hf⟩

end Sys2Proof.Machine
end

