-- ==== Sys2Proof/Tests/Slice0.lean ====
section
/-! SUPPORT. The model's own tests: ill-formed terms that the checks refuse, command words written out from the spec, one-step
tests whose expected values are vectors of 95_test_vectors.md, and for each statement with hypotheses a concrete state
that meets them. -/

open Sys2Proof Sys2Proof.Machine

namespace Sys2Proof.Tests

-- One theorem's evaluation at a time: each takes a thread of its own otherwise.
set_option Elab.async false

/-! ## WellFormed: each check refuses an ill-formed term -/

theorem test_reference_is_wellFormed : Config.reference.wf = true := by decide +kernel

theorem test_refuses_channel_256 : (Instr.upWrite 256).wf = false := by decide
theorem test_refuses_word_size : { Config.reference with W := 2 }.wordSizeOk = false := by decide
theorem test_refuses_empty_signature : { Config.reference with signature := [] }.signatureOk = false := by decide
theorem test_refuses_signature_length :
    { Config.reference with signature := [0x53, 0x45, 0x47] }.signatureOk = false := by decide
theorem test_refuses_signature_not_ascii :
    { Config.reference with signature := [0x53, 0x45, 0x47, 0x80] }.signatureOk = false := by decide
theorem test_refuses_misaligned_base : { Config.reference with cbBase := 0x20000002 }.baseOk = false := by decide
theorem test_refuses_257_channels :
    { Config.reference with down := List.replicate 257 { name := 0, buf := 0, size := 1 } }.countsOk = false := by
  decide +kernel
theorem test_refuses_size_zero :
    { Config.reference with down := [{ name := 0, buf := 0x20000200, size := 0 }] }.channelsOk = false := by
  decide +kernel
theorem test_refuses_size_too_large :
    { Config.reference with down := [{ name := 0, buf := 0, size := 2 ^ 32 }] }.channelsOk = false := by decide +kernel
theorem test_refuses_wide_name :
    { Config.reference with down := [{ name := 2 ^ 32, buf := 0x20000200, size := 1 }] }.channelsOk = false := by
  decide +kernel
theorem test_refuses_no_port : { Config.reference with nport := 0 }.portsOk = false := by decide
theorem test_refuses_region_past_the_end :
    { Config.reference with down := [{ name := 0, buf := 0xFFFFFFF8, size := 9 }] }.regionsInside = false := by
  decide +kernel
theorem test_refuses_overlapping_buffers :
    { Config.reference with down := [{ name := 0, buf := 0x2000010F, size := 16 }] }.regionsDisjoint = false := by
  decide +kernel
theorem test_refuses_buffer_in_control_block :
    { Config.reference with down := [{ name := 0, buf := 0x20000047, size := 1 }] }.regionsDisjoint = false := by
  decide +kernel

/-! ## Decoding: words written out bit by bit from 30_encoding.md R80 and R81

The fields are RSV1 (8 bits), CH (8), RSV0 (12), MD (2), OP (2). -/

theorem test_decodes_upWrite : decodeWord 0b00000000_00000010_000000000000_00_00#32 = .ok (.upWrite 2) := by decide
theorem test_decodes_downRead : decodeWord 0b00000000_11111111_000000000000_00_01#32 = .ok (.downRead 255) := by decide
theorem test_decodes_upGetMode : decodeWord 0b00000000_00000001_000000000000_00_10#32 = .ok (.upGetMode 1) := by decide
theorem test_decodes_upSetMode_trim :
    decodeWord 0b00000000_10000000_000000000000_01_11#32 = .ok (.upSetMode 128 .trim) := by decide
theorem test_decodes_upSetMode_block :
    decodeWord 0b00000000_00000001_000000000000_10_11#32 = .ok (.upSetMode 1 .block) := by decide
theorem test_refuses_mode_three : decodeWord 0b00000000_00000000_000000000000_11_11#32 = .error .modeReserved := by decide
theorem test_refuses_mode_on_downRead :
    decodeWord 0b00000000_00000000_000000000000_10_01#32 = .error .modeOperand := by decide
theorem test_refuses_rsv0_top_bit : decodeWord 0b00000000_00000000_100000000000_00_00#32 = .error .rsv0 := by decide
theorem test_refuses_rsv1_low_bit : decodeWord 0b00000001_00000000_000000000000_00_00#32 = .error .rsv1 := by decide

/-! ## States

The control block is written out from the offsets of 30_encoding.md R74 and the common configuration of
95_test_vectors.md section 10. -/

/-- The control block of `Config.reference` after boot but for the cursors, and a payload `0x41 + k` at 0x20001000. -/
def cells (w r dw dr : Byte) : List Host.Cell :=
  [(0x20000000, 0x53), (0x20000001, 0x45), (0x20000002, 0x47), (0x20000003, 0x47), (0x20000004, 0x45),
    (0x20000005, 0x52), (0x20000006, 0x20), (0x20000007, 0x52), (0x20000008, 0x54), (0x20000009, 0x54)] ++
  [(0x20000010, 1), (0x20000014, 1)] ++
  [(0x2000001B, 0x08), (0x2000001D, 0x01), (0x2000001F, 0x20), (0x20000020, 0x10), (0x20000024, w), (0x20000028, r)] ++
  [(0x20000030, 0x10), (0x20000033, 0x08), (0x20000035, 0x02), (0x20000037, 0x20), (0x20000038, 0x10),
    (0x2000003C, dw), (0x20000040, dr)] ++
  (List.range 10).map (fun k => (0x20001000 + k, BitVec.ofNat 8 (0x41 + k)))

/-- Memory with up cursors `w`, `r`, down cursors `dw`, `dr` and the up channel's flags word `flags`. -/
def image (w r dw dr : Byte) (flags : Nat) : Memory :=
  (Memory.ofCells (cells w r dw dr)).writeWord .little 4 0x2000002C flags

/-- A booted machine with that memory, port 0 as given and port 1 IDLE. -/
def booted (m : Memory) (p0 : Port) (moves : List Move) : State where
  cfg := Config.reference
  mem := m
  ports := [p0, Port.reset]
  faults := []
  booted := true
  bootPos := 97
  active := 0
  pick := 0
  schedule := moves

/-- An IDLE port that presented `cmd` with payload `[addr, addr + len)` last, with `queue` to come. -/
def port (cmd : CmdWord) (addr len : Nat) (queue : List Request) : Port :=
  { Port.reset with cmd := cmd, addr := addr, len := len, queue := queue }

/-- The boot sequence leaves the image of the spec (95_test_vectors.md P0). -/
theorem test_boot_image :
    State.reset.finishBoot.mem = (image 0 0 0 0 0).filter (fun c => c.1 < 0x20001000) ∧
    State.reset.finishBoot.bootPos = 97 := by decide +kernel

/-- The fields of an UP_WRITE in flight on up channel 0. -/
def writeL (cur : Nat) (mode : Mode) (len done n : Nat) (pending : List Nat) : WriteLatch where
  ch := 0
  d := 0x20000018
  size := 16
  buf := 0x20000100
  cur := cur
  mode := mode
  addr := 0x20001000
  len := len
  done := done
  n := n
  pending := pending

/-- The fields of a DOWN_READ in flight on down channel 0. -/
def readL (cur len n : Nat) (pending : List Nat) : ReadLatch where
  ch := 0
  d := 0x20000030
  size := 16
  buf := 0x20000200
  cur := cur
  addr := 0x20001000
  len := len
  n := n
  pending := pending

/-- Whether the outcome is a next state with the property. -/
def after (o : Out) (P : State → Bool) : Bool :=
  match o with
  | .next t => P t
  | .fault _ => false
  | .refused _ => false

theorem after_next {o : Out} {P : State → Bool} (h : after o P = true) : ∃ t, o = .next t ∧ P t = true := by
  cases o with
  | next t => exact ⟨t, rfl, h⟩
  | fault r => cases h
  | refused r => cases h

/-! ## One step each -/

/-- 95_test_vectors.md UW-2: TRIM, r = 0, w = 9, LEN 10 takes n = 6. -/
theorem test_upWrite_trim_takes_what_fits :
    after (exec (.upWrite 0) ((booted (image 9 0 0 0 1) (port 0 0x20001000 10 []) []).goOn
        (.write .sample (writeL 9 .trim 10 0 0 []))))
      (fun t => t.cur.state == .busy (.write .copy (writeL 9 .trim 10 0 6 [0, 1, 2, 3, 4, 5]))) = true := by decide +kernel

/-- 95_test_vectors.md UW-12: w = 10, n = 6 publishes w = 0 and returns 6. -/
theorem test_upWrite_publish_wraps :
    after (exec (.upWrite 0) ((booted (image 10 1 0 0 0) (port 0 0x20001000 6 []) []).goOn
        (.write .publish (writeL 10 .skip 6 0 6 []))))
      (fun t => t.wordAt 0x20000024 == 0 && t.cur.result == 6 && t.cur.state == .idle) = true := by decide +kernel

/-- 95_test_vectors.md DR-2: r = 14, w = 2, LEN 10 takes n = 4. -/
theorem test_downRead_takes_available :
    after (exec (.downRead 0) ((booted (image 0 0 2 14 0) (port 1 0x20001000 10 []) []).goOn
        (.read .sample (readL 14 10 0 []))))
      (fun t => t.cur.state == .busy (.read .copy (readL 14 10 4 [0, 1, 2, 3]))) = true := by decide +kernel

/-- 95_test_vectors.md DR-8: r = 12, n = 4 publishes r = 0 and returns 4. -/
theorem test_downRead_publish_wraps :
    after (exec (.downRead 0) ((booted (image 0 0 0 12 0) (port 1 0x20001000 4 []) []).goOn
        (.read .publish (readL 12 4 4 []))))
      (fun t => t.wordAt 0x20000040 == 0 && t.cur.result == 4 && t.cur.state == .idle) = true := by decide +kernel

/-- 95_test_vectors.md GS-7: the reserved bits are ignored. -/
theorem test_upGetMode_ignores_reserved_bits :
    after (exec (.upGetMode 0) (booted (image 0 0 0 0 0xFFFFFFFD) (port 2 0 0 []) []))
      (fun t => t.cur.result == 1 && t.wordAt 0x2000002C == 0xFFFFFFFD) = true := by decide +kernel

/-- 95_test_vectors.md GS-5: mode 3 faults MODE_RESERVED. -/
theorem test_upGetMode_faults_on_mode_three :
    after (exec (.upGetMode 0) (booted (image 0 0 0 0 3) (port 2 0 0 []) []))
      (fun t => t.faults == [{ code := .modeReserved, port := 0, ch := 0 }] && t.cur.state == .faulted) = true := by
  decide +kernel

/-- 95_test_vectors.md GS-4: the reserved bits are kept. -/
theorem test_upSetMode_keeps_reserved_bits :
    after (exec (.upSetMode 0 .skip) (booted (image 0 0 0 0 0xABCD0002) (port 3 0 0 []) []))
      (fun t => t.wordAt 0x2000002C == 0xABCD0000 && t.cur.result == 0 && t.faults == []) = true := by decide +kernel

/-- 95_test_vectors.md GS-6: mode 3 is overwritten. -/
theorem test_upSetMode_overwrites_mode_three :
    after (exec (.upSetMode 0 .trim) (booted (image 0 0 0 0 3) (port 3 0 0 []) []))
      (fun t => t.wordAt 0x2000002C == 1 && t.faults == []) = true := by decide +kernel

/-- 95_test_vectors.md HS-4: H_DOWN_DATA(0, 12, b) at w = 10, r = 8 stores at offset 6. -/
theorem test_hostDownData_wraps :
    (hostDownData 0 12 0x5A (booted (image 0 0 10 8 0) Port.reset [])).byteAt 0x20000206 = 0x5A := by decide +kernel

/-- 95_test_vectors.md HS-5 and HS-2: past the bound there is no such step. -/
theorem test_host_has_no_step_past_its_bound :
    hostDownData 0 13 0x5A (booted (image 0 0 10 8 0) Port.reset []) = booted (image 0 0 10 8 0) Port.reset [] ∧
    hostUpConsume 0 10 (booted (image 9 0 0 0 0) Port.reset []) = booted (image 9 0 0 0 0) Port.reset [] := by
  decide +kernel

/-- Big-endian words have their most significant byte first (20_memory.md R52). -/
theorem test_big_endian_word :
    (Memory.writeWord [] .big 4 0 0x01020304).read 0 = 1 ∧ (Memory.writeWord [] .big 4 0 0x01020304).read 3 = 4 := by
  decide +kernel

/-- The first word that `withFetchWord` places runs as the first command (here UP_GET_MODE 0, GS-1: RESULT 0). -/
theorem test_fetchWord_runs_first :
    after (step (State.reset.withFetchWord 32 2))
      (fun t => t.ports.map (fun q => (q.state, q.cmd, q.result)) == [(.idle, 2, 0), (.idle, 0, 0)] && t.faults == [])
      = true := by decide +kernel

/-! ## Witnesses: states that meet the invariants

`IdleOk` is what can be computed of a state of `Config.reference` with no command in flight; it gives the two invariants. -/

/-- A booted machine in order, with every port IDLE. -/
abbrev IdleOk (s : State) : Prop :=
  (s.cfg = Config.reference ∧ s.mem.wf ∧ (∀ c ∈ s.mem, c.1 < s.cfg.space) ∧ s.ports.length = s.cfg.nport ∧
    (∀ q ∈ s.ports, q.state = .idle ∧ q.addr < s.cfg.space ∧ q.len < s.cfg.space ∧ q.result < s.cfg.space) ∧
    s.faults = [] ∧ s.booted = true ∧ s.bootPos = (bootStores s.cfg).length) ∧
  s.upCount = 1 ∧ s.downCount = 1 ∧ s.signaturePresent = true ∧
  (s.wordAt 0x20000018 = 0x08000000 ∧ s.wordAt 0x2000001C = 0x20000100 ∧ s.wordAt 0x20000020 = 16 ∧
    s.wordAt 0x20000024 < 16 ∧ s.wordAt 0x20000028 < 16 ∧ (flagsMode (s.wordAt 0x2000002C)).isSome) ∧
  s.wordAt 0x20000030 = 0x08000010 ∧ s.wordAt 0x20000034 = 0x20000200 ∧ s.wordAt 0x20000038 = 16 ∧
    s.wordAt 0x2000003C < 16 ∧ s.wordAt 0x20000040 < 16 ∧ s.wordAt 0x20000044 = 0

theorem IdleOk.port_idle {s : State} (h : IdleOk s) (p : Nat) (c : InFlight) : (s.port p).state ≠ .busy c := by
  by_cases hp : p < s.ports.length
  · rw [(h.1.2.2.2.2.1 _ (s.port_mem hp)).1]; simp
  · rw [s.port_absent (Nat.le_of_not_lt hp)]; simp [Port.absent]

theorem IdleOk.sound {s : State} (h : IdleOk s) : s.Sound := by
  have hb := h.port_idle
  obtain ⟨⟨hc, hw, hin, hn, hp, hf, hbt, hpos⟩, -⟩ := h
  refine ⟨hw, hin, hn, fun p => ?_, fun p c e => absurd e (hb p c), fun p c e => absurd e (hb p c),
    fun p q c d e => absurd e (hb p c), fun e => ?_, ?_, fun p hl e => ?_, Nat.le_of_eq hpos, fun _ => hpos⟩
  · by_cases hl : p < s.ports.length
    · exact (hp _ (s.port_mem hl)).2
    · rw [s.port_absent (Nat.le_of_not_lt hl)]
      exact ⟨Config.space_pos _, Config.space_pos _, Config.space_pos _⟩
  · rw [hbt] at e; cases e
  · rw [hf]; intro r hr; cases hr
  · rw [(hp _ (s.port_mem hl)).1] at e; cases e

theorem IdleOk.channels {s : State} (h : IdleOk s) : s.Channels := by
  have hb := h.port_idle
  obtain ⟨⟨hc, -⟩, hu, hd, hs, ⟨u0, u1, u2, u3, u4, u5⟩, d0, d1, d2, d3, d4, d5⟩ := h
  rw [channels_iff]
  refine ⟨⟨?_, ?_, hs, fun c ch e => ?_, fun c ch e => ?_⟩, fun p => ⟨fun ph l e => absurd e (hb p _),
    fun ph l e => absurd e (hb p _)⟩⟩
  · rw [show s.cfg.nup = 1 by rw [hc]; rfl]; exact hu
  · rw [show s.cfg.ndown = 1 by rw [hc]; rfl]; exact hd
  · rw [hc] at e ⊢
    match c, e with
    | 0, e => cases e; exact ⟨u0, u1, u2, u3, u4, u5⟩
  · rw [hc] at e ⊢
    match c, e with
    | 0, e => cases e; exact ⟨d0, d1, d2, d3, d4, d5⟩

/-- A machine with an UP_WRITE of port 0 in flight is in order. -/
theorem IdleOk.writing {s : State} (h : IdleOk s) {ph : WritePhase} {l : WriteLatch} (ho : l.Ok s.cfg ph)
    (hd : l.ch = 0 ∧ l.d = 0x20000018 ∧ l.size = 16 ∧ l.buf = 0x20000100 ∧ l.cur = s.wordAt 0x20000024 ∧
      (ph ≠ .sample → l.n ≤ ringFree (s.wordAt 0x20000028) l.cur l.size))
    (hq : s.active = 0 ∧ 0 < s.ports.length ∧ s.cur.cmd = 0 ∧ l.addr = s.cur.addr ∧ l.len = s.cur.len) :
    (s.goOn (.write ph l)).Sound ∧ (s.goOn (.write ph l)).Channels := by
  obtain ⟨e1, e2, e3, e4, e5, e6⟩ := hd
  obtain ⟨q1, q2, q3, q4, q5⟩ := hq
  have hl : s.active < s.ports.length := by rw [q1]; exact q2
  refine ⟨sound_goOn h.sound _ hl h.1.2.2.2.2.2.2.1 ?_ ho ?_ q4 q5 fun p d hp hs => absurd hs (h.port_idle p d),
    channels_goOn h.channels _ hl ⟨fun ph' l' e => ?_, (fun _ _ e => nomatch e)⟩⟩
  · show (s.port s.active).state ≠ _
    rw [(h.1.2.2.2.2.1 _ (s.port_mem hl)).1]; simp
  · rw [q3]; show _ = Except.ok (Instr.upWrite l.ch); rw [e1]; decide
  · cases e
    have hc := h.1.1
    rw [e1, hc]
    exact ⟨_, rfl, e2, e3, e4, e5, e6⟩

/-- A machine with a DOWN_READ of port 0 in flight is in order. -/
theorem IdleOk.reading {s : State} (h : IdleOk s) {ph : ReadPhase} {l : ReadLatch} (ho : l.Ok s.cfg ph)
    (hd : l.ch = 0 ∧ l.d = 0x20000030 ∧ l.size = 16 ∧ l.buf = 0x20000200 ∧ l.cur = s.wordAt 0x20000040 ∧
      (ph ≠ .sample → l.n ≤ ringAvailable (s.wordAt 0x2000003C) l.cur l.size))
    (hq : s.active = 0 ∧ 0 < s.ports.length ∧ s.cur.cmd = 1 ∧ l.addr = s.cur.addr ∧ l.len = s.cur.len) :
    (s.goOn (.read ph l)).Sound ∧ (s.goOn (.read ph l)).Channels := by
  obtain ⟨e1, e2, e3, e4, e5, e6⟩ := hd
  obtain ⟨q1, q2, q3, q4, q5⟩ := hq
  have hl : s.active < s.ports.length := by rw [q1]; exact q2
  refine ⟨sound_goOn h.sound _ hl h.1.2.2.2.2.2.2.1 ?_ ho ?_ q4 q5 fun p d hp hs => absurd hs (h.port_idle p d),
    channels_goOn h.channels _ hl ⟨(fun _ _ e => nomatch e), fun ph' l' e => ?_⟩⟩
  · show (s.port s.active).state ≠ _
    rw [(h.1.2.2.2.2.1 _ (s.port_mem hl)).1]; simp
  · rw [q3]; show _ = Except.ok (Instr.downRead l.ch); rw [e1]; decide
  · cases e
    have hc := h.1.1
    rw [e1, hc]
    exact ⟨_, rfl, e2, e3, e4, e5, e6⟩

theorem IdleOk.no_latch {s : State} (h : IdleOk s) (dir : Dir) (ch p : Nat) : (s.port p).latches dir ch = false := by
  unfold Port.latches
  split
  · exact absurd ‹_› (h.port_idle p _)
  · rfl

/-- Up w = 9, r = 0, down w = 2, r = 14; port 0 has presented `cmd` with 10 bytes at 0x20001000 last. -/
def idleS (flags : Nat) (cmd : CmdWord) (queue : List Request) (moves : List Move) : State :=
  booted (image 9 0 2 14 flags) (port cmd 0x20001000 10 queue) moves

theorem idleS_ok {flags : Nat} {cmd : CmdWord} (h : IdleOk (idleS flags cmd [] [])) (queue : List Request)
    (moves : List Move) : IdleOk (idleS flags cmd queue moves) := by
  obtain ⟨⟨hc, hw, hin, hn, hp, hr⟩, hm⟩ := h
  refine ⟨⟨hc, hw, hin, hn, fun q hq => ?_, hr⟩, hm⟩
  rcases List.mem_cons.1 hq with rfl | hq
  · exact hp (port cmd 0x20001000 10 []) (List.mem_cons_self ..)
  · exact hp q (List.mem_cons_of_mem _ hq)

/-- The request `cmd` with `len` bytes at `addr`. -/
def req (cmd : CmdWord) (addr len : Nat) : Request := { cmd := cmd, addr := addr, len := len }

theorem ok_skip : IdleOk (idleS 0 0 [] []) := by decide +kernel
theorem ok_trim : IdleOk (idleS 1 0 [] []) := by decide +kernel
theorem ok_block : IdleOk (idleS 2 0 [] []) := by decide +kernel
theorem ok_read : IdleOk (idleS 0 1 [] []) := by decide +kernel

/-! ## Witnesses: for each statement with hypotheses, values that meet them -/

theorem test_witness_DecodeUndoesEncode :
    (Instr.upWrite 0).wf = true ∧ (Instr.downRead 255).wf = true ∧ (Instr.upGetMode 255).wf = true ∧
      (Instr.upSetMode 255 .block).wf = true := by decide

theorem test_witness_EncodeUndoesDecode :
    decodeWord 0x00FF000B#32 = .ok (.upSetMode 255 .block) ∧ decodeWord 0x00000000#32 = .ok (.upWrite 0) := by decide

/-- One word for each of the four cases of R86 at both ends of its field, then words with CH at and above its count. -/
theorem test_witness_IllegalWordFaultsBeforeMemory :
    (∀ x ∈ [0x01000000, 0xFF000000, 0x00000010, 0x0000FFF0, 0x00000004, 0x0000000E, 0x0000000F],
      let w : CmdWord := BitVec.ofNat 32 x
      let s := idleS 0 0 [req w 0 0] [.port 0 0]
      (s.cfg.wf = true ∧ s.booted = true ∧ s.schedule = .port 0 0 :: [] ∧ (s.port 0).state = .idle ∧
        (s.port 0).queue = req w 0 0 :: []) ∧
      (w.toNat / 2 ^ 24 ≠ 0 ∨ w.toNat / 2 ^ 4 % 2 ^ 12 ≠ 0 ∨ (w.toNat % 4 ≠ 3 ∧ w.toNat / 4 % 4 ≠ 0) ∨
        (w.toNat % 4 = 3 ∧ w.toNat / 4 % 4 = 3))) ∧
    (∀ x ∈ [0x00010000, 0x00FF0000, 0x00010001, 0x00FF0001, 0x00010002, 0x0001000B],
      let w : CmdWord := BitVec.ofNat 32 x
      let s := idleS 0 0 [req w 0 0] [.port 0 0]
      (s.port 0).queue = req w 0 0 :: [] ∧
      ¬ (w.toNat / 2 ^ 24 ≠ 0 ∨ w.toNat / 2 ^ 4 % 2 ^ 12 ≠ 0 ∨ (w.toNat % 4 ≠ 3 ∧ w.toNat / 4 % 4 ≠ 0) ∨
        (w.toNat % 4 = 3 ∧ w.toNat / 4 % 4 = 3)) ∧
      (if w.toNat % 4 = 1 then s.downCount else s.upCount) ≤ wordChannel w) := by decide +kernel

theorem test_witness_StepRunsPresentedCommand :
    let s := idleS 0 0 [req 2 0 0] [.port 0 3]
    s.cfg.wf = true ∧ s.booted = true ∧ s.schedule = .port 0 3 :: [] ∧ (s.port 0).state = .idle ∧
      (s.port 0).queue = req 2 0 0 :: [] ∧ decodeWord (req 2 0 0).cmd = .ok (.upGetMode 0) := by decide +kernel

theorem test_witness_StepContinuesCommandInFlight :
    let s := (idleS 0 0 [] [.port 0 3]).goOn (.write .sample (writeL 9 .skip 10 0 0 []))
    s.cfg.wf = true ∧ s.schedule = .port 0 3 :: [] ∧
      (s.port 0).state = .busy (.write .sample (writeL 9 .skip 10 0 0 [])) := by decide +kernel

theorem test_witness_IssueIsHeldUntilBooted :
    let s := { State.reset with schedule := [.port 1 0] }
    s.cfg.wf = true ∧ s.booted = false ∧ s.schedule = .port 1 0 :: [] ∧ (s.port 1).state = .idle := by decide +kernel

theorem test_witness_OnlyIllFormedConfigurationIsRefused :
    (∃ x, step { State.reset with cfg := { Config.reference with nport := 0 } } = .refused x) ∧
      ∃ t, step State.reset = .next t := by
  refine ⟨⟨.illFormedConfig, ?_⟩, ⟨State.reset, ?_⟩⟩
  · exact if_neg (by decide +kernel)
  · exact if_pos (by decide +kernel)

/-- Cursors in range at both ends, for size 16 and for size 1. -/
theorem test_witness_ring_arithmetic :
    ((0 < 16 ∧ 9 < 16) ∧ (15 < 16 ∧ 0 < 16) ∧ (0 < 1 ∧ 0 < 1)) ∧ ((10 < 16 ∧ 6 ≤ 16 - 1) ∧ (15 < 16 ∧ 15 ≤ 16 - 1)) ∧
      (6 < chunkRun1 9 7 16 ∧ chunkRun1 9 8 16 ≤ 7 ∧ 7 < 8 ∧ 7 ≤ 16 - 9) ∧
      (6 ≤ ringFree 0 9 16 ∧ 9 ≤ ringAvailable 9 0 16) := by decide

/-- Each check of UP_WRITE fails first in some state (the vectors FV-2, FV-12, FV-13, FV-7, FV-10, FV-8 and a bad own
cursor), and a state passes them all. -/
theorem test_witness_UpWriteIssueChecksThenLatches :
    let s := idleS 0 0 [] []
    (s.cur.state = .idle ∧ s.cfg.upCountAddr + s.cfg.W ≤ s.cfg.space ∧ s.upCount ≤ 1) ∧
    (s.descUp 0 + 6 * s.cfg.W ≤ s.cfg.space ∧ firstFailing (s.writeChecks 0) = none) ∧
    (s.descUp 1 + 6 * s.cfg.W ≤ s.cfg.space ∧ firstFailing (s.writeChecks 1) = some .chRange) ∧
    firstFailing ((s.putWord 0x20000020 0).writeChecks 0) = some .sizeZero ∧
    firstFailing ((s.putWord 0x2000001C 0xFFFFFFF8).writeChecks 0) = some .bufferRange ∧
    firstFailing ((s.putWord 0x20000024 16).writeChecks 0) = some .cursorRange ∧
    firstFailing ((s.putWord 0x2000002C 3).writeChecks 0) = some .modeReserved ∧
    firstFailing ((booted s.mem (port 0 0xFFFFFFF0 0x20 []) []).writeChecks 0) = some .addrRange ∧
    firstFailing ((booted s.mem (port 0 0x20000108 4 []) []).writeChecks 0) = some .payloadOverlap ∧
    firstFailing ((booted s.mem (port 0 0xFFFFFFF0 0x10 []) []).writeChecks 0) = none := by decide +kernel

/-- A race: port 0 has the channel in flight, port 1 is the current port (FV-5, FV-6). -/
theorem test_witness_races :
    let s := { (idleS 0 0 [] []).goOn (.write .sample (writeL 9 .skip 10 0 0 [])) with active := 1 }
    let r := { (idleS 0 1 [] []).goOn (.read .sample (readL 14 10 0 [])) with active := 1 }
    (s.cur.state = .idle ∧ firstFailing (s.writeChecks 0) = some .channelRace ∧
      firstFailing (s.setModeChecks 0) = some .modeRace ∧ firstFailing (s.getModeChecks 0) = none) ∧
    (r.cur.state = .idle ∧ firstFailing (r.readChecks 0) = some .channelRace ∧ firstFailing (r.setModeChecks 0) = none) := by
  decide +kernel

/-- The sample step: a bad peer cursor, nothing left, room for all, SKIP, TRIM and BLOCK without room for all, TRIM and BLOCK
with no room at all. -/
theorem test_witness_UpWriteSampleSizesChunkByMode :
    let at_ := fun (w r : Byte) (l : WriteLatch) =>
      (booted (image w r 0 0 0) (port 0 0x20001000 10 []) []).goOn (.write .sample l)
    let f := fun (w r : Byte) (l : WriteLatch) => ringFree ((at_ w r l).readOffset l.d) l.cur l.size
    (∀ l ∈ [writeL 9 .skip 0 0 0 [], writeL 9 .skip 6 0 0 [], writeL 9 .skip 7 0 0 [], writeL 9 .trim 7 0 0 [],
        writeL 9 .block 7 0 0 []],
      (at_ 9 0 l).cur.state = .busy (.write .sample l) ∧
        (at_ 9 0 l).readOffsetField l.d + (at_ 9 0 l).cfg.W ≤ (at_ 9 0 l).cfg.space ∧
        (at_ 9 0 l).readOffset l.d < l.size ∧ (at_ 9 16 l).readOffset l.d ≥ l.size) ∧
    (writeL 9 .skip 0 0 0 []).len - 0 = 0 ∧
    f 9 0 (writeL 9 .skip 6 0 0 []) ≥ 6 ∧
    (f 9 0 (writeL 9 .skip 7 0 0 []) < 7 ∧ (writeL 9 .skip 7 0 0 []).mode = .skip) ∧
    (0 < f 9 0 (writeL 9 .trim 7 0 0 []) ∧ f 9 0 (writeL 9 .trim 7 0 0 []) < 7) ∧
    f 15 0 (writeL 15 .trim 1 0 0 []) = 0 ∧ f 15 0 (writeL 15 .block 1 0 0 []) = 0 := by decide +kernel

theorem test_witness_UpWriteCopiesAnyPendingByte :
    let l := writeL 9 .skip 10 0 10 [0, 7, 9]
    let s := (idleS 0 0 [] []).goOn (.write .copy l)
    s.cur.state = .busy (.write .copy l) ∧ l.pending ≠ [] ∧
      (∀ k ∈ l.pending, l.addr + l.done + k < s.cfg.space ∧ l.buf + (l.cur + k) % l.size < s.cfg.space) := by
  decide +kernel

/-- A publish that ends a TRIM write, one after which a BLOCK write goes on, and one that ends a BLOCK write. -/
theorem test_witness_UpWritePublishesThenCompletes :
    (∀ l ∈ [writeL 9 .trim 10 0 6 [], writeL 9 .block 10 0 6 [], writeL 15 .block 10 6 4 []],
      let s := (idleS 0 0 [] []).goOn (.write .publish l)
      s.cur.state = .busy (.write .publish l) ∧ s.writeOffsetField l.d + s.cfg.W ≤ s.cfg.space) ∧
    (writeL 9 .trim 10 0 6 []).mode ≠ .block ∧ 0 + 6 < (writeL 9 .block 10 0 6 []).len ∧
    (writeL 15 .block 10 6 4 []).len ≤ 6 + 4 := by decide +kernel

theorem test_witness_UpWriteCopyOrderDoesNotMatter :
    let l := writeL 12 .skip 8 0 8 [0, 3, 4, 7]
    let s := (idleS 0 0 [] [.port 0 3, .port 0 1, .port 0 9, .port 0 0]).goOn (.write .copy l)
    s.cfg.wf = true ∧ (s.port 0).state = .busy (.write .copy l) ∧ l.pending ≠ [] ∧ l.pending.Nodup ∧
      (∀ k ∈ l.pending, k < l.n) ∧ l.n < l.size ∧ l.buf + l.size ≤ s.cfg.space ∧
      l.addr + l.done + l.n ≤ s.cfg.space ∧
      (l.addr + l.done + l.n ≤ l.buf ∨ l.buf + l.size ≤ l.addr + l.done) ∧
      [3, 1, 9, 0].length = l.pending.length ∧ s.schedule = [3, 1, 9, 0].map (Move.port 0) ++ [] := by decide +kernel

/-- What `UpWriteAlonePlacesWhatFits` asks of the state, but for the two invariants and the other ports. -/
abbrev WriteAlone (s : State) (m : Mode) (len n : Nat) (picks : List Nat) : Prop :=
  s.cfg.wf = true ∧ s.booted = true ∧ s.cfg.up[0]? = some Config.reference.up[0] ∧ (s.port 0).state = .idle ∧
    (s.port 0).queue = req 0 0x20001000 len :: [] ∧ (req 0 0x20001000 len).cmd = encode (.upWrite 0) ∧
    0x20001000 + len ≤ s.cfg.space ∧
    s.cfg.regions.any (fun x => Config.Region.meets (0x20001000, len) x) = false ∧
    flagsMode (s.wordAt (s.flagsField (s.descUp 0))) = some m ∧
    (m = .block → len ≤ ringFree (s.readOffset (s.descUp 0)) (s.writeOffset (s.descUp 0)) 16) ∧
    n = chunk m (ringFree (s.readOffset (s.descUp 0)) (s.writeOffset (s.descUp 0)) 16) len ∧
    picks.length = (if n = 0 then 2 else n + 3) ∧ s.schedule = picks.map (Move.port 0) ++ []

/-- UW-1 (SKIP, nothing fits), UW-2 (TRIM), and a BLOCK write that fits exactly. -/
theorem test_witness_UpWriteAlonePlacesWhatFits :
    let skip := idleS 0 0 [req 0 0x20001000 10] ([0, 0].map (Move.port 0))
    let trim := idleS 1 0 [req 0 0x20001000 10] ([0, 0, 5, 1, 3, 2, 1, 0, 0].map (Move.port 0))
    let block := idleS 2 0 [req 0 0x20001000 6] ([0, 0, 5, 1, 3, 2, 1, 0, 0].map (Move.port 0))
    (skip.Sound ∧ skip.Channels ∧ (∀ q, q ≠ 0 → (skip.port q).latches .up 0 = false) ∧
      WriteAlone skip .skip 10 0 [0, 0]) ∧
    (trim.Sound ∧ trim.Channels ∧ (∀ q, q ≠ 0 → (trim.port q).latches .up 0 = false) ∧
      WriteAlone trim .trim 10 6 [0, 0, 5, 1, 3, 2, 1, 0, 0]) ∧
    (block.Sound ∧ block.Channels ∧ (∀ q, q ≠ 0 → (block.port q).latches .up 0 = false) ∧
      WriteAlone block .block 6 6 [0, 0, 5, 1, 3, 2, 1, 0, 0]) := by
  refine ⟨⟨(idleS_ok ok_skip _ _).sound, (idleS_ok ok_skip _ _).channels, fun q _ => (idleS_ok ok_skip _ _).no_latch _ _ q, ?_⟩,
    ⟨(idleS_ok ok_trim _ _).sound, (idleS_ok ok_trim _ _).channels, fun q _ => (idleS_ok ok_trim _ _).no_latch _ _ q, ?_⟩,
    ⟨(idleS_ok ok_block _ _).sound, (idleS_ok ok_block _ _).channels, fun q _ => (idleS_ok ok_block _ _).no_latch _ _ q, ?_⟩⟩
  all_goals decide +kernel

/-- The latches of a write in its publish phase, in order. -/
theorem publish_ok (cur len done n : Nat) (m : Mode) (h : cur < 16 ∧ len ≤ 10 ∧ 0 < n ∧ n < 16 ∧ done + n ≤ len)
    (h1 : m ≠ .block → done = 0) (h2 : m = .skip → n = len)
    (h3 : Config.reference.regions.any (fun r => Config.Region.meets (0x20001000, len) r) = false) :
    (writeL cur m len done n []).Ok Config.reference .publish where
  chFits := show 0 < 256 by decide
  curInRange := h.1
  bufferInside := show 0x20000100 + 16 ≤ Config.reference.space by decide +kernel
  payloadInside := by
    have : Config.reference.space = 2 ^ 32 := by decide +kernel
    show 0x20001000 + len ≤ Config.reference.space
    omega
  payloadApart := h3
  doneWithin := by show done ≤ len; omega
  onePass := h1
  pendingOnce := List.nodup_nil
  pendingInChunk := fun _ h => nomatch h
  copying := by simp [writeL]
  chunkSized := fun _ => ⟨h.2.2.1, h.2.2.2.1, h.2.2.2.2⟩
  skipWhole := fun _ e => h2 e

theorem next_idle {s : State} (h : after (step s) (fun t => (t.port 0).state == .idle && t.booted) = true) :
    ∃ t, step s = .next t ∧ (t.port 0).state = .idle ∧ t.booted = true := by
  obtain ⟨t, e, h⟩ := after_next h
  simp only [Bool.and_eq_true, beq_iff_eq] at h
  exact ⟨t, e, h⟩

/-- A TRIM and a BLOCK write that complete at their publish, and a SKIP write that completes with 0 at its sample. -/
theorem test_witness_UpWriteResultByMode :
    (∃ s t l, s.Sound ∧ step s = .next t ∧ (s.port 0).state = .busy (.write .publish l) ∧ l.mode = .trim ∧
      (t.port 0).state = .idle ∧ t.booted = true) ∧
    (∃ s t l, s.Sound ∧ step s = .next t ∧ (s.port 0).state = .busy (.write .publish l) ∧ l.mode = .block ∧
      (t.port 0).state = .idle ∧ t.booted = true) ∧
    (∃ s t l, s.Sound ∧ step s = .next t ∧ (s.port 0).state = .busy (.write .publish l) ∧ l.mode = .skip ∧
      (t.port 0).state = .idle ∧ t.booted = true) := by
  refine ⟨?_, ?_, ?_⟩
  · have hs := (idleS_ok ok_trim [] [.port 0 0]).writing
      (publish_ok 9 10 0 6 .trim (by decide) (by simp) (by simp) (by decide +kernel)) (by decide +kernel) (by decide +kernel)
    obtain ⟨t, e, h⟩ := next_idle (s := (idleS 1 0 [] [.port 0 0]).goOn (.write .publish (writeL 9 .trim 10 0 6 [])))
      (by decide +kernel)
    exact ⟨_, t, _, hs.1, e, rfl, rfl, h⟩
  · have hs := (idleS_ok ok_block [] [.port 0 0]).writing
      (publish_ok 9 10 6 4 .block (by decide) (by simp) (by simp) (by decide +kernel)) (by decide +kernel) (by decide +kernel)
    obtain ⟨t, e, h⟩ := next_idle (s := (idleS 2 0 [] [.port 0 0]).goOn (.write .publish (writeL 9 .block 10 6 4 [])))
      (by decide +kernel)
    exact ⟨_, t, _, hs.1, e, rfl, rfl, h⟩
  · have ok : IdleOk (booted (image 0 0 2 14 0) (port 0 0x20001000 10 []) [.port 0 0]) := by decide +kernel
    have hs := ok.writing
      (publish_ok 0 10 0 10 .skip (by decide) (by simp) (by simp) (by decide +kernel)) (by decide +kernel) (by decide +kernel)
    obtain ⟨t, e, h⟩ := next_idle
      (s := (booted (image 0 0 2 14 0) (port 0 0x20001000 10 []) [.port 0 0]).goOn
        (.write .publish (writeL 0 .skip 10 0 10 []))) (by decide +kernel)
    exact ⟨_, t, _, hs.1, e, rfl, rfl, h⟩

/-- The latches of a BLOCK write that holds, in order (UW-3 after its first pass). -/
theorem hold_ok : (writeL 15 .block 10 6 6 []).Ok Config.reference .sample where
  chFits := by decide
  curInRange := by decide
  bufferInside := by decide +kernel
  payloadInside := by decide +kernel
  payloadApart := by decide +kernel
  doneWithin := by decide
  onePass := by decide
  pendingOnce := by decide
  pendingInChunk := by decide
  copying := by decide
  chunkSized := by decide
  skipWhole := by decide

/-- A BLOCK write that holds: full, with room, with a bad peer cursor; and the host consume that lifts the hold. -/
theorem test_witness_BlockWriteHoldsUntilHostConsumes :
    (let l := writeL 15 .block 10 6 6 []
      let s := fun r => (booted (image 15 r 2 14 2) (port 0 0x20001000 10 []) []).goOn (.write .sample l)
      (s 0).cur.state = .busy (.write .sample l) ∧ l.mode = .block ∧ l.done < l.len ∧
        (s 0).readOffsetField l.d + (s 0).cfg.W ≤ (s 0).cfg.space ∧
        ((s 0).readOffset l.d < l.size ∧ ringFree ((s 0).readOffset l.d) l.cur l.size = 0) ∧
        ((s 4).readOffset l.d < l.size ∧ 1 ≤ ringFree ((s 4).readOffset l.d) l.cur l.size) ∧
        (s 17).readOffset l.d ≥ l.size) ∧
    (∃ s t : State, s.Sound ∧ s.Channels ∧ s.booted = true ∧ s.holds 0 ∧ step s = .next t ∧ t.booted = true ∧
      ¬ t.holds 0) := by
  refine ⟨by decide +kernel, ?_⟩
  have ok : IdleOk (booted (image 15 0 2 14 2) (port 0 0x20001000 10 []) [.host (.upConsume 0 4)]) := by decide +kernel
  have hs := ok.writing hold_ok (by decide +kernel) (by decide +kernel)
  obtain ⟨t, e, h⟩ := after_next
    (o := step ((booted (image 15 0 2 14 2) (port 0 0x20001000 10 []) [.host (.upConsume 0 4)]).goOn
      (.write .sample (writeL 15 .block 10 6 6 []))))
    (P := fun t => t.booted && t.readOffset 0x20000018 == 4 &&
      (t.port 0).state == .busy (.write .sample (writeL 15 .block 10 6 6 []))) (by decide +kernel)
  simp only [Bool.and_eq_true, beq_iff_eq] at h
  refine ⟨_, t, hs.1, hs.2, rfl, ⟨writeL 15 .block 10 6 6 [], rfl, rfl, by decide, by decide +kernel, by decide +kernel⟩, e,
    h.1.1, ?_⟩
  rintro ⟨l, hl, -, -, -, hf⟩
  rw [h.2] at hl
  cases hl
  rw [show State.readOffset t (writeL 15 .block 10 6 6 []).d = 4 from h.1.2] at hf
  revert hf
  decide

/-- Each check of DOWN_READ fails first in some state (FV-3, FV-9 and its like), and a state passes them all. -/
theorem test_witness_DownReadIssueChecksThenLatches :
    let s := idleS 0 1 [] []
    (s.cur.state = .idle ∧ s.cfg.downCountAddr + s.cfg.W ≤ s.cfg.space ∧ s.downCount ≤ 1) ∧
    (s.descDown 0 + 6 * s.cfg.W ≤ s.cfg.space ∧ firstFailing (s.readChecks 0) = none) ∧
    (s.descDown 1 + 6 * s.cfg.W ≤ s.cfg.space ∧ firstFailing (s.readChecks 1) = some .chRange) ∧
    firstFailing ((s.putWord 0x20000038 0).readChecks 0) = some .sizeZero ∧
    firstFailing ((s.putWord 0x20000034 0xFFFFFFF8).readChecks 0) = some .bufferRange ∧
    firstFailing ((s.putWord 0x20000040 16).readChecks 0) = some .cursorRange ∧
    firstFailing ((s.putWord 0x20000044 3).readChecks 0) = none ∧
    firstFailing ((booted s.mem (port 1 0xFFFFFFF0 0x20 []) []).readChecks 0) = some .addrRange ∧
    firstFailing ((booted s.mem (port 1 0x20000000 1 []) []).readChecks 0) = some .payloadOverlap := by decide +kernel

/-- A bad peer cursor, an empty channel, LEN 0, and bytes to read. -/
theorem test_witness_DownReadSampleSizesChunk :
    let at_ := fun (w : Byte) (l : ReadLatch) =>
      (booted (image 0 0 w 14 0) (port 1 0x20001000 10 []) []).goOn (.read .sample l)
    let l := readL 14 10 0 []
    (at_ 2 l).cur.state = .busy (.read .sample l) ∧
      (at_ 2 l).writeOffsetField l.d + (at_ 2 l).cfg.W ≤ (at_ 2 l).cfg.space ∧ (at_ 2 l).writeOffset l.d < l.size ∧
      (at_ 16 l).writeOffset l.d ≥ l.size ∧
      min (ringAvailable ((at_ 14 l).writeOffset l.d) l.cur l.size) l.len = 0 ∧
      min (ringAvailable ((at_ 2 l).writeOffset l.d) l.cur l.size) (readL 14 0 0 []).len = 0 ∧
      0 < min (ringAvailable ((at_ 2 l).writeOffset l.d) l.cur l.size) l.len := by decide +kernel

theorem test_witness_DownReadCopiesAnyPendingByte :
    let l := readL 14 10 4 [0, 1, 2, 3]
    let s := (idleS 0 1 [] []).goOn (.read .copy l)
    s.cur.state = .busy (.read .copy l) ∧ l.pending ≠ [] ∧
      (∀ k ∈ l.pending, l.buf + (l.cur + k) % l.size < s.cfg.space ∧ l.addr + k < s.cfg.space) := by decide +kernel

theorem test_witness_DownReadPublishesAndCompletes :
    let l := readL 14 10 4 []
    let s := (idleS 0 1 [] []).goOn (.read .publish l)
    s.cur.state = .busy (.read .publish l) ∧ s.readOffsetField l.d + s.cfg.W ≤ s.cfg.space := by decide +kernel

/-- DR-2 (4 bytes across the end) and DR-4 (LEN 0). -/
theorem test_witness_DownReadAloneCopiesOldestBytes :
    ∀ x ∈ [(10, 4, [0, 0, 3, 1, 1, 0, 0]), (0, 0, [0, 0])],
      let s := idleS 0 1 [req 1 0x20001000 x.1] (x.2.2.map (Move.port 0))
      s.Sound ∧ s.Channels ∧ (∀ q, q ≠ 0 → (s.port q).latches .down 0 = false) ∧
        (s.cfg.wf = true ∧ s.booted = true ∧ s.cfg.down[0]? = some Config.reference.down[0] ∧
          (s.port 0).state = .idle ∧ (s.port 0).queue = req 1 0x20001000 x.1 :: [] ∧
          (req 1 0x20001000 x.1).cmd = encode (.downRead 0) ∧ 0x20001000 + x.1 ≤ s.cfg.space ∧
          s.cfg.regions.any (fun r => Config.Region.meets (0x20001000, x.1) r) = false ∧
          x.2.1 = min (ringAvailable (s.writeOffset (s.descDown 0)) (s.readOffset (s.descDown 0)) 16) x.1 ∧
          x.2.2.length = (if x.2.1 = 0 then 2 else x.2.1 + 3) ∧
          s.schedule = x.2.2.map (Move.port 0) ++ []) := by
  intro x hx
  refine ⟨(idleS_ok ok_read _ _).sound, (idleS_ok ok_read _ _).channels, fun q _ => (idleS_ok ok_read _ _).no_latch _ _ q, ?_⟩
  revert x
  decide +kernel

theorem test_witness_UpGetModeReturnsModeBits :
    let s := idleS 2 2 [] []
    (s.cur.state = .idle ∧ s.cfg.upCountAddr + s.cfg.W ≤ s.cfg.space ∧ s.upCount ≤ 1) ∧
      (s.descUp 0 + 6 * s.cfg.W ≤ s.cfg.space ∧ 0 < s.upCount) ∧
      s.wordAt (s.flagsField (s.descUp 0)) % 4 ≠ 3 ∧
      (idleS 0xFFFFFFFF 2 [] []).wordAt (s.flagsField (s.descUp 0)) % 4 = 3 := by decide +kernel

theorem test_witness_UpSetModeReplacesModeBits :
    let s := idleS 2 3 [] []
    let u := { (idleS 0 0 [] []).goOn (.write .sample (writeL 9 .skip 10 0 0 [])) with active := 1 }
    (s.cfg.wf = true ∧ s.cur.state = .idle ∧ s.upCount ≤ 1 ∧ 0 < s.upCount ∧
      s.descUp 0 + 6 * s.cfg.W ≤ s.cfg.space) ∧
    (¬ ∃ q c, q ≠ s.active ∧ (s.port q).state = .busy c ∧ c.channel = (.up, 0)) ∧
    (u.cfg.wf = true ∧ u.cur.state = .idle ∧ 0 < u.upCount) ∧
    ∃ q c, q ≠ u.active ∧ (u.port q).state = .busy c ∧ c.channel = (.up, 0) := by
  refine ⟨by decide +kernel, ?_, by decide +kernel, ⟨0, _, by decide, rfl, rfl⟩⟩
  rw [← State.otherLatches_iff]
  decide +kernel

theorem test_witness_SetModeTakesEffectOnNextCommand :
    ∃ s t u : State, s.cfg.wf = true ∧ s.cur.state = .idle ∧ s.descInside (s.descUp 0) ∧
      exec (.upSetMode 0 .trim) s = .next t ∧ t.faults = s.faults ∧ u.mem = t.mem ∧ u.cfg = t.cfg ∧
      u.cur.state = .idle ∧ ∃ v ph l, exec (.upWrite 0) u = .next v ∧ v.cur.state = .busy (.write ph l) := by
  obtain ⟨t, e, h⟩ := after_next (o := exec (.upSetMode 0 .trim) (idleS 0 3 [] []))
    (P := fun t => t.faults == [] && t.cur.state == .idle &&
      after (exec (.upWrite 0) t) (fun v => v.cur.state == .busy (.write .sample (writeL 9 .trim 10 0 0 [])))) (by decide +kernel)
  simp only [Bool.and_eq_true, beq_iff_eq] at h
  obtain ⟨v, e2, h2⟩ := after_next h.2
  exact ⟨idleS 0 3 [] [], t, t, by decide +kernel, rfl, by unfold State.descInside; decide +kernel, e, h.1.1, rfl, rfl,
    h.1.2, v, _, _, e2, by simpa using h2⟩

/-- A copy step of a write and of a read keeps the command in flight; a host move is no move of the port. -/
theorem test_witness_LatchesChangeOnlyByOwnSteps :
    (∃ s t : State, step s = .next t ∧ ∃ ph l ph' l', (s.port 0).state = .busy (.write ph l) ∧
      (t.port 0).state = .busy (.write ph' l')) ∧
    (∃ s t : State, step s = .next t ∧ ∃ ph l ph' l', (s.port 0).state = .busy (.read ph l) ∧
      (t.port 0).state = .busy (.read ph' l')) ∧
    (∃ s t : State, step s = .next t ∧ (∀ pick moves, s.schedule ≠ .port 0 pick :: moves) ∧
      ∀ v moves, s.schedule ≠ .reset v :: moves) := by
  refine ⟨?_, ?_, ?_⟩
  · obtain ⟨t, e, h⟩ := after_next
      (o := step ((idleS 0 0 [] [.port 0 1]).goOn (.write .copy (writeL 0 .skip 10 0 10 [3, 4]))))
      (P := fun t => (t.port 0).state == .busy (.write .copy (writeL 0 .skip 10 0 10 [3]))) (by decide +kernel)
    exact ⟨_, t, e, _, _, _, _, rfl, by simpa using h⟩
  · obtain ⟨t, e, h⟩ := after_next
      (o := step ((idleS 0 1 [] [.port 0 1]).goOn (.read .copy (readL 14 10 4 [3, 2]))))
      (P := fun t => (t.port 0).state == .busy (.read .copy (readL 14 10 4 [3]))) (by decide +kernel)
    exact ⟨_, t, e, _, _, _, _, rfl, by simpa using h⟩
  · obtain ⟨t, e, -⟩ := after_next (o := step (idleS 0 0 [] [.host (.upConsume 0 9)])) (P := fun _ => true) (by decide +kernel)
    exact ⟨_, t, e, (fun _ _ h => nomatch h), (fun _ _ h => nomatch h)⟩

/-- Every phase of a command answers a next state, in the phase the frame distinguishes. -/
theorem test_witness_frames :
    (∀ c ∈ [InFlight.write .sample (writeL 9 .trim 10 0 0 []), .write .copy (writeL 9 .trim 10 0 6 [1]),
        .write .publish (writeL 9 .trim 10 0 6 [])],
      after (exec (.upWrite 0) ((idleS 1 0 [] []).goOn c)) (fun _ => true) = true) ∧
    (∀ c ∈ [InFlight.read .sample (readL 14 10 0 []), .read .copy (readL 14 10 4 [1]), .read .publish (readL 14 10 4 [])],
      after (exec (.downRead 0) ((idleS 0 1 [] []).goOn c)) (fun _ => true) = true) ∧
    (∀ i ∈ [Instr.upWrite 0, .downRead 0, .upGetMode 0, .upSetMode 0 .block, .upSetMode 1 .block],
      after (exec i (idleS 0 0 [] [])) (fun _ => true) = true) := by decide +kernel

/-- A state for every code of R203 but the races (for those see `test_witness_races`), and one with no failing check, for the
commands presented on port 0. -/
theorem test_witness_IssueChecksRunInPriorityOrder :
    (∀ x ∈ [(req 0x00050004 0x20001000 1, some FaultCode.illegalCmd), (req 0x00010000 0xFFFFFFF0 0x20, some .chRange),
        (req 0 0xFFFFFFF0 0x20, some .addrRange), (req 0 0x20000108 4, some .payloadOverlap), (req 0 0x20000108 0, none),
        (req 1 0x20000000 1, some .payloadOverlap), (req 2 0 0, none), (req 0x0000000B 0 0, none)],
      let s := idleS 0 0 [x.1] [.port 0 0]
      s.cfg.wf = true ∧ s.booted = true ∧ s.upCount = s.cfg.nup ∧ s.downCount = s.cfg.ndown ∧
        s.schedule = .port 0 0 :: [] ∧ (s.port 0).state = .idle ∧ (s.port 0).queue = x.1 :: [] ∧
        firstFailing (((s.turn 0 0 []).present x.1 []).issueChecks x.1.cmd) = x.2) ∧
    (∀ x ∈ [(0x20000020, 0, some FaultCode.sizeZero), (0x2000001C, 0xFFFFFFF8, some .bufferRange),
        (0x20000024, 16, some .cursorRange), (0x2000002C, 3, some .modeReserved)],
      let s := (idleS 0 0 [req 0 0x20001000 1] [.port 0 0]).putWord x.1 x.2.1
      firstFailing (((s.turn 0 0 []).present (req 0 0x20001000 1) []).issueChecks 0) = x.2.2) := by decide +kernel

/-- A step that faults, and a FAULTED port that does not move. -/
theorem test_witness_FaultHaltsPortAndWritesNothing :
    (∃ s t : State, step s = .next t ∧ (∀ v moves, s.schedule ≠ .reset v :: moves) ∧ t.faults ≠ s.faults) ∧
    (∃ s t : State, step s = .next t ∧ 0 < s.ports.length ∧ (s.port 0).state = .faulted) := by
  refine ⟨?_, ?_⟩
  · obtain ⟨t, e, h⟩ := after_next (o := step (idleS 0 0 [req 0x10 0 0] [.port 0 0]))
      (P := fun t => t.faults == [{ code := .illegalCmd, port := 0, ch := 0 }]) (by decide +kernel)
    refine ⟨idleS 0 0 [req 0x10 0 0] [.port 0 0], t, e, (fun _ _ h => nomatch h), ?_⟩
    rw [beq_iff_eq.1 h]
    exact List.cons_ne_nil _ _
  · obtain ⟨t, e, -⟩ := after_next (o := step ((idleS 0 0 [] [.port 0 0]).raise .chRange 1)) (P := fun _ => true)
      (by decide +kernel)
    exact ⟨_, t, e, by decide, rfl⟩

/-- FV-4 and FV-19: a bad peer cursor at the sample step. -/
theorem test_witness_AfterIssueOnlyCursorRangeFaults :
    (let c : InFlight := .write .sample (writeL 9 .skip 10 0 0 [])
      let s := (booted (image 9 16 2 14 0) (port 0 0x20001000 10 []) []).goOn c
      s.cur.state = .busy c ∧ after (exec c.instr s) (fun t => decide (t.faults ≠ s.faults)) = true) ∧
    (let c : InFlight := .read .sample (readL 14 10 0 [])
      let s := (booted (image 9 0 20 14 0) (port 1 0x20001000 10 []) []).goOn c
      s.cur.state = .busy c ∧ after (exec c.instr s) (fun t => decide (t.faults ≠ s.faults)) = true) := by
  decide +kernel

/-- A reset of a FAULTED port, the memory it may leave, and the step that takes a port out of FAULTED. -/
theorem test_witness_ResetAbandonsEverything :
    (∃ (s t : State) (v : ResetValues), s.cfg.wf = true ∧ s.schedule = .reset v :: [] ∧ step s = .next t ∧
      0 < s.ports.length ∧ (s.port 0).state = .faulted ∧ (t.port 0).state ≠ .faulted) ∧
    (Memory.wf [(0x20000000, 0x53)] ∧ ∀ c ∈ ([(0x20000000, 0x53)] : Memory), c.1 < Config.reference.space) := by
  refine ⟨?_, by decide +kernel⟩
  obtain ⟨t, e, h⟩ := after_next
    (o := step ((idleS 0 0 [] [.reset { mem := [(5, 1)], regs := [{ cmd := 7, addr := 1, len := 2, result := 3 }] }]).raise
      .chRange 1)) (P := fun t => decide ((t.port 0).state ≠ .faulted)) (by decide +kernel)
  exact ⟨_, t, _, by decide +kernel, rfl, e, by decide, rfl, of_decide_eq_true h⟩

theorem test_witness_BootLeavesListedValues :
    let s := { State.reset with schedule := List.replicate 98 Move.boot }
    s.cfg.wf = true ∧ s.booted = false ∧ s.bootPos = 0 ∧
      s.schedule = List.replicate ((bootStores s.cfg).length + 1) Move.boot ++ [] := by decide +kernel

/-- The boot move before the signature, the first signature byte, and the last. -/
theorem test_witness_SignatureIsWrittenLast :
    ∀ x ∈ [(80, 0, 0x53), (81, 0, 0x53), (96, 15, 0)],
      let s := { State.reset with bootPos := x.1, schedule := [.boot] }
      s.cfg.wf = true ∧ s.booted = false ∧ s.schedule = .boot :: [] ∧ s.cfg.signature[x.2.1]? = some x.2.2 ∧
        (s.bootPos + s.cfg.sigLen < (bootStores s.cfg).length ∨
          s.bootPos + s.cfg.sigLen = (bootStores s.cfg).length + x.2.1) := by decide +kernel

/-- Both byte orders, at the first and the last byte of a word; and a step. -/
theorem test_witness_WordsUseConfiguredByteOrder :
    (0 < State.reset.cfg.W ∧ 3 < State.reset.cfg.W ∧ State.reset.cfg.endian = .little) ∧
    { Config.reference with endian := .big }.endian = .big ∧ ∃ t, step State.reset = .next t := by
  refine ⟨by decide, rfl, ⟨State.reset, if_pos (by decide +kernel)⟩⟩

theorem test_witness_StoredWordReadsBack :
    ¬ State.reset.inWord 0x20000024 0x20000028 ∧ State.reset.mem.wf ∧ (image 0 0 0 0 0).wf := by
  refine ⟨by unfold State.inWord; decide, by decide, by decide +kernel⟩

theorem test_witness_HostReadsBytesAndAlignedWords :
    Config.reference.wf = true ∧ 0xFFFFFFFF < Config.reference.space ∧
      (0xFFFFFFFC % Config.reference.W = 0 ∧ 0xFFFFFFFC + Config.reference.W ≤ Config.reference.space) ∧
      ((2 : Nat) ≠ 1 ∧ 2 ≠ Config.reference.W) ∧ 0xFFFFFFFE % Config.reference.W ≠ 0 ∧
      (idleS 0 0 [] [.host (.read 0x20000024 4)]).schedule = .host (.read 0x20000024 4) :: [] := by decide +kernel

/-- HS-1 (all that is available) and HS-2 (one more). -/
theorem test_witness_HostConsumeAdvancesReadOffset :
    let s := fun k => idleS 0 0 [] [.host (.upConsume 0 k)]
    (∀ k, (s k).Channels) ∧ (s 9).cfg.wf = true ∧ (s 9).cfg.up[0]? = some Config.reference.up[0] ∧
      (s 9).schedule = .host (.upConsume 0 9) :: [] ∧
      9 ≤ ringAvailable ((s 9).writeOffset ((s 9).descUp 0)) ((s 9).readOffset ((s 9).descUp 0)) 16 ∧
      ringAvailable ((s 9).writeOffset ((s 9).descUp 0)) ((s 9).readOffset ((s 9).descUp 0)) 16 < 10 := by
  refine ⟨fun k => (idleS_ok ok_skip _ _).channels, ?_⟩
  decide +kernel

/-- Down w = 2, r = 14 leave 11 bytes free: the last slot and one more, 11 bytes and one more. -/
theorem test_witness_HostFillsThenPublishesDownChannel :
    let s := fun h => idleS 0 0 [] [.host h]
    (∀ h, (s h).Channels) ∧ ∀ h ∈ [HostStep.downData 0 10 0xFF, .downData 0 11 0xFF, .downPublish 0 11, .downPublish 0 12],
      (s h).cfg.wf = true ∧ (s h).cfg.down[0]? = some Config.reference.down[0] ∧ (s h).schedule = .host h :: [] ∧
        ringFree ((s h).readOffset ((s h).descDown 0)) ((s h).writeOffset ((s h).descDown 0)) 16 = 11 := by
  refine ⟨fun h => (idleS_ok ok_skip _ _).channels, ?_⟩
  decide +kernel

/-- Each of the three host writes changes a byte. -/
theorem test_witness_HostWritesOnlyItsOwnPlaces :
    ∀ x ∈ [(HostStep.upConsume 0 9, 0x20000028), (.downPublish 0 11, 0x2000003C), (.downData 0 10 0xFF, 0x2000020C)],
      ∃ (s t : State), s.schedule = .host x.1 :: [] ∧ step s = .next t ∧
        t.byteAt x.2 ≠ s.byteAt x.2 := by
  intro x hx
  have h : ∀ x ∈ [(HostStep.upConsume 0 9, 0x20000028), (.downPublish 0 11, 0x2000003C),
      (.downData 0 10 0xFF, 0x2000020C)],
      after (step (idleS 0 0 [] [.host x.1])) (fun t => decide (t.byteAt x.2 ≠ (idleS 0 0 [] []).byteAt x.2)) = true := by
    decide +kernel
  obtain ⟨t, e, h⟩ := after_next (h x hx)
  exact ⟨_, t, rfl, e, of_decide_eq_true h⟩

/-- With the signature present but 0 stored as `max_up_channels`, where `Desc(DOWN, 0)` of R72 is up channel 0's descriptor, the
host has no step on the down channel (R176). -/
theorem test_host_needs_configured_count :
    ∀ h ∈ [HostStep.downPublish 0 3, .downData 0 0 0xFF],
      let s := { (idleS 0 0 [] [.host h]).putWord 0x20000010 0 with booted := false }
      s.signaturePresent = true ∧ s.descDown 0 = s.descUp 0 ∧ after (step s) (fun t => t.mem == s.mem) = true := by
  decide +kernel

theorem test_witness_RequesterStoresOnlyOutsideTheBlock :
    ∃ (s t : State), s.cfg.wf = true ∧ s.schedule = .requester 0 0x20001000 0x99 :: [] ∧ step s = .next t ∧
      t.byteAt 0x20001000 ≠ s.byteAt 0x20001000 := by
  obtain ⟨t, e, h⟩ := after_next (o := step (idleS 0 0 [] [.requester 0 0x20001000 0x99]))
    (P := fun t => t.byteAt 0x20001000 == 0x99) (by decide +kernel)
  refine ⟨_, t, by decide +kernel, rfl, e, ?_⟩
  rw [beq_iff_eq.1 h]
  decide +kernel

theorem test_witness_StepKeepsSound : ∃ s t : State, s.Sound ∧ step s = .next t := by
  obtain ⟨t, e, -⟩ := after_next (o := step (idleS 0 0 [req 0 0x20001000 6] [.port 0 0])) (P := fun _ => true)
    (by decide +kernel)
  exact ⟨_, t, (idleS_ok ok_skip _ _).sound, e⟩

/-- A publish, the step that moves a cursor, from a state in order. -/
theorem test_witness_StepKeepsChannels :
    ∃ s t : State, s.Sound ∧ s.Channels ∧ s.booted = true ∧ step s = .next t ∧ t.booted = true := by
  have hs := (idleS_ok ok_trim [] [.port 0 0]).writing
    (publish_ok 9 10 0 6 .trim (by decide) (by simp) (by simp) (by decide +kernel)) (by decide +kernel) (by decide +kernel)
  obtain ⟨t, e, h⟩ := next_idle (s := (idleS 1 0 [] [.port 0 0]).goOn (.write .publish (writeL 9 .trim 10 0 6 [])))
    (by decide +kernel)
  exact ⟨_, t, hs.1, hs.2, rfl, e, h.2⟩

theorem test_witness_SafeStateAlwaysSteps : (idleS 0 0 [] [.port 0 0]).cfg.wf = true ∧ (idleS 0 0 [] [.port 0 0]).Safe :=
  ⟨by decide +kernel, (idleS_ok ok_skip _ _).sound, fun _ => (idleS_ok ok_skip _ _).channels⟩

/-- The latches of a write in its copy phase, in order. -/
theorem copy_ok : (writeL 9 .trim 10 0 6 [2]).Ok Config.reference .copy where
  chFits := by decide
  curInRange := by decide
  bufferInside := by decide +kernel
  payloadInside := by decide +kernel
  payloadApart := by decide +kernel
  doneWithin := by decide
  onePass := by decide
  pendingOnce := by decide
  pendingInChunk := by decide
  copying := by decide
  chunkSized := by decide
  skipWhole := by decide

/-- A copy step that changes a byte of the up buffer, beside unread bytes of both channels. -/
theorem test_witness_PortsKeepWhatHostReliesOn :
    ∃ s t : State, s.Sound ∧ s.Channels ∧ s.booted = true ∧ s.schedule = .port 0 0 :: [] ∧ step s = .next t ∧
      s.cfg.up[0]? = some Config.reference.up[0] ∧
      8 < ringAvailable (s.writeOffset (s.descUp 0)) (s.readOffset (s.descUp 0)) 16 ∧
      t.byteAt 0x2000010B ≠ s.byteAt 0x2000010B ∧ s.cfg.down[0]? = some Config.reference.down[0] ∧
      0 < s.cfg.nup ∧ 0 < s.cfg.ndown := by
  have hs := (idleS_ok ok_trim [] [.port 0 0]).writing copy_ok (by decide +kernel) (by decide +kernel)
  obtain ⟨t, e, h⟩ := after_next
    (o := step ((idleS 1 0 [] [.port 0 0]).goOn (.write .copy (writeL 9 .trim 10 0 6 [2]))))
    (P := fun t => t.byteAt 0x2000010B == 0x43) (by decide +kernel)
  refine ⟨_, t, hs.1, hs.2, rfl, rfl, e, rfl, by decide +kernel, ?_, rfl, by decide, by decide⟩
  rw [beq_iff_eq.1 h]
  decide +kernel

/-- A step that changes each of the words whose writer the statement names: the two cursors of both channels and the up
channel's flags. -/
theorem test_witness_EachCursorHasOneWriter :
    (∀ s ∈ [(idleS 1 0 [] [.port 0 0]).goOn (.write .publish (writeL 9 .trim 10 0 6 []))],
      after (step s) (fun t => t.booted && decide (t.wordAt 0x20000024 ≠ s.wordAt 0x20000024)) = true) ∧
    (∀ s ∈ [(idleS 0 1 [] [.port 0 0]).goOn (.read .publish (readL 14 10 4 []))],
      after (step s) (fun t => t.booted && decide (t.wordAt 0x20000040 ≠ s.wordAt 0x20000040)) = true) ∧
    (∀ x ∈ [(Move.host (.upConsume 0 9), 0x20000028), (.host (.downPublish 0 11), 0x2000003C), (.port 0 0, 0x2000002C)],
      after (step (idleS 0 0 [req 0x0000000B 0 0] [x.1]))
        (fun t => t.booted && decide (t.wordAt x.2 ≠ (idleS 0 0 [] []).wordAt x.2)) = true) ∧
    (idleS 0 0 [] []).Sound ∧ (idleS 0 0 [] []).Channels := by
  refine ⟨by decide +kernel, by decide +kernel, by decide +kernel, ok_skip.sound, ok_skip.channels⟩

theorem test_witness_AccessOutsideAddressSpaceStops :
    State.reset.cfg.space < 0xFFFFFFFD + State.reset.cfg.W ∧ State.reset.cfg.space ≤ 0x100000000 := by decide +kernel

theorem test_witness_FaultLogIsAppendOnly :
    (∃ t, step (idleS 0 0 [req 0x10 0 0] [.port 0 0]) = .next t) ∧
      ∃ t, step (idleS 0 0 [] [.reset { mem := [], regs := [] }]) = .next t := by
  obtain ⟨t, e, -⟩ := after_next (o := step (idleS 0 0 [req 0x10 0 0] [.port 0 0])) (P := fun _ => true) (by decide +kernel)
  obtain ⟨u, e2, -⟩ := after_next (o := step (idleS 0 0 [] [.reset { mem := [], regs := [] }])) (P := fun _ => true)
    (by decide +kernel)
  exact ⟨⟨t, e⟩, ⟨u, e2⟩⟩

/-- A final state and its port and host moves; a fault state at which a run is judged; a stuck state; a request that waits. -/
theorem test_witness_FinalStatesAreAtRest :
    (∀ mv ∈ [Move.port 0 0, .host (.upConsume 0 9)],
      (idleS 0 0 [] [mv]).final ∧ after (step (idleS 0 0 [] [mv])) (fun _ => true) = true) ∧
    ((idleS 0 0 [] []).Sound ∧ (idleS 0 0 [] []).judged) ∧
    (((idleS 0 0 [] []).raise .chRange 1).judged ∧ ((idleS 0 0 [] []).raise .chRange 1).faultState) ∧
    ((booted (image 15 0 2 14 2) (port 0 0x20001000 10 []) []).goOn
      (.write .sample (writeL 15 .block 10 6 6 []))).stuck ∧ ((idleS 0 0 [req 2 0 0] []).port 0).queue ≠ [] := by
  refine ⟨fun mv hm => ⟨(final_iff _).2 (by exact (by decide +kernel : (∀ q ∈ (idleS 0 0 [] []).ports,
      q.queue = [] ∧ q.state = .idle) ∧ (idleS 0 0 [] []).faults = [])), ?_⟩, ⟨ok_skip.sound, (judged_iff _).2 (by decide +kernel)⟩,
    ⟨(judged_iff _).2 (by decide +kernel), 0, by decide, rfl⟩,
    ⟨0, writeL 15 .block 10 6 6 [], rfl, rfl, by decide, by decide +kernel, by decide +kernel⟩, by decide⟩
  revert mv
  decide +kernel

end Sys2Proof.Tests
end

/-! ## Configurations (00_scope.md R7, R8): each check of `Config.wf`, as the rule states it -/

namespace Sys2Proof.Config

/-- `Region.meets` is the inequality form of R8's "a byte in common"; a region without bytes meets none. -/
theorem Region.meets_eq_false_iff {x y : Region} :
    Region.meets x y = false ↔ ∀ a, ¬ ((x.1 ≤ a ∧ a < x.1 + x.2) ∧ (y.1 ≤ a ∧ a < y.1 + y.2)) := by
  simp only [Region.meets, Bool.and_eq_false_iff, decide_eq_false_iff_not]
  constructor
  · intro h a
    simp only [Addr] at *
    omega
  · intro h
    -- the only candidate for a common byte is the greater of the two first addresses
    have hmax := h (max x.1 y.1)
    simp only [Addr] at *
    omega

variable {c : Config}

theorem wordSizeOk_iff : c.wordSizeOk = true ↔ c.W = 4 ∨ c.W = 8 := by
  simp [wordSizeOk]

theorem signatureOk_iff :
    c.signatureOk = true ↔ 0 < c.sigLen ∧ c.sigLen % c.W = 0 ∧ ∀ b ∈ c.signature, b.toNat < 128 := by
  simp [signatureOk, and_assoc]

theorem channelOk_iff {ch : Channel} :
    c.channelOk ch = true ↔ 1 ≤ ch.size ∧ ch.size ≤ c.space - 1 ∧ ch.name < c.space := by
  simp [channelOk, and_assoc, Nat.le_sub_one_iff_lt c.space_pos]

theorem channelsOk_iff :
    c.channelsOk = true ↔ ∀ ch ∈ c.up.map (fun x => x.toChannel) ++ c.down,
      1 ≤ ch.size ∧ ch.size ≤ c.space - 1 ∧ ch.name < c.space := by
  simp only [channelsOk, Bool.and_eq_true, List.all_eq_true, channelOk_iff, List.forall_mem_append, List.forall_mem_map]

theorem regionsInside_iff : c.regionsInside = true ↔ ∀ r ∈ c.regions, r.1 + r.2 ≤ c.space := by
  simp [regionsInside]

theorem regionsDisjoint_iff :
    c.regionsDisjoint = true ↔ c.regions.Pairwise
      (fun x y => ∀ a, ¬ ((x.1 ≤ a ∧ a < x.1 + x.2) ∧ (y.1 ≤ a ∧ a < y.1 + y.2))) := by
  simp only [regionsDisjoint, decide_eq_true_eq, Region.meets_eq_false_iff]

/-- The executable check `wf` is R8: every parameter in its range of R7, and the regions disjoint and inside the space. -/
theorem wf_iff :
    c.wf = true ↔ (c.W = 4 ∨ c.W = 8) ∧
      (0 < c.sigLen ∧ c.sigLen % c.W = 0 ∧ ∀ b ∈ c.signature, b.toNat < 128) ∧
      c.cbBase % c.W = 0 ∧ c.nup ≤ 256 ∧ c.ndown ≤ 256 ∧ 1 ≤ c.nport ∧
      (∀ ch ∈ c.up.map (fun x => x.toChannel) ++ c.down,
        1 ≤ ch.size ∧ ch.size ≤ c.space - 1 ∧ ch.name < c.space) ∧
      (∀ r ∈ c.regions, r.1 + r.2 ≤ c.space) ∧
      c.regions.Pairwise (fun x y => ∀ a, ¬ ((x.1 ≤ a ∧ a < x.1 + x.2) ∧ (y.1 ≤ a ∧ a < y.1 + y.2))) := by
  simp only [wf, baseOk, countsOk, portsOk, Bool.and_eq_true, decide_eq_true_eq, wordSizeOk_iff, signatureOk_iff,
    channelsOk_iff, regionsInside_iff, regionsDisjoint_iff]
  -- the same conjuncts in another order and grouping
  tauto

end Sys2Proof.Config

/-! ## Refusals: no meaning of a command and no agent's move refuses -/

namespace Sys2Proof.Machine

/-- The outcome is a next state or a fault. -/
def NotRefused (o : Out) : Prop := ∀ x, o ≠ .refused x

namespace NotRefused

theorem next (s : State) : NotRefused (.next s) := fun _ h => nomatch h

theorem fault (f : Fault) : NotRefused (.fault f) := fun _ h => nomatch h

theorem ite {p : Prop} [Decidable p] {o o' : Out} (h : NotRefused o) (h' : NotRefused o') :
    NotRefused (if p then o else o') := by
  split
  · exact h
  · exact h'

/-! The four accesses refuse only if what follows them does. -/

theorem load {s : State} {a : Addr} {go : Word → Out} (h : ∀ v, NotRefused (go v)) : NotRefused (s.load a go) :=
  ite (h _) (fault _)

theorem loadByte {s : State} {a : Addr} {go : Byte → Out} (h : ∀ b, NotRefused (go b)) :
    NotRefused (s.loadByte a go) :=
  ite (h _) (fault _)

theorem store {s : State} {a : Addr} {v : Word} {go : State → Out} (h : ∀ t, NotRefused (go t)) :
    NotRefused (s.store a v go) :=
  ite (h _) (fault _)

theorem storeByte {s : State} {a : Addr} {b : Byte} {go : State → Out} (h : ∀ t, NotRefused (go t)) :
    NotRefused (s.storeByte a b go) :=
  ite (h _) (fault _)

end NotRefused

/-! The phases, each check and access in the order of its definition. -/

theorem issueWrite_notRefused (ch : Nat) (s : State) : NotRefused (issueWrite ch s) := by
  refine .load fun _ => .ite (.next _) <| .ite (.next _) ?_
  refine .load fun _ => .ite (.next _) <| .load fun _ => .ite (.next _) <| .load fun _ => .ite (.next _) ?_
  refine .load fun flags => ?_
  cases flagsMode flags with
  | none => exact .next _
  | some mode => exact .ite (.next _) <| .ite (.next _) (.next _)

theorem writeSample_notRefused (l : WriteLatch) (s : State) : NotRefused (writeSample l s) :=
  .load fun _ => .ite (.next _) <| .ite (.next _) <| .ite (.next _) (.next _)

theorem writeCopy_notRefused (l : WriteLatch) (s : State) : NotRefused (writeCopy l s) :=
  .ite (.next _) <| .loadByte fun _ => .storeByte fun _ => .next _

theorem writePublish_notRefused (l : WriteLatch) (s : State) : NotRefused (writePublish l s) :=
  .store (v := ringAdvance l.cur l.n l.size) fun _ => .ite (.next _) (.next _)

theorem issueRead_notRefused (ch : Nat) (s : State) : NotRefused (issueRead ch s) := by
  refine .load fun _ => .ite (.next _) <| .ite (.next _) <| .load fun _ => ?_
  refine .load fun _ => .ite (.next _) <| .load fun _ => .ite (.next _) <| .load fun _ => .ite (.next _) ?_
  exact .ite (.next _) <| .ite (.next _) (.next _)

theorem readSample_notRefused (l : ReadLatch) (s : State) : NotRefused (readSample l s) :=
  .load fun _ => .ite (.next _) <| .ite (.next _) (.next _)

theorem readCopy_notRefused (l : ReadLatch) (s : State) : NotRefused (readCopy l s) :=
  .ite (.next _) <| .loadByte fun _ => .storeByte fun _ => .next _

theorem readPublish_notRefused (l : ReadLatch) (s : State) : NotRefused (readPublish l s) :=
  .store fun _ => .next _

/-! The commands, by the state of the port. -/

theorem execUpWrite_notRefused (ch : Nat) (s : State) : NotRefused (execUpWrite ch s) := by
  unfold execUpWrite
  split
  · exact issueWrite_notRefused ch s
  · exact writeSample_notRefused _ s
  · exact writeCopy_notRefused _ s
  · exact writePublish_notRefused _ s
  · exact .next s
  · exact .next s

theorem execDownRead_notRefused (ch : Nat) (s : State) : NotRefused (execDownRead ch s) := by
  unfold execDownRead
  split
  · exact issueRead_notRefused ch s
  · exact readSample_notRefused _ s
  · exact readCopy_notRefused _ s
  · exact readPublish_notRefused _ s
  · exact .next s
  · exact .next s

theorem execUpGetMode_notRefused (ch : Nat) (s : State) : NotRefused (execUpGetMode ch s) := by
  unfold execUpGetMode
  split
  · refine .load fun _ => .ite (.next _) <| .load fun flags => ?_
    cases flagsMode flags with
    | none => exact .next _
    | some m => exact .next _
  · exact .next s
  · exact .next s

theorem execUpSetMode_notRefused (ch : Nat) (mode : Mode) (s : State) : NotRefused (execUpSetMode ch mode s) := by
  unfold execUpSetMode
  split
  · exact .load fun _ => .ite (.next _) <| .ite (.next _) <| .load fun _ => .store fun _ => .next _
  · exact .next s
  · exact .next s

theorem exec_notRefused (i : Instr) (s : State) : NotRefused (exec i s) := by
  cases i with
  | upWrite ch => exact execUpWrite_notRefused ch s
  | downRead ch => exact execDownRead_notRefused ch s
  | upGetMode ch => exact execUpGetMode_notRefused ch s
  | upSetMode ch mode => exact execUpSetMode_notRefused ch mode s

/-! The moves. -/

theorem issueMove_notRefused (r : Request) (rest : List Request) (s : State) : NotRefused (issueMove r rest s) := by
  unfold issueMove
  split
  · exact exec_notRefused _ _
  · exact .next _

theorem portStep_notRefused (s : State) : NotRefused (portStep s) := by
  cases hst : s.cur.state with
  | idle =>
    cases hb : s.booted with
    | false => exact portStep_unbooted hst hb ▸ .next s
    | true =>
      cases hq : s.cur.queue with
      | nil => exact portStep_noRequest hst hq ▸ .next s
      | cons r rest => exact portStep_issue hst hb hq ▸ issueMove_notRefused r rest s
  | busy c => exact portStep_busy hst ▸ exec_notRefused c.instr s
  | faulted => exact portStep_faulted hst ▸ .next s

theorem runMove_notRefused (mv : Move) (s : State) : NotRefused (runMove mv s) := by
  cases mv with
  | port p pick => exact portStep_notRefused _
  | host h => exact .next _
  | requester p a b => exact .next _
  | boot => exact .next _
  | reset v => exact .next _

/-- A step refuses exactly an ill-formed configuration, and with that one reason. -/
theorem step_eq_refused_iff {s : State} {x : Refusal} :
    step s = .refused x ↔ ¬ s.cfg.wf = true ∧ x = .illFormedConfig := by
  by_cases hc : s.cfg.wf = true
  · have hstep : NotRefused (step s) := by
      cases hs : s.schedule with
      | nil => simp only [step, hc, hs, if_true]; exact .next s
      | cons mv rest => exact step_eq hc hs ▸ runMove_notRefused mv _
    exact ⟨fun h => absurd h (hstep x), fun h => absurd hc h.1⟩
  · simp [step, hc, eq_comm]

/-! ## Words in memory -/

/-- An address is no byte of a word exactly when it lies before or behind it. -/
theorem State.not_inWord_iff {s : State} {a x : Addr} : ¬ s.inWord a x ↔ x < a ∨ a + s.cfg.W ≤ x := by
  simp only [State.inWord, Addr]
  omega

end Sys2Proof.Machine

/-! ## The obligations -/

section
open Sys2Proof Sys2Proof.Machine

/-- Settles O9: `step` refuses by its check `Config.wf`, which is R8, and nothing it calls refuses. -/
theorem onlyIllFormedConfigurationIsRefused : Obligations.OnlyIllFormedConfigurationIsRefused := by
  intro s
  constructor
  · rw [step_eq_refused_iff, Config.wf_iff]
    exact and_iff_left rfl
  · intro x hx
    exact (step_eq_refused_iff.1 hx).2

/-- Settles O44: the word store's laws in either byte order, and extensionality of the canonical form. -/
theorem storedWordReadsBack : Obligations.StoredWordReadsBack := by
  constructor
  · intro s a v
    refine ⟨State.wordAt_putWord_same s a v, fun x hx => ?_, fun hm => Memory.wf_writeWord hm _ _ a v⟩
    exact State.byteAt_putWord_out s v (State.not_inWord_iff.1 hx)
  · intro s t hs ht h
    exact Memory.ext_of_wf hs ht h

end

/-! ## The boot sequence, run alone (70_reset_and_hazards.md R233) -/

namespace Sys2Proof.Machine

open State

variable {c : Config}

/-- What every store of a list keeps of memory, the whole list keeps. -/
theorem foldl_apply_keeps {α : Type} {f : Memory → α} {l : List BootStore}
    (h : ∀ st ∈ l, ∀ m, f (st.apply c m) = f m) : ∀ m, f (l.foldl (BootStore.apply c) m) = f m := by
  induction l with
  | nil => exact fun _ => rfl
  | cons st rest ih =>
    intro m
    rw [List.foldl_cons, ih fun st' hst' => h st' (List.mem_cons_of_mem _ hst'), h st List.mem_cons_self]

/-- What one store of a list sets and every other store keeps, the whole list sets, wherever that store stands. -/
theorem foldl_apply_sets {α : Type} {f : Memory → α} {l : List BootStore} {st₀ : BootStore} {y : α}
    (hmem : st₀ ∈ l) (hset : ∀ m, f (st₀.apply c m) = y) (hkeep : ∀ st ∈ l, st = st₀ ∨ ∀ m, f (st.apply c m) = f m) :
    ∀ m, f (l.foldl (BootStore.apply c) m) = y := by
  induction l with
  | nil => cases hmem
  | cons st rest ih =>
    intro m
    have hrest : ∀ st' ∈ rest, st' = st₀ ∨ ∀ m, f (st'.apply c m) = f m :=
      fun st' hst' => hkeep st' (List.mem_cons_of_mem _ hst')
    rw [List.foldl_cons]
    by_cases hr : st₀ ∈ rest
    · exact ih hr hrest _
    · have hst : st₀ = st := (List.mem_cons.1 hmem).resolve_right hr
      rw [foldl_apply_keeps fun st' hst' => (hrest st' hst').resolve_left fun e => hr (e ▸ hst'), ← hst, hset]

/-- With `n` stores to go, `n + 1` boot moves run the boot sequence to its end. -/
theorem run_boot {moves : List Move} (n : Nat) : ∀ s : State, s.cfg.wf = true → s.booted = false →
    s.bootPos + n = (bootStores s.cfg).length → s.schedule = List.replicate (n + 1) Move.boot ++ moves →
    Host.Core.run core (n + 1) s = .next { s.finishBoot with schedule := moves } := by
  induction n with
  | zero =>
    intro s hc hb hpos hs
    have hnone : (bootStores s.cfg)[s.bootPos]? = none := List.getElem?_eq_none (Nat.le_of_eq hpos.symm)
    have hstep : step s = .next { s with booted := true, schedule := moves } := by
      rw [step_eq hc hs]
      simp [runMove, bootMove, hb, hnone]
    rw [run_next hstep, run_zero]
    have hp : s.bootPos = (bootStores s.cfg).length := hpos
    simp [finishBoot, hb, hp]
  | succ n ih =>
    intro s hc hb hpos hs
    have hlt : s.bootPos < (bootStores s.cfg).length := by omega
    have hstep : step s = .next { s with
        mem := ((bootStores s.cfg)[s.bootPos]).apply s.cfg s.mem
        bootPos := s.bootPos + 1
        schedule := List.replicate (n + 1) Move.boot ++ moves } := by
      rw [step_eq hc hs]
      simp [runMove, bootMove, hb, List.getElem?_eq_getElem hlt]
    rw [run_next hstep]
    have hnext : s.bootPos + 1 + n = (bootStores s.cfg).length := by omega
    refine Eq.trans (ih _ ?_ ?_ ?_ ?_) ?_
    · exact hc
    · exact hb
    · exact hnext
    · rfl
    · simp only [finishBoot, hb, Bool.false_eq_true, if_false]
      rw [List.drop_eq_getElem_cons hlt, List.foldl_cons]

/-! ### The stores of the boot sequence -/

/-- The fields of a descriptor that boot sets for every channel, each with its value (step 3 of R233). -/
def channelFields (ch : Channel) : List (Nat × Word) := [(0, ch.name), (1, ch.buf), (2, ch.size)]

/-- Those of an up channel: the flags too. -/
def upChannelFields (ch : UpChannel) : List (Nat × Word) := channelFields ch.toChannel ++ [(5, ch.initMode.encoding)]

/-- The fields that boot sets, by descriptor slot. -/
def slotFields (c : Config) : List (List (Nat × Word)) := c.up.map upChannelFields ++ c.down.map channelFields

/-- The stores into the descriptor slots from `i` on. -/
def slotStores (c : Config) (i : Nat) (slots : List (List (Nat × Word))) : List BootStore :=
  (slots.zipIdx i).flatMap fun slot => slot.1.map fun jv => .word (fieldAddr c slot.2 jv.1) jv.2

theorem bootUp_eq (ups : List UpChannel) : ∀ i, bootUp c i ups = slotStores c i (ups.map upChannelFields) := by
  induction ups with
  | nil => exact fun _ => rfl
  | cons ch rest ih =>
    intro i
    rw [bootUp, ih]
    simp [slotStores, upChannelFields, channelFields, bootChannel, fieldAddr]

theorem bootDown_eq (downs : List Channel) : ∀ i, bootDown c i downs = slotStores c i (downs.map channelFields) := by
  induction downs with
  | nil => exact fun _ => rfl
  | cons ch rest ih =>
    intro i
    rw [bootDown, ih]
    simp [slotStores, channelFields, bootChannel, fieldAddr]

theorem bootSignature_eq (sig : List Byte) : ∀ a, bootSignature a sig =
    (sig.zipIdx a).map fun x => BootStore.byte x.2 x.1 := by
  induction sig with
  | nil => exact fun _ => rfl
  | cons b rest ih => simp [bootSignature, ih]

/-- The stores of the boot sequence after the zeros of its step 1. -/
def bootValues (c : Config) : List BootStore :=
  bootCounts c ++ slotStores c 0 (slotFields c) ++ bootSignature c.cbBase c.signature

theorem bootStores_eq (c : Config) : bootStores c = bootZeros c ++ bootValues c := by
  have hslots : slotStores c 0 (slotFields c) = bootUp c 0 c.up ++ bootDown c c.nup c.down := by
    rw [bootUp_eq, bootDown_eq, slotFields, slotStores, List.zipIdx_append, List.flatMap_append]
    simp [slotStores, Config.nup]
  rw [bootValues, hslots, bootStores]
  simp

/-- The stores after the zeros: the two counts, a field of a slot, or a byte of the signature. -/
theorem mem_bootValues {st : BootStore} : st ∈ bootValues c ↔
    (st = .word c.upCountAddr c.nup ∨ st = .word c.downCountAddr c.ndown) ∨
    (∃ i fs j v, (slotFields c)[i]? = some fs ∧ (j, v) ∈ fs ∧ st = .word (fieldAddr c i j) v) ∨
    ∃ k b, c.signature[k]? = some b ∧ st = .byte (c.cbBase + k) b := by
  have hslot : st ∈ slotStores c 0 (slotFields c) ↔
      ∃ i fs j v, (slotFields c)[i]? = some fs ∧ (j, v) ∈ fs ∧ st = .word (fieldAddr c i j) v := by
    simp only [slotStores, List.mem_flatMap, List.mem_map, Prod.exists, List.mk_mem_zipIdx_iff_getElem?]
    constructor
    · rintro ⟨fs, i, hi, j, v, hj, rfl⟩
      exact ⟨i, fs, j, v, hi, hj, rfl⟩
    · rintro ⟨i, fs, j, v, hi, hj, rfl⟩
      exact ⟨fs, i, hi, j, v, hj, rfl⟩
  have hsig : st ∈ bootSignature c.cbBase c.signature ↔
      ∃ k b, c.signature[k]? = some b ∧ st = .byte (c.cbBase + k) b := by
    simp only [bootSignature_eq, List.mem_map, Prod.exists, List.mk_mem_zipIdx_iff_le_and_getElem?_sub]
    constructor
    · rintro ⟨b, a, ⟨ha, hb⟩, rfl⟩
      exact ⟨a - c.cbBase, b, hb, by rw [Nat.add_sub_cancel' ha]⟩
    · rintro ⟨k, b, hb, rfl⟩
      exact ⟨b, c.cbBase + k, ⟨Nat.le_add_right _ _, by rwa [Nat.add_sub_cancel_left]⟩, rfl⟩
  simp only [bootValues, List.mem_append, hslot, hsig, bootCounts, List.mem_cons, List.not_mem_nil, or_false, or_assoc]

/-- A slot that boot sets is a descriptor's, and the fields set there are fields, each set once. -/
theorem slotFields_spec {i : Nat} {fs : List (Nat × Word)} (h : (slotFields c)[i]? = some fs) :
    i < c.nup + c.ndown ∧ ∀ j v, (j, v) ∈ fs → j < 6 ∧ fs.lookup j = some v := by
  refine ⟨by simpa [slotFields, Config.nup, Config.ndown] using lt_of_getElem? h, ?_⟩
  have hfs := List.mem_of_getElem? h
  simp only [slotFields, List.mem_append, List.mem_map] at hfs
  rcases hfs with ⟨ch, -, rfl⟩ | ⟨ch, -, rfl⟩
  · simp only [upChannelFields, channelFields, List.cons_append, List.nil_append, List.mem_cons, List.not_mem_nil,
      or_false, Prod.mk.injEq]
    rintro j v (⟨rfl, rfl⟩ | ⟨rfl, rfl⟩ | ⟨rfl, rfl⟩ | ⟨rfl, rfl⟩) <;> exact ⟨by decide, rfl⟩
  · simp only [channelFields, List.mem_cons, List.not_mem_nil, or_false, Prod.mk.injEq]
    rintro j v (⟨rfl, rfl⟩ | ⟨rfl, rfl⟩ | ⟨rfl, rfl⟩) <;> exact ⟨by decide, rfl⟩

/-! ### What each store leaves alone -/

/-- The store writes no byte of `[a, a + n)`. -/
def BootStore.Apart (c : Config) (a n : Nat) : BootStore → Prop
  | .byte x _ => x < a ∨ a + n ≤ x
  | .word x _ => x + c.W ≤ a ∨ a + n ≤ x

theorem BootStore.Apart.read {st : BootStore} {a n x : Nat} (h : st.Apart c a n) (h1 : a ≤ x) (h2 : x < a + n)
    (m : Memory) : (st.apply c m).read x = m.read x := by
  cases st with
  | byte y b => exact Memory.read_write_ne m b (by simp only [BootStore.Apart, Addr] at *; omega)
  | word y v => exact Memory.read_writeWord_out m _ _ v (by simp only [BootStore.Apart, Addr] at *; omega)

theorem BootStore.Apart.readWord {st : BootStore} {a : Nat} (h : st.Apart c a c.W) (m : Memory) :
    (st.apply c m).readWord c.endian c.W a = m.readWord c.endian c.W a :=
  Memory.readWord_congr _ _ _ fun _ h1 h2 => h.read h1 h2 m

/-- A store after the zeros sets this field or leaves it alone. -/
theorem bootValues_field {st : BootStore} (h : st ∈ bootValues c) {i j : Nat} (hi : i < c.nup + c.ndown) (hj : j < 6) :
    (∃ fs v, (slotFields c)[i]? = some fs ∧ (j, v) ∈ fs ∧ st = .word (fieldAddr c i j) v) ∨
      st.Apart c (fieldAddr c i j) c.W := by
  have hin := (fieldAddr_inside hi hj).1
  rcases mem_bootValues.1 h with (rfl | rfl) | ⟨i', fs, j', v, hs, hv, rfl⟩ | ⟨k, b, hk, rfl⟩
  · right; simp only [BootStore.Apart, Config.upCountAddr, Addr] at *; omega
  · right; simp only [BootStore.Apart, Config.downCountAddr, Addr] at *; omega
  · by_cases he : i = i' ∧ j = j'
    · obtain ⟨rfl, rfl⟩ := he
      exact .inl ⟨fs, v, hs, hv, rfl⟩
    · exact .inr (fieldAddr_apart c (((slotFields_spec hs).2 _ _ hv).1) hj he)
  · have := lt_of_getElem? hk
    right; simp only [BootStore.Apart, Config.sigLen, Addr] at *; omega

/-- A store after the zeros is the store of this count or leaves it alone. -/
theorem bootValues_count {st : BootStore} (h : st ∈ bootValues c) :
    (st = .word c.upCountAddr c.nup ∨ st.Apart c c.upCountAddr c.W) ∧
      (st = .word c.downCountAddr c.ndown ∨ st.Apart c c.downCountAddr c.W) := by
  rcases mem_bootValues.1 h with (rfl | rfl) | ⟨i, fs, j, v, hs, hv, rfl⟩ | ⟨k, b, hk, rfl⟩
  · refine ⟨.inl rfl, .inr ?_⟩
    simp only [BootStore.Apart, Config.upCountAddr, Config.downCountAddr, Addr]; omega
  · refine ⟨.inr ?_, .inl rfl⟩
    simp only [BootStore.Apart, Config.upCountAddr, Config.downCountAddr, Addr]; omega
  · have hin := (fieldAddr_inside (slotFields_spec hs).1 ((slotFields_spec hs).2 _ _ hv).1).1
    constructor <;> right <;> simp only [BootStore.Apart, Config.upCountAddr, Config.downCountAddr, Addr] at * <;> omega
  · have := lt_of_getElem? hk
    constructor <;> right <;>
      simp only [BootStore.Apart, Config.upCountAddr, Config.downCountAddr, Config.sigLen, Addr] at * <;> omega

/-- A store after the zeros is the store of this byte of the signature or leaves it alone. -/
theorem bootValues_signature {st : BootStore} (h : st ∈ bootValues c) {k : Nat} {b : Byte}
    (hk : c.signature[k]? = some b) : st = .byte (c.cbBase + k) b ∨ st.Apart c (c.cbBase + k) 1 := by
  have hlt := lt_of_getElem? hk
  rcases mem_bootValues.1 h with (rfl | rfl) | ⟨i, fs, j, v, hs, hv, rfl⟩ | ⟨k', b', hk', rfl⟩
  · right; simp only [BootStore.Apart, Config.upCountAddr, Config.sigLen, Addr]; omega
  · right; simp only [BootStore.Apart, Config.downCountAddr, Config.sigLen, Addr]; omega
  · have hin := (fieldAddr_inside (slotFields_spec hs).1 ((slotFields_spec hs).2 _ _ hv).1).1
    right; simp only [BootStore.Apart, Config.sigLen, Addr] at *; omega
  · by_cases he : k' = k
    · subst he
      rw [hk] at hk'
      cases hk'
      exact .inl rfl
    · right; simp only [BootStore.Apart, Addr] at *; omega

/-- A store of the boot sequence writes only inside the control block. -/
theorem bootStores_apart {st : BootStore} (h : st ∈ bootStores c) {a : Nat}
    (ha : a < c.cbBase ∨ c.cbBase + c.cbSize ≤ a) : st.Apart c a 1 := by
  have hin := boot_store_inside h
  have hlow : (∃ a b, st = .byte a b ∧ c.cbBase ≤ a) ∨ ∃ a v, st = .word a v ∧ c.cbBase ≤ a := by
    rw [bootStores_eq, List.mem_append, mem_bootValues] at h
    rcases h with h | (rfl | rfl) | ⟨i, fs, j, v, hs, hv, rfl⟩ | ⟨k, b, hk, rfl⟩
    · simp only [bootZeros, List.mem_map] at h
      obtain ⟨k, -, rfl⟩ := h
      exact .inl ⟨_, _, rfl, Nat.le_add_right _ _⟩
    · exact .inr ⟨_, _, rfl, (upCount_in c).1⟩
    · exact .inr ⟨_, _, rfl, (downCount_in c).1⟩
    · have hf := (fieldAddr_inside (slotFields_spec hs).1 ((slotFields_spec hs).2 _ _ hv).1).1
      exact .inr ⟨_, _, rfl, by simp only [Addr] at *; omega⟩
    · exact .inl ⟨_, _, rfl, Nat.le_add_right _ _⟩
  rcases hlow with ⟨x, b, rfl, hx⟩ | ⟨x, v, rfl, hx⟩ <;>
    simp only [BootStore.Inside, BootStore.Apart, Addr] at * <;> omega

/-! ### Memory after boot -/

/-- Memory after the whole boot sequence over `m`. -/
abbrev bootImage (c : Config) (m : Memory) : Memory := (bootStores c).foldl (BootStore.apply c) m

theorem bootImage_eq (m : Memory) : bootImage c m =
    (bootValues c).foldl (BootStore.apply c) ((bootZeros c).foldl (BootStore.apply c) m) := by
  rw [bootImage, bootStores_eq, List.foldl_append]

/-- Step 1 of R233 leaves every byte of the control block 0. -/
theorem bootZeros_read (m : Memory) {a : Nat} (h1 : c.cbBase ≤ a) (h2 : a < c.cbBase + c.cbSize) :
    ((bootZeros c).foldl (BootStore.apply c) m).read a = 0 := by
  refine foldl_apply_sets (f := fun m => m.read a) (st₀ := .byte a 0) ?_ (fun m => Memory.read_write_same m a 0) ?_ m
  · simp only [bootZeros, List.mem_map, List.mem_range]
    exact ⟨a - c.cbBase, by simp only [Addr] at *; omega, by rw [Nat.add_sub_cancel' h1]⟩
  · intro st hst
    simp only [bootZeros, List.mem_map] at hst
    obtain ⟨k, -, rfl⟩ := hst
    by_cases he : c.cbBase + k = a
    · exact .inl (by rw [he])
    · exact .inr fun m => Memory.read_write_ne m 0 (Ne.symm he)

/-- A word of zeros is 0. -/
theorem readWord_zeros {m : Memory} (e : Endian) (n : Nat) {a : Nat}
    (h : ∀ x, a ≤ x → x < a + n → m.read x = 0) : m.readWord e n a = 0 := by
  have hnil : ∀ n a, Memory.readWord [] e n a = 0 := by
    intro n
    induction n with
    | zero => intro a; cases e <;> rfl
    | succ n ih =>
      intro a
      cases e with
      | little => simpa [Memory.readWord, Memory.readLittle, Memory.read, unwritten] using ih (a + 1)
      | big => simpa [Memory.readWord, Memory.readBig, Memory.read, unwritten] using ih a
  rw [← hnil n a]
  exact Memory.readWord_congr e n a fun x h1 h2 => h x h1 h2

/-- After boot each descriptor field holds the value boot sets, or 0. -/
theorem bootImage_field (m : Memory) {i j : Nat} {fs : List (Nat × Word)} (hs : (slotFields c)[i]? = some fs)
    (hj : j < 6) :
    (bootImage c m).readWord c.endian c.W (fieldAddr c i j) = (fs.lookup j).getD 0 % c.space := by
  obtain ⟨hi, hfs⟩ := slotFields_spec hs
  have hat : ∀ st ∈ bootValues c, (∃ v, (j, v) ∈ fs ∧ st = .word (fieldAddr c i j) v) ∨
      st.Apart c (fieldAddr c i j) c.W := by
    intro st hst
    rcases bootValues_field hst hi hj with ⟨fs', v, hs', hv, rfl⟩ | h
    · rw [hs] at hs'
      cases hs'
      exact .inl ⟨v, hv, rfl⟩
    · exact .inr h
  rw [bootImage_eq]
  by_cases hset : ∃ v, (j, v) ∈ fs
  · obtain ⟨v, hv⟩ := hset
    rw [(hfs j v hv).2]
    refine foldl_apply_sets (f := fun m => m.readWord c.endian c.W (fieldAddr c i j))
      (mem_bootValues.2 (.inr (.inl ⟨i, fs, j, v, hs, hv, rfl⟩))) (fun m => ?_) (fun st hst => ?_) _
    · rw [space_eq]
      exact Memory.readWord_writeWord_same ..
    · rcases hat st hst with ⟨v', hv', rfl⟩ | h
      · have : v' = v := Option.some.inj ((hfs j v' hv').2.symm.trans (hfs j v hv).2)
        exact .inl (by rw [this])
      · exact .inr h.readWord
  · have hnone : fs.lookup j = none := List.lookup_eq_none_iff.2 fun jv hjv => by
      by_contra he
      exact hset ⟨jv.2, by simp at he; rw [he]; exact hjv⟩
    rw [hnone, foldl_apply_keeps (f := fun m => m.readWord c.endian c.W (fieldAddr c i j)) fun st hst => ?_]
    · have hin := fieldAddr_inside hi hj
      rw [readWord_zeros _ _ fun x h1 h2 => bootZeros_read m ?_ ?_]
      · simp
      all_goals simp only [Addr] at *; omega
    · rcases hat st hst with ⟨v, hv, -⟩ | h
      · exact absurd ⟨v, hv⟩ hset
      · exact h.readWord

/-- After boot the header holds the counts. -/
theorem bootImage_counts (m : Memory) :
    (bootImage c m).readWord c.endian c.W c.upCountAddr = c.nup % c.space ∧
      (bootImage c m).readWord c.endian c.W c.downCountAddr = c.ndown % c.space := by
  rw [bootImage_eq, space_eq]
  constructor
  · exact foldl_apply_sets (f := fun m => m.readWord c.endian c.W c.upCountAddr)
      (mem_bootValues.2 (.inl (.inl rfl))) (fun m => Memory.readWord_writeWord_same ..)
      (fun st hst => (bootValues_count hst).1.imp_right BootStore.Apart.readWord) _
  · exact foldl_apply_sets (f := fun m => m.readWord c.endian c.W c.downCountAddr)
      (mem_bootValues.2 (.inl (.inr rfl))) (fun m => Memory.readWord_writeWord_same ..)
      (fun st hst => (bootValues_count hst).2.imp_right BootStore.Apart.readWord) _

/-- The signature test in terms of each byte. -/
theorem holdsBytes_of_read {m : Memory} : ∀ {sig : List Byte} {a : Nat},
    (∀ k b, sig[k]? = some b → m.read (a + k) = b) → m.holdsBytes a sig = true := by
  intro sig
  induction sig with
  | nil => exact fun _ => rfl
  | cons b rest ih =>
    intro a h
    have hhead : m.read a = b := h 0 b rfl
    have htail : m.holdsBytes (a + 1) rest = true :=
      ih fun k b' hk => by rw [Nat.add_assoc, Nat.add_comm 1]; exact h (k + 1) b' hk
    simp [Memory.holdsBytes, hhead, htail]

/-- After boot the signature is in its place. -/
theorem bootImage_signature (m : Memory) : (bootImage c m).holdsBytes c.cbBase c.signature = true := by
  refine holdsBytes_of_read fun k b hk => ?_
  rw [bootImage_eq]
  exact foldl_apply_sets (f := fun m => m.read (c.cbBase + k))
    (mem_bootValues.2 (.inr (.inr ⟨k, b, hk, rfl⟩))) (fun m => Memory.read_write_same ..)
    (fun st hst => (bootValues_signature hst hk).imp_right fun h m =>
      h.read (Nat.le_refl _) (Nat.lt_succ_self _) m) _

/-- Boot changes no byte outside the control block. -/
theorem bootImage_outside (m : Memory) {a : Nat} (ha : a < c.cbBase ∨ c.cbBase + c.cbSize ≤ a) :
    (bootImage c m).read a = m.read a :=
  foldl_apply_keeps (f := fun m => m.read a) (fun _ hst m =>
    (bootStores_apart hst ha).read (Nat.le_refl _) (Nat.lt_succ_self _) m) m

/-! ### What R37 lists, read off that memory -/

/-- What boot stores of a channel fits a word. -/
theorem channel_fits {ch : Channel} (hok : c.channelOk ch = true) (hin : ch.buf + ch.size ≤ c.space) :
    ch.name < c.space ∧ ch.buf < c.space ∧ ch.size < c.space := by
  obtain ⟨hpos, hsize, hname⟩ := Config.channel_bounds hok
  exact ⟨hname, by simp only [Addr] at *; omega, hsize⟩

section AfterBoot

variable {t : State} {m : Memory} (hw : t.cfg.wf = true) (hm : t.mem = bootImage t.cfg m)
include hw hm

/-- The header after boot (10_state.md R37). -/
theorem header_afterBoot :
    t.signaturePresent = true ∧ t.upCount = t.cfg.nup ∧ t.downCount = t.cfg.ndown := by
  have hcounts := bootImage_counts (c := t.cfg) m
  obtain ⟨hup, hdown⟩ := Config.counts_le hw
  have hspace : 256 < t.cfg.space := by
    rw [space_eq]
    rcases Config.W_cases hw with h | h <;> rw [h] <;> decide
  rw [Nat.mod_eq_of_lt (Nat.lt_of_le_of_lt hup hspace), Nat.mod_eq_of_lt (Nat.lt_of_le_of_lt hdown hspace)] at hcounts
  rw [State.signaturePresent, State.upCount, State.downCount, State.wordAt, State.wordAt, hm]
  exact ⟨bootImage_signature m, hcounts⟩

/-- An up descriptor after boot (10_state.md R37). -/
theorem up_afterBoot {k : Nat} {ch : UpChannel} (hch : t.cfg.up[k]? = some ch) :
    t.wordAt (t.nameField (t.descUp k)) = ch.name ∧ t.wordAt (t.bufferField (t.descUp k)) = ch.buf ∧
      t.wordAt (t.sizeField (t.descUp k)) = ch.size ∧ t.writeOffset (t.descUp k) = 0 ∧
      t.readOffset (t.descUp k) = 0 ∧ t.wordAt (t.flagsField (t.descUp k)) = ch.initMode.encoding := by
  have hslot : (slotFields t.cfg)[k]? = some (upChannelFields ch) := by
    rw [slotFields, List.getElem?_append_left (by simpa using lt_of_getElem? hch), List.getElem?_map, hch]
    rfl
  have hfield : ∀ j, j < 6 → t.wordAt (fieldAddr t.cfg k j) = ((upChannelFields ch).lookup j).getD 0 % t.cfg.space :=
    fun j hj => by rw [State.wordAt, hm]; exact bootImage_field m hslot hj
  obtain ⟨hname, hbuf, hsize⟩ := channel_fits (Config.channelOk_up hw (List.mem_of_getElem? hch))
    (Config.region_inside hw (Config.bufRegions_sub (Config.upRegion_mem (List.mem_of_getElem? hch))))
  rw [State.descUp, State.writeOffset, State.readOffset, nameField_eq, bufferField_eq, sizeField_eq, writeOffsetField_eq,
    readOffsetField_eq, flagsField_eq, hfield 0, hfield 1, hfield 2, hfield 3, hfield 4, hfield 5]
  · exact ⟨Nat.mod_eq_of_lt hname, Nat.mod_eq_of_lt hbuf, Nat.mod_eq_of_lt hsize, Nat.zero_mod _, Nat.zero_mod _,
      Nat.mod_eq_of_lt (Nat.lt_trans (mode_encoding_lt _) (space_ge4 _ hw))⟩
  all_goals decide

/-- A down descriptor after boot (10_state.md R37). -/
theorem down_afterBoot {k : Nat} {ch : Channel} (hch : t.cfg.down[k]? = some ch) :
    t.wordAt (t.nameField (t.descDown k)) = ch.name ∧ t.wordAt (t.bufferField (t.descDown k)) = ch.buf ∧
      t.wordAt (t.sizeField (t.descDown k)) = ch.size ∧ t.writeOffset (t.descDown k) = 0 ∧
      t.readOffset (t.descDown k) = 0 ∧ t.wordAt (t.flagsField (t.descDown k)) = 0 := by
  have hslot : (slotFields t.cfg)[t.cfg.nup + k]? = some (channelFields ch) := by
    rw [slotFields, List.getElem?_append_right (by simp [Config.nup]), List.length_map, Config.nup,
      Nat.add_sub_cancel_left, List.getElem?_map, hch]
    rfl
  have hfield : ∀ j, j < 6 →
      t.wordAt (fieldAddr t.cfg (t.cfg.nup + k) j) = ((channelFields ch).lookup j).getD 0 % t.cfg.space :=
    fun j hj => by rw [State.wordAt, hm]; exact bootImage_field m hslot hj
  obtain ⟨hname, hbuf, hsize⟩ := channel_fits (Config.channelOk_down hw (List.mem_of_getElem? hch))
    (Config.region_inside hw (Config.bufRegions_sub (Config.downRegion_mem (List.mem_of_getElem? hch))))
  rw [State.descDown, (header_afterBoot hw hm).2.1, State.writeOffset, State.readOffset, nameField_eq, bufferField_eq,
    sizeField_eq, writeOffsetField_eq, readOffsetField_eq, flagsField_eq, hfield 0, hfield 1, hfield 2, hfield 3,
    hfield 4, hfield 5]
  · exact ⟨Nat.mod_eq_of_lt hname, Nat.mod_eq_of_lt hbuf, Nat.mod_eq_of_lt hsize, Nat.zero_mod _, Nat.zero_mod _,
      Nat.zero_mod _⟩
  all_goals decide

end AfterBoot

end Sys2Proof.Machine

/-! ## What one step of a command can do -/

namespace Sys2Proof.Machine

open State

/-- The operation on the current port that ends a step of a command. -/
inductive PortOp (s : State) : State → Prop where
  | stay : PortOp s s
  | goOn (c : InFlight) : PortOp s (s.goOn c)
  | complete (n : Word) : PortOp s (s.complete n)
  | raise (code : FaultCode) (ch : Nat) : PortOp s (s.raise code ch)

/-- A step that stores at most to the addresses of `A` and then does one operation on the current port. -/
def CommandStep (A : Addr → Prop) (s t : State) : Prop :=
  ∃ m, (∀ a, ¬ A a → m.read a = s.mem.read a) ∧ PortOp { s with mem := m } t

/-- Where a step of `i` on the current port may store: one byte in a copy phase, one word in a publish phase or for the
mode of UP_SET_MODE, nothing else (R124, R125, R142; 42_read.md R153, R154). -/
def State.touches (s : State) : Instr → Addr → Prop
  | .upWrite _, a =>
    (∃ l, s.cur.state = .busy (.write .copy l) ∧ a = writeTarget l (pickPending l.pending s.pick)) ∨
      ∃ l, s.cur.state = .busy (.write .publish l) ∧ s.inWord (s.writeOffsetField l.d) a
  | .downRead _, a =>
    (∃ l, s.cur.state = .busy (.read .copy l) ∧ a = l.addr + pickPending l.pending s.pick) ∨
      ∃ l, s.cur.state = .busy (.read .publish l) ∧ s.inWord (s.readOffsetField l.d) a
  | .upGetMode _, _ => False
  | .upSetMode ch _, a => ch < s.upCount ∧ s.inWord (s.flagsField (s.descUp ch)) a

namespace CommandStep

variable {A : Addr → Prop} {s t : State}

theorem of_op (h : PortOp s t) : CommandStep A s t := ⟨s.mem, fun _ _ => rfl, h⟩

theorem of_putByte {a : Addr} {b : Byte} (ha : A a) (h : PortOp (s.putByte a b) t) : CommandStep A s t :=
  ⟨_, fun _ hx => byteAt_putByte_ne s b fun e => hx (e ▸ ha), h⟩

theorem of_putWord {a : Addr} {v : Word} (ha : ∀ x, s.inWord a x → A x) (h : PortOp (s.putWord a v) t) :
    CommandStep A s t :=
  ⟨_, fun x hx => byteAt_putWord_out s v (not_inWord_iff.1 fun hin => hx (ha x hin)), h⟩

end CommandStep

theorem execUpWrite_step {ch : Nat} {s t : State} (h : exec (.upWrite ch) s = .next t) :
    CommandStep (s.touches (.upWrite ch)) s t := by
  rw [exec_upWrite, execUpWrite] at h
  split at h
  · rcases issueWrite_next h with ⟨code, rfl⟩ | ⟨mode, -, -, -, -, -, -, -, -, rfl⟩
    · exact .of_op (.raise ..)
    · exact .of_op (.goOn _)
  · rcases writeSample_next h with ⟨-, rfl⟩ | ⟨-, n, -, ⟨-, rfl⟩ | ⟨-, -, -, rfl⟩ | ⟨-, -, rfl⟩⟩
    · exact .of_op (.raise ..)
    · exact .of_op (.goOn _)
    · exact .of_op .stay
    · exact .of_op (.complete _)
  · next l hl =>
    rcases writeCopy_next h with ⟨-, rfl⟩ | ⟨k, -, rfl, -, rfl⟩
    · exact .of_op .stay
    · exact .of_putByte (.inl ⟨l, hl, rfl⟩) (.goOn _)
  · next l hl =>
    obtain ⟨-, u, rfl, ⟨-, -, rfl⟩ | ⟨-, rfl⟩⟩ := writePublish_next h
    · exact .of_putWord (fun x hx => .inr ⟨l, hl, hx⟩) (.goOn _)
    · exact .of_putWord (fun x hx => .inr ⟨l, hl, hx⟩) (.complete _)
  · cases h; exact .of_op .stay
  · cases h; exact .of_op .stay

theorem execDownRead_step {ch : Nat} {s t : State} (h : exec (.downRead ch) s = .next t) :
    CommandStep (s.touches (.downRead ch)) s t := by
  rw [exec_downRead, execDownRead] at h
  split at h
  · rcases issueRead_next h with ⟨code, rfl⟩ | ⟨-, -, -, -, -, -, -, rfl⟩
    · exact .of_op (.raise ..)
    · exact .of_op (.goOn _)
  · rcases readSample_next h with ⟨-, rfl⟩ | ⟨-, n, -, ⟨-, rfl⟩ | ⟨-, rfl⟩⟩
    · exact .of_op (.raise ..)
    · exact .of_op (.complete _)
    · exact .of_op (.goOn _)
  · next l hl =>
    rcases readCopy_next h with ⟨-, rfl⟩ | ⟨k, -, rfl, -, rfl⟩
    · exact .of_op .stay
    · exact .of_putByte (.inl ⟨l, hl, rfl⟩) (.goOn _)
  · next l hl =>
    obtain ⟨-, rfl⟩ := readPublish_next h
    exact .of_putWord (fun x hx => .inr ⟨l, hl, hx⟩) (.complete _)
  · cases h; exact .of_op .stay
  · cases h; exact .of_op .stay

/-- A command that issues and completes in one step takes none on a port that is not IDLE. -/
theorem exec_mode_stays {ch : Nat} {s t : State} {i : Instr} (hi : i = .upGetMode ch ∨ ∃ m, i = .upSetMode ch m)
    (hs : s.cur.state ≠ .idle) (h : exec i s = .next t) : t = s := by
  rcases hi with rfl | ⟨m, rfl⟩
  · rw [exec_upGetMode, execUpGetMode] at h
    split at h
    · exact absurd ‹_› hs
    · cases h; rfl
    · cases h; rfl
  · rw [exec_upSetMode, execUpSetMode] at h
    split at h
    · exact absurd ‹_› hs
    · cases h; rfl
    · cases h; rfl

theorem execUpGetMode_step {ch : Nat} {s t : State} (h : exec (.upGetMode ch) s = .next t) :
    CommandStep (s.touches (.upGetMode ch)) s t := by
  by_cases hs : s.cur.state = .idle
  · rcases execUpGetMode_next hs h with ⟨code, rfl⟩ | ⟨m, -, -, rfl⟩
    · exact .of_op (.raise ..)
    · exact .of_op (.complete _)
  · exact exec_mode_stays (.inl rfl) hs h ▸ .of_op .stay

theorem execUpSetMode_step {ch : Nat} {m : Mode} {s t : State} (h : exec (.upSetMode ch m) s = .next t) :
    CommandStep (s.touches (.upSetMode ch m)) s t := by
  by_cases hs : s.cur.state = .idle
  · rcases execUpSetMode_next hs h with ⟨code, rfl⟩ | ⟨hch, -, -, rfl⟩
    · exact .of_op (.raise ..)
    · exact .of_putWord (fun x hx => ⟨hch, hx⟩) (.complete _)
  · exact exec_mode_stays (.inr ⟨m, rfl⟩) hs h ▸ .of_op .stay

/-- What a step of any command can do. -/
theorem exec_step {i : Instr} {s t : State} (h : exec i s = .next t) : CommandStep (s.touches i) s t := by
  cases i with
  | upWrite ch => exact execUpWrite_step h
  | downRead ch => exact execDownRead_step h
  | upGetMode ch => exact execUpGetMode_step h
  | upSetMode ch m => exact execUpSetMode_step h

/-! ### What such a step leaves unchanged -/

/-- The frame of a step of a command but for memory (10_state.md R30). -/
structure CommandFrame (s t : State) : Prop where
  machine : t.cfg = s.cfg ∧ t.booted = s.booted ∧ t.bootPos = s.bootPos ∧ t.active = s.active ∧ t.pick = s.pick ∧
    t.schedule = s.schedule ∧ t.ports.length = s.ports.length
  otherPorts : ∀ q, q ≠ s.active → t.port q = s.port q
  registers : t.cur.cmd = s.cur.cmd ∧ t.cur.addr = s.cur.addr ∧ t.cur.len = s.cur.len ∧ t.cur.queue = s.cur.queue
  result : t.cur.state ≠ .idle → t.cur.result = s.cur.result
  faults : t.cur.state ≠ .faulted → t.faults = s.faults
  /-- The fault log only grows, by one record at most (10_state.md R34). -/
  faultLog : t.faults = s.faults ∨ ∃ r : FaultRecord, t.faults = s.faults ++ [r]

/-- Replacing the current port does nothing where there is none. -/
theorem cur_setCur_eq (s : State) (q : Port) : (s.setCur q).cur = if s.active < s.ports.length then q else s.cur := by
  show (s.setCur q).port s.active = _
  rw [port_setCur]
  simp [cur]

theorem PortOp.frame {s t : State} (h : PortOp s t) : CommandFrame s t := by
  cases h with
  | stay =>
    exact ⟨⟨rfl, rfl, rfl, rfl, rfl, rfl, rfl⟩, fun _ _ => rfl, ⟨rfl, rfl, rfl, rfl⟩, fun _ => rfl, fun _ => rfl,
      .inl rfl⟩
  | goOn c =>
    refine ⟨⟨rfl, rfl, rfl, rfl, rfl, rfl, by simp⟩, fun _ => port_goOn_ne s c, ?_, fun _ => ?_, fun _ => rfl,
      .inl rfl⟩ <;> rw [goOn_eq, cur_setCur_eq] <;> split <;> simp
  | complete n =>
    refine ⟨⟨rfl, rfl, rfl, rfl, rfl, rfl, by simp⟩, fun _ => port_complete_ne s n, ?_, fun hi => ?_, fun _ => rfl,
      .inl rfl⟩
    · rw [complete_eq, cur_setCur_eq]; split <;> simp
    · rw [complete_eq, cur_setCur_eq] at hi ⊢
      by_cases hl : s.active < s.ports.length
      · exact absurd (by rw [if_pos hl]) hi
      · rw [if_neg hl]
  | raise code ch =>
    have hcur : (s.raise code ch).cur =
        if s.active < s.ports.length then { s.cur with state := .faulted } else s.cur := cur_setCur_eq s _
    refine ⟨⟨rfl, rfl, rfl, rfl, rfl, rfl, by simp⟩, fun _ => port_raise_ne s code ch, ?_, fun _ => ?_,
      fun hlive => absurd ?_ hlive, .inr ⟨_, rfl⟩⟩ <;> rw [hcur]
    · split <;> simp
    · split <;> simp
    · split
      · rfl
      · have habsent : s.cur = Port.absent := port_absent s (Nat.le_of_not_lt ‹_›)
        rw [habsent]
        rfl

theorem PortOp.mem {s t : State} (h : PortOp s t) : t.mem = s.mem := by
  cases h <;> rfl

namespace CommandStep

variable {A : Addr → Prop} {s t : State}

theorem frame (h : CommandStep A s t) : CommandFrame s t := by
  obtain ⟨m, -, hop⟩ := h
  obtain ⟨hm, ho, hr, hres, hf, hlog⟩ := hop.frame
  exact ⟨hm, ho, hr, hres, hf, hlog⟩

theorem bytes (h : CommandStep A s t) {a : Addr} (ha : ¬ A a) : t.byteAt a = s.byteAt a := by
  obtain ⟨m, hm, hop⟩ := h
  rw [State.byteAt, hop.mem]
  exact hm a ha

end CommandStep

end Sys2Proof.Machine

/-! ## What a move of each agent leaves unchanged -/

namespace Sys2Proof.Machine

open State

/-- A port's step leaves the configuration and every other port alone and adds at most one record to the fault log. -/
theorem portStep_frame {u t : State} (h : portStep u = .next t) :
    t.cfg = u.cfg ∧ (∀ q, q ≠ u.active → t.port q = u.port q) ∧
      (t.faults = u.faults ∨ ∃ r : FaultRecord, t.faults = u.faults ++ [r]) := by
  rcases portStep_next h with ⟨rfl, -⟩ | ⟨r, rest, i, -, -, -, -, hexec⟩ | ⟨r, rest, e, -, -, -, -, rfl⟩ |
    ⟨c, -, hexec⟩
  · exact ⟨rfl, fun _ _ => rfl, .inl rfl⟩
  · have hf := (exec_step hexec).frame
    exact ⟨hf.machine.1, fun q hq => (hf.otherPorts q hq).trans (port_present_ne u r rest hq), hf.faultLog⟩
  · have hf := (PortOp.raise (s := u.present r rest) .illegalCmd (cmdCh r.cmd).toNat).frame
    exact ⟨hf.machine.1, fun q hq => (hf.otherPorts q hq).trans (port_present_ne u r rest hq), hf.faultLog⟩
  · have hf := (exec_step hexec).frame
    exact ⟨hf.machine.1, hf.otherPorts, hf.faultLog⟩

/-- The host writes memory only. -/
theorem hostMove_eq (hst : HostStep) (s : State) : ∃ m, hostMove hst s = { s with mem := m } := by
  cases hst with
  | read a n => exact ⟨s.mem, rfl⟩
  | upConsume c k =>
    rcases hostUpConsume_cases c k s with h | ⟨ch, -, -, -, -, -, -, h⟩
    · exact ⟨s.mem, h⟩
    · exact ⟨_, h⟩
  | downData c j b =>
    rcases hostDownData_cases c j b s with h | ⟨ch, -, -, -, -, -, -, h⟩
    · exact ⟨s.mem, h⟩
    · exact ⟨_, h⟩
  | downPublish c k =>
    rcases hostDownPublish_cases c k s with h | ⟨ch, -, -, -, -, -, -, -, h⟩
    · exact ⟨s.mem, h⟩
    · exact ⟨_, h⟩

/-- A requester's own store writes memory only. -/
theorem requesterMove_eq (p : Nat) (a : Addr) (b : Byte) (s : State) :
    ∃ m, requesterMove p a b s = { s with mem := m } := by
  rcases requesterMove_cases p a b s with h | ⟨-, -, -, -, h⟩
  · exact ⟨s.mem, h⟩
  · exact ⟨_, h⟩

/-- Boot leaves the configuration, the ports and the fault log alone. -/
theorem bootMove_frame (s : State) :
    (bootMove s).cfg = s.cfg ∧ (bootMove s).ports = s.ports ∧ (bootMove s).faults = s.faults := by
  rcases bootMove_cases s with ⟨-, h⟩ | ⟨st, -, -, h⟩ | ⟨-, -, h⟩ <;> rw [h] <;> exact ⟨rfl, rfl, rfl⟩

/-- A step is a port's step, a reset, or a step of another agent, which touches no port and no fault record. -/
theorem step_cases {s t : State} (h : step s = .next t) :
    (∃ p pick moves, s.schedule = .port p pick :: moves ∧ portStep (s.turn p pick moves) = .next t) ∨
    (∃ v moves, s.schedule = .reset v :: moves ∧ t = resetMove v { s with schedule := moves }) ∨
    (t.cfg = s.cfg ∧ t.ports = s.ports ∧ t.faults = s.faults) := by
  obtain ⟨-, ⟨-, rfl⟩ | ⟨mv, rest, hs, hrun⟩⟩ := step_next h
  · exact .inr (.inr ⟨rfl, rfl, rfl⟩)
  cases mv with
  | port p pick => exact .inl ⟨p, pick, rest, hs, hrun⟩
  | reset v => cases hrun; exact .inr (.inl ⟨v, rest, hs, rfl⟩)
  | host hst =>
    cases hrun
    obtain ⟨m, hm⟩ := hostMove_eq hst { s with schedule := rest }
    rw [hm]
    exact .inr (.inr ⟨rfl, rfl, rfl⟩)
  | requester p a b =>
    cases hrun
    obtain ⟨m, hm⟩ := requesterMove_eq p a b { s with schedule := rest }
    rw [hm]
    exact .inr (.inr ⟨rfl, rfl, rfl⟩)
  | boot => cases hrun; exact .inr (.inr (bootMove_frame { s with schedule := rest }))

/-- No step changes the configuration (00_scope.md R7). -/
theorem step_cfg {s t : State} (h : step s = .next t) : t.cfg = s.cfg := by
  rcases step_cases h with ⟨p, pick, moves, -, hstep⟩ | ⟨v, moves, -, rfl⟩ | ⟨hcfg, -⟩
  · exact (portStep_frame hstep).1
  · rfl
  · exact hcfg

/-- After reset no port has a command in flight. -/
theorem resetMove_not_busy (v : ResetValues) (s : State) (p : Nat) (c : InFlight) :
    ((resetMove v s).port p).state ≠ .busy c := by
  by_cases hp : p < (resetMove v s).ports.length
  · obtain ⟨q, w, -, hq⟩ := resetPorts_get s.cfg.space s.ports v.regs p hp
    rw [port_eq_getElem _ hp, show (resetMove v s).ports[p] = q.afterReset s.cfg.space w from hq]
    exact fun h => nomatch h
  · rw [port_absent _ (Nat.le_of_not_lt hp)]
    exact fun h => nomatch h

/-! ### The latches set at issue -/

/-- A command in flight with everything erased that its steps may change: the phase and the latches `n` and `pending`, of
an UP_WRITE also `cur` and `done` (10_state.md R33). -/
def InFlight.issued : InFlight → InFlight
  | .write _ l => .write .sample { l with cur := 0, done := 0, n := 0, pending := [] }
  | .read _ l => .read .sample { l with n := 0, pending := [] }

/-- A step of a command in flight that leaves the port BUSY leaves the latches set at issue alone. -/
theorem exec_keeps_issued {s t : State} {c c' : InFlight} (hc : s.cur.state = .busy c) (h : exec c.instr s = .next t)
    (hc' : t.cur.state = .busy c') : c'.issued = c.issued := by
  have hl := active_lt_of_busy hc
  have hstay : t = s → c'.issued = c.issued := by
    rintro rfl
    rw [hc] at hc'
    cases hc'
    rfl
  have hgo : ∀ {u d}, t = State.goOn u d → u.active < u.ports.length → d.issued = c.issued →
      c'.issued = c.issued := by
    rintro u d rfl hu hd
    rw [cur_goOn u d hu] at hc'
    cases hc'
    exact hd
  have hend : ∀ {u n}, t = State.complete u n → u.active < u.ports.length → c'.issued = c.issued := by
    rintro u n rfl hu
    rw [cur_complete u n hu] at hc'
    cases hc'
  have hraise : ∀ {code ch}, t = s.raise code ch → c'.issued = c.issued := by
    rintro code ch rfl
    rw [cur_raise s code ch hl] at hc'
    cases hc'
  cases c with
  | write ph l =>
    cases ph with
    | sample =>
      rw [InFlight.instr, exec_write_sample hc] at h
      rcases writeSample_next h with ⟨-, e⟩ | ⟨-, n, -, ⟨-, e⟩ | ⟨-, -, -, e⟩ | ⟨-, -, e⟩⟩
      · exact hraise e
      · exact hgo e hl rfl
      · exact hstay e
      · exact hend e hl
    | copy =>
      rw [InFlight.instr, exec_write_copy hc] at h
      rcases writeCopy_next h with ⟨-, e⟩ | ⟨k, -, -, -, e⟩
      · exact hstay e
      · exact hgo e hl rfl
    | publish =>
      rw [InFlight.instr, exec_write_publish hc] at h
      obtain ⟨-, u, rfl, ⟨-, -, e⟩ | ⟨-, e⟩⟩ := writePublish_next h
      · exact hgo e hl rfl
      · exact hend e hl
  | read ph l =>
    cases ph with
    | sample =>
      rw [InFlight.instr, exec_read_sample hc] at h
      rcases readSample_next h with ⟨-, e⟩ | ⟨-, n, -, ⟨-, e⟩ | ⟨-, e⟩⟩
      · exact hraise e
      · exact hend e hl
      · exact hgo e hl rfl
    | copy =>
      rw [InFlight.instr, exec_read_copy hc] at h
      rcases readCopy_next h with ⟨-, e⟩ | ⟨k, -, -, -, e⟩
      · exact hstay e
      · exact hgo e hl rfl
    | publish =>
      rw [InFlight.instr, exec_read_publish hc] at h
      obtain ⟨-, e⟩ := readPublish_next h
      exact hend e hl

/-- No step of the machine changes the latches set at issue while a port stays BUSY. -/
theorem step_keeps_issued {s t : State} {p : Nat} {c c' : InFlight} (h : step s = .next t)
    (hc : (s.port p).state = .busy c) (hc' : (t.port p).state = .busy c') : c'.issued = c.issued := by
  have hsame : t.port p = s.port p → c'.issued = c.issued := by
    intro he
    rw [he, hc] at hc'
    cases hc'
    rfl
  rcases step_cases h with ⟨q, pick, moves, -, hstep⟩ | ⟨v, moves, -, rfl⟩ | ⟨-, hports, -⟩
  · by_cases hq : p = q
    · subst hq
      have hexec : exec c.instr (s.turn p pick moves) = .next t :=
        (portStep_busy (s := s.turn p pick moves) hc).symm.trans hstep
      have hactive : t.active = p := (exec_step hexec).frame.machine.2.2.2.1
      exact exec_keeps_issued (s := s.turn p pick moves) hc hexec (by rw [State.cur, hactive]; exact hc')
    · exact hsame ((portStep_frame hstep).2.1 p hq)
  · exact absurd hc' (resetMove_not_busy v _ p c')
  · exact hsame (port_congr hports p)

end Sys2Proof.Machine

/-! ## Every step keeps the machine sound -/

namespace Sys2Proof.Machine

open State

/-! ### The latches of each phase -/

section Latches

variable {c : Config}

/-- A sample step that sizes a chunk sets latches in order (R122, R123). -/
theorem WriteLatch.Ok.sampled {l : WriteLatch} (h : l.Ok c .sample) {r n : Nat} (hr : r < l.size)
    (hn : n = chunk l.mode (ringFree r l.cur l.size) (l.len - l.done)) (hpos : 0 < n) :
    WriteLatch.Ok c .copy { l with n := n, pending := List.range n } := by
  have hfree : n ≤ ringFree r l.cur l.size := hn ▸ chunk_le_free ..
  have hrem : n ≤ l.len - l.done := hn ▸ chunk_le_rem ..
  have hsize := ringFree_lt hr h.curInRange
  have hdone := h.doneWithin
  exact { h with
    pendingOnce := List.nodup_range
    pendingInChunk := fun k hk => List.mem_range.1 hk
    copying := by simp [List.range_eq_nil, Nat.ne_of_gt hpos]
    chunkSized := fun _ => ⟨hpos, Nat.lt_of_le_of_lt hfree hsize, by show l.done + n ≤ l.len; omega⟩
    skipWhole := fun _ hm => by
      have hm : l.mode = .skip := hm
      have hzero : l.done = 0 := h.onePass (by rw [hm]; decide)
      rw [hm, hzero, Nat.sub_zero, chunk] at hn
      show n = l.len
      split at hn <;> omega }

/-- A copy step leaves latches in order (R124). -/
theorem WriteLatch.Ok.copied {l : WriteLatch} (h : l.Ok c .copy) (k : Nat) :
    WriteLatch.Ok c (if l.pending.erase k = [] then .publish else .copy) { l with pending := l.pending.erase k } :=
  { h with
    pendingOnce := h.pendingOnce.erase k
    pendingInChunk := fun j hj => h.pendingInChunk j (List.mem_of_mem_erase hj)
    copying := by split <;> simp [*]
    chunkSized := fun _ => h.chunkSized (by decide)
    skipWhole := fun _ => h.skipWhole (by decide) }

/-- A publish step that begins another pass leaves latches in order (R125). -/
theorem WriteLatch.Ok.published {l : WriteLatch} (h : l.Ok c .publish) (hm : l.mode = .block)
    (hd : l.done + l.n < l.len) :
    WriteLatch.Ok c .sample { l with cur := ringAdvance l.cur l.n l.size, done := l.done + l.n } := by
  have hempty : l.pending = [] := by
    by_contra hne
    exact nomatch h.copying.2 hne
  exact { h with
    curInRange := ringAdvance_lt (Nat.zero_lt_of_lt h.curInRange)
    doneWithin := Nat.le_of_lt hd
    onePass := fun hne => absurd hm hne
    copying := by simp [hempty]
    chunkSized := fun hne => absurd rfl hne
    skipWhole := fun hne => absurd rfl hne }

/-- A sample step that sizes a chunk sets latches in order (42_read.md R152). -/
theorem ReadLatch.Ok.sampled {l : ReadLatch} (h : l.Ok c .sample) {w n : Nat} (hw : w < l.size)
    (hn : n = min (ringAvailable w l.cur l.size) l.len) (hpos : 0 < n) :
    ReadLatch.Ok c .copy { l with n := n, pending := List.range n } := by
  have hsize := ringAvailable_lt hw h.curInRange
  exact { h with
    pendingOnce := List.nodup_range
    pendingInChunk := fun k hk => List.mem_range.1 hk
    copying := by simp [List.range_eq_nil, Nat.ne_of_gt hpos]
    chunkSized := fun _ => ⟨hpos, by show n < l.size; omega, by show n ≤ l.len; omega⟩ }

/-- A copy step leaves latches in order (42_read.md R153). -/
theorem ReadLatch.Ok.copied {l : ReadLatch} (h : l.Ok c .copy) (k : Nat) :
    ReadLatch.Ok c (if l.pending.erase k = [] then .publish else .copy) { l with pending := l.pending.erase k } :=
  { h with
    pendingOnce := h.pendingOnce.erase k
    pendingInChunk := fun j hj => h.pendingInChunk j (List.mem_of_mem_erase hj)
    copying := by split <;> simp [*]
    chunkSized := fun _ => h.chunkSized (by decide) }

end Latches

/-! ### The latches set at issue name the command -/

theorem InFlight.issued_instr (c : InFlight) : c.issued.instr = c.instr := by cases c <;> rfl
theorem InFlight.issued_channel (c : InFlight) : c.issued.channel = c.channel := by cases c <;> rfl
theorem InFlight.issued_addr (c : InFlight) : c.issued.addr = c.addr := by cases c <;> rfl
theorem InFlight.issued_len (c : InFlight) : c.issued.len = c.len := by cases c <;> rfl

variable {s t : State}

/-- A command in flight that goes on with its issue latches kept, and all latches in order, keeps the machine sound. -/
theorem sound_advance (hs : s.Sound) {c c' : InFlight} (hc : s.cur.state = .busy c) (hi : c'.issued = c.issued)
    (ho : c'.Ok s.cfg) : (s.goOn c').Sound := by
  obtain ⟨hcmd, haddr, hlen⟩ := hs.registersKept s.active c hc
  have hinstr : c'.instr = c.instr := by rw [← c'.issued_instr, hi, c.issued_instr]
  have hchannel : c'.channel = c.channel := by rw [← c'.issued_channel, hi, c.issued_channel]
  have haddr' : c'.addr = c.addr := by rw [← c'.issued_addr, hi, c.issued_addr]
  have hlen' : c'.len = c.len := by rw [← c'.issued_len, hi, c.issued_len]
  exact sound_goOn hs c' (active_lt_of_busy hc) (hs.booted_of_busy hc) (by rw [hc]; simp) ho (hinstr ▸ hcmd)
    (haddr'.trans haddr) (hlen'.trans hlen) fun p d hp hd he =>
      hp (hs.exclusive p s.active d c hd hc (he.symm.trans hchannel))

/-- The payload length of the command in flight fits a register. -/
theorem len_lt_space (hs : s.Sound) {c : InFlight} (hc : s.cur.state = .busy c) : c.len < s.cfg.space :=
  (hs.registersKept s.active c hc).2.2 ▸ (hs.registersFit s.active).2.1

/-- A command in flight that completes with at most its length keeps the machine sound. -/
theorem sound_finish (hs : s.Sound) {c : InFlight} (hc : s.cur.state = .busy c) {n : Nat} (hn : n ≤ c.len) :
    (s.complete n).Sound :=
  sound_complete hs n (active_lt_of_busy hc) (by rw [hc]; simp) (Nat.lt_of_le_of_lt hn (len_lt_space hs hc))

/-! ### The issue steps -/

theorem issueWrite_sound {ch : Nat} (hs : s.Sound) (hb : s.booted = true) (hi : s.cur.state = .idle)
    (hd : decodeWord s.cur.cmd = .ok (.upWrite ch)) (h : issueWrite ch s = .next t) : t.Sound := by
  have hl := active_lt_of_idle hi
  rcases issueWrite_next h with ⟨code, rfl⟩ | ⟨mode, -, hrace, -, hbuf, hcur, -, haddr, hover, rfl⟩
  · exact sound_raise hs code ch hl hb
  · refine sound_goOn hs _ hl hb (by rw [hi]; simp) ?_ hd rfl rfl (exclusive_of_otherLatches hrace)
    exact {
      chFits := decodeWord_wf hd
      curInRange := hcur
      bufferInside := hbuf
      payloadInside := haddr
      payloadApart := hover
      doneWithin := Nat.zero_le _
      onePass := fun _ => rfl
      pendingOnce := List.nodup_nil
      pendingInChunk := fun _ hk => nomatch hk
      copying := by simp
      chunkSized := fun hne => absurd rfl hne
      skipWhole := fun hne => absurd rfl hne }

theorem issueRead_sound {ch : Nat} (hs : s.Sound) (hb : s.booted = true) (hi : s.cur.state = .idle)
    (hd : decodeWord s.cur.cmd = .ok (.downRead ch)) (h : issueRead ch s = .next t) : t.Sound := by
  have hl := active_lt_of_idle hi
  rcases issueRead_next h with ⟨code, rfl⟩ | ⟨-, hrace, -, hbuf, hcur, haddr, hover, rfl⟩
  · exact sound_raise hs code ch hl hb
  · refine sound_goOn hs _ hl hb (by rw [hi]; simp) ?_ hd rfl rfl (exclusive_of_otherLatches hrace)
    exact {
      chFits := decodeWord_wf hd
      curInRange := hcur
      bufferInside := hbuf
      payloadInside := haddr
      payloadApart := hover
      pendingOnce := List.nodup_nil
      pendingInChunk := fun _ hk => nomatch hk
      copying := by simp
      chunkSized := fun hne => absurd rfl hne }

/-- The issue step of any command keeps the machine sound. -/
theorem exec_issue_sound {i : Instr} (hs : s.Sound) (hc : s.cfg.wf = true) (hb : s.booted = true)
    (hi : s.cur.state = .idle) (hd : decodeWord s.cur.cmd = .ok i) (h : exec i s = .next t) : t.Sound := by
  have hl := active_lt_of_idle hi
  have hlive : s.cur.state ≠ .faulted := by rw [hi]; simp
  cases i with
  | upWrite ch =>
    rw [exec_upWrite, execUpWrite, hi] at h
    exact issueWrite_sound hs hb hi hd h
  | downRead ch =>
    rw [exec_downRead, execDownRead, hi] at h
    exact issueRead_sound hs hb hi hd h
  | upGetMode ch =>
    rcases execUpGetMode_next hi h with ⟨code, rfl⟩ | ⟨m, -, -, rfl⟩
    · exact sound_raise hs code ch hl hb
    · exact sound_complete hs _ hl hlive (Nat.lt_trans (mode_encoding_lt m) (space_ge4 _ hc))
  | upSetMode ch m =>
    rcases execUpSetMode_next hi h with ⟨code, rfl⟩ | ⟨-, -, hin, rfl⟩
    · exact sound_raise hs code ch hl hb
    · exact sound_complete (sound_putWord hs hin _) 0 hl hlive (Config.space_pos _)

/-! ### The steps in flight -/

theorem exec_write_sound {ph : WritePhase} {l : WriteLatch} (hs : s.Sound) (hc : s.cur.state = .busy (.write ph l))
    (h : exec (.upWrite l.ch) s = .next t) : t.Sound := by
  have hok : l.Ok s.cfg ph := hs.latchesOk s.active _ hc
  have hl := active_lt_of_busy hc
  have hb := hs.booted_of_busy hc
  cases ph with
  | sample =>
    rw [exec_write_sample hc] at h
    rcases writeSample_next h with ⟨-, rfl⟩ | ⟨hr, n, hn, ⟨hpos, rfl⟩ | ⟨-, -, -, rfl⟩ | ⟨-, -, rfl⟩⟩
    · exact sound_raise hs _ _ hl hb
    · exact sound_advance hs hc rfl (hok.sampled hr hn hpos)
    · exact hs
    · exact sound_finish hs hc hok.doneWithin
  | copy =>
    rw [exec_write_copy hc] at h
    rcases writeCopy_next h with ⟨-, rfl⟩ | ⟨k, -, -, hin, rfl⟩
    · exact hs
    · exact sound_advance (sound_putByte hs hin _) hc rfl (hok.copied k)
  | publish =>
    rw [exec_write_publish hc] at h
    obtain ⟨hin, u, rfl, ⟨hm, hd, rfl⟩ | ⟨-, rfl⟩⟩ := writePublish_next h
    · exact sound_advance (sound_putWord hs hin _) hc rfl (hok.published hm hd)
    · exact sound_finish (sound_putWord hs hin _) hc (hok.chunkSized (by decide)).2.2

theorem exec_read_sound {ph : ReadPhase} {l : ReadLatch} (hs : s.Sound) (hc : s.cur.state = .busy (.read ph l))
    (h : exec (.downRead l.ch) s = .next t) : t.Sound := by
  have hok : l.Ok s.cfg ph := hs.latchesOk s.active _ hc
  cases ph with
  | sample =>
    rw [exec_read_sample hc] at h
    rcases readSample_next h with ⟨-, rfl⟩ | ⟨hw, n, hn, ⟨-, rfl⟩ | ⟨hpos, rfl⟩⟩
    · exact sound_raise hs _ _ (active_lt_of_busy hc) (hs.booted_of_busy hc)
    · exact sound_finish hs hc (Nat.zero_le _)
    · exact sound_advance hs hc rfl (hok.sampled hw hn hpos)
  | copy =>
    rw [exec_read_copy hc] at h
    rcases readCopy_next h with ⟨-, rfl⟩ | ⟨k, -, -, hin, rfl⟩
    · exact hs
    · exact sound_advance (sound_putByte hs hin _) hc rfl (hok.copied k)
  | publish =>
    rw [exec_read_publish hc] at h
    obtain ⟨hin, rfl⟩ := readPublish_next h
    exact sound_finish (sound_putWord hs hin _) hc (hok.chunkSized (by decide)).2.2

/-- A port's step keeps the machine sound. -/
theorem portStep_sound (hs : s.Sound) (hc : s.cfg.wf = true) (h : portStep s = .next t) : t.Sound := by
  rcases portStep_next h with ⟨rfl, -⟩ | ⟨r, rest, i, hb, hi, -, hd, hexec⟩ | ⟨r, rest, e, hb, hi, -, -, rfl⟩ |
    ⟨c, hbusy, hexec⟩
  · exact hs
  · have hcur := cur_present s r rest (active_lt_of_idle hi)
    exact exec_issue_sound (sound_present hs r rest hi) hc hb (by rw [hcur]; exact hi) (by rw [hcur]; exact hd) hexec
  · exact sound_raise (sound_present hs r rest hi) _ _ (by simpa using active_lt_of_idle hi) hb
  · cases c with
    | write ph l => exact exec_write_sound hs hbusy hexec
    | read ph l => exact exec_read_sound hs hbusy hexec

/-! ### The other agents -/

theorem hostMove_sound (hs : s.Sound) (hc : s.cfg.wf = true) (hst : HostStep) : (hostMove hst s).Sound := by
  cases hst with
  | read a n => exact hs
  | upConsume c k =>
    show (hostUpConsume c k s).Sound
    rcases hostUpConsume_cases c k s with h | ⟨ch, -, -, hin, -, -, -, h⟩ <;> rw [h]
    · exact hs
    · exact sound_putWord hs (by simp only [readOffsetField, Addr] at *; omega) _
  | downData c j b =>
    show (hostDownData c j b s).Sound
    rcases hostDownData_cases c j b s with h | ⟨ch, hch, -, -, hr, -, -, h⟩ <;> rw [h]
    · exact hs
    · have hreg := Config.region_inside hc (Config.bufRegions_sub (Config.downRegion_mem (List.mem_of_getElem? hch)))
      exact sound_putByte hs (Nat.lt_of_lt_of_le (Nat.add_lt_add_left (chunkOffset_lt (Nat.zero_lt_of_lt hr)) _) hreg) _
  | downPublish c k =>
    show (hostDownPublish c k s).Sound
    rcases hostDownPublish_cases c k s with h | ⟨ch, -, -, -, hin, -, -, -, h⟩ <;> rw [h]
    · exact hs
    · exact sound_putWord hs (by simp only [writeOffsetField, Addr] at *; omega) _

theorem requesterMove_sound (hs : s.Sound) (p : Nat) (a : Addr) (b : Byte) : (requesterMove p a b s).Sound := by
  rcases requesterMove_cases p a b s with h | ⟨hin, -, -, -, h⟩ <;> rw [h]
  · exact hs
  · exact sound_putByte hs hin b

theorem bootMove_sound (hs : s.Sound) (hc : s.cfg.wf = true) : (bootMove s).Sound := by
  rcases bootMove_cases s with ⟨-, h⟩ | ⟨st, hb, hst, h⟩ | ⟨-, hpos, h⟩ <;> rw [h]
  · exact hs
  · exact { sound_apply hc hs (List.mem_of_getElem? hst) with
      bootWithin := lt_of_getElem? hst
      bootDone := fun hbt => nomatch hb.symm.trans hbt }
  · exact { hs with
      quietBeforeBoot := fun hbt => nomatch hbt
      bootDone := fun _ => Nat.le_antisymm hs.bootWithin hpos }

/-- A machine whose ports are all IDLE, with no fault recorded, is sound. -/
theorem sound_of_idle (hmem : s.mem.wf) (hin : ∀ c ∈ s.mem, c.1 < s.cfg.space)
    (hcount : s.ports.length = s.cfg.nport)
    (hports : ∀ q ∈ s.ports,
      q.state = .idle ∧ q.addr < s.cfg.space ∧ q.len < s.cfg.space ∧ q.result < s.cfg.space)
    (hfaults : s.faults = []) (hwithin : s.bootPos ≤ (bootStores s.cfg).length)
    (hdone : s.booted = true → s.bootPos = (bootStores s.cfg).length) : s.Sound := by
  have hidle : ∀ p, p < s.ports.length → (s.port p).state = .idle := fun p hp => (hports _ (port_mem s hp)).1
  have hbusy : ∀ p c, (s.port p).state ≠ .busy c := by
    intro p c he
    have := hidle p (lt_of_port_state s (by rw [he]; simp))
    rw [he] at this
    cases this
  exact {
    memCanonical := hmem
    memInside := hin
    portCount := hcount
    registersFit := fun p => by
      by_cases hp : p < s.ports.length
      · exact (hports _ (port_mem s hp)).2
      · rw [port_absent s (Nat.le_of_not_lt hp)]
        exact ⟨Config.space_pos _, Config.space_pos _, Config.space_pos _⟩
    latchesOk := fun p c he => absurd he (hbusy p c)
    registersKept := fun p c he => absurd he (hbusy p c)
    exclusive := fun p q c d he => absurd he (hbusy p c)
    quietBeforeBoot := fun _ => hidle
    faultHalts := by rw [hfaults]; exact fun _ hr => nomatch hr
    haltsByFault := fun p hp he => nomatch (hidle p hp).symm.trans he
    bootWithin := hwithin
    bootDone := hdone }

theorem resetMove_sound (hs : s.Sound) (v : ResetValues) : (resetMove v s).Sound := by
  have hspace := Config.space_pos s.cfg
  refine sound_of_idle (Memory.wf_ofCells _) (fun c hc => ?_) ?_ (fun q hq => ?_) rfl (Nat.zero_le _)
    (fun h => nomatch h)
  · obtain ⟨d, hd, he⟩ := mem_ofCells hc
    rw [← he]
    exact of_decide_eq_true (List.mem_filter.1 hd).2
  · exact (resetPorts_length ..).trans hs.portCount
  · obtain ⟨p, hp, rfl⟩ := List.getElem_of_mem hq
    obtain ⟨q, w, -, hq⟩ := resetPorts_get s.cfg.space s.ports v.regs p hp
    rw [show (resetMove v s).ports[p] = q.afterReset s.cfg.space w from hq]
    exact ⟨rfl, Nat.mod_lt _ hspace, Nat.mod_lt _ hspace, Nat.mod_lt _ hspace⟩

theorem sound_reset : State.reset.Sound := by
  refine sound_of_idle Memory.wf_nil (fun _ hc => nomatch hc) (List.length_replicate ..) (fun q hq => ?_) rfl
    (Nat.zero_le _) (fun h => nomatch h)
  have hspace := Config.space_pos State.reset.cfg
  rw [List.eq_of_mem_replicate hq]
  exact ⟨rfl, hspace, hspace, hspace⟩

end Sys2Proof.Machine

/-! ## Once booted, every step keeps the channels in order -/

namespace Sys2Proof.Machine

open State

/-- A consume leaves at least as much room (40_ring_engine.md R109). -/
theorem ringFree_le_advance {r w size k : Nat} (hr : r < size) (hw : w < size) (hk : k ≤ ringAvailable w r size) :
    ringFree r w size ≤ ringFree (ringAdvance r k size) w size := by
  have hr' : ringAdvance r k size < size := ringAdvance_lt (Nat.zero_lt_of_lt hr)
  have hks := ringAvailable_lt hw hr
  rcases ringAvailable_cases hw hr with ⟨_, ha⟩ | ⟨_, ha⟩ <;>
    rcases ringAdvance_cases hr (n := k) (by omega) with ⟨_, hadv⟩ | ⟨_, hadv⟩ <;>
    rcases ringFree_cases hr hw with ⟨_, hf⟩ | ⟨_, hf⟩ <;>
    rcases ringFree_cases hr' hw with ⟨_, hf'⟩ | ⟨_, hf'⟩ <;> omega

/-- A publish leaves at least as many bytes available (40_ring_engine.md R109). -/
theorem ringAvailable_le_advance {r w size k : Nat} (hr : r < size) (hw : w < size) (hk : k ≤ ringFree r w size) :
    ringAvailable w r size ≤ ringAvailable (ringAdvance w k size) r size := by
  have hw' : ringAdvance w k size < size := ringAdvance_lt (Nat.zero_lt_of_lt hr)
  have hks := ringFree_lt hr hw
  rcases ringFree_cases hr hw with ⟨_, hf⟩ | ⟨_, hf⟩ <;>
    rcases ringAdvance_cases hw (n := k) (by omega) with ⟨_, hadv⟩ | ⟨_, hadv⟩ <;>
    rcases ringAvailable_cases hw hr with ⟨_, ha⟩ | ⟨_, ha⟩ <;>
    rcases ringAvailable_cases hw' hr with ⟨_, ha'⟩ | ⟨_, ha'⟩ <;> omega

variable {s t : State}

theorem State.Channels.view (hs : s.Channels) : BlockView s := ((channels_iff s).1 hs).1
theorem State.Channels.ties (hs : s.Channels) (p : Nat) : Ties s (s.port p).state := ((channels_iff s).1 hs).2 p

/-- A down descriptor lies in its configured slot. -/
theorem State.Channels.descDown_eq (hs : s.Channels) (ch : Nat) : s.descDown ch = s.cfg.descAddr (s.cfg.nup + ch) := by
  rw [descDown, show s.upCount = s.cfg.nup from hs.view.upCount]

theorem ties_write {ph : WritePhase} {l : WriteLatch} {ch : UpChannel} (hch : s.cfg.up[l.ch]? = some ch)
    (hd : l.d = s.cfg.descAddr l.ch) (hsize : l.size = ch.size) (hbuf : l.buf = ch.buf)
    (hcur : l.cur = s.wordAt (fieldAddr s.cfg l.ch 3))
    (hn : ph ≠ .sample → l.n ≤ ringFree (s.wordAt (fieldAddr s.cfg l.ch 4)) l.cur l.size) :
    Ties s (.busy (.write ph l)) :=
  ⟨fun _ _ e => by cases e; exact ⟨ch, hch, hd, hsize, hbuf, hcur, hn⟩, (fun _ _ e => nomatch e)⟩

theorem ties_read {ph : ReadPhase} {l : ReadLatch} {ch : Channel} (hch : s.cfg.down[l.ch]? = some ch)
    (hd : l.d = s.cfg.descAddr (s.cfg.nup + l.ch)) (hsize : l.size = ch.size) (hbuf : l.buf = ch.buf)
    (hcur : l.cur = s.wordAt (fieldAddr s.cfg (s.cfg.nup + l.ch) 4))
    (hn : ph ≠ .sample → l.n ≤ ringAvailable (s.wordAt (fieldAddr s.cfg (s.cfg.nup + l.ch) 3)) l.cur l.size) :
    Ties s (.busy (.read ph l)) :=
  ⟨(fun _ _ e => nomatch e), fun _ _ e => by cases e; exact ⟨ch, hch, hd, hsize, hbuf, hcur, hn⟩⟩

/-- A byte store outside the control block keeps the channels in order. -/
theorem channels_putByte (hs : s.Channels) {a : Nat}
    (ha : a < s.cfg.cbBase ∨ s.cfg.cbBase + s.cfg.cbSize ≤ a) (b : Byte) :
    (s.putByte a b).Channels :=
  channels_same hs (sameCb_putByte b ha) rfl (fun _ _ => rfl) (hs.ties s.active)

/-- The channels are in order in a state whose current port was replaced by one that memory fits. -/
theorem channels_setCur (hv : BlockView s) (hothers : ∀ p, p ≠ s.active → Ties s (s.port p).state)
    (hl : s.active < s.ports.length) {q : Port} (hq : Ties s q.state) : (s.setCur q).Channels := by
  have hsame : SameCb s (s.setCur q) := .of_mem rfl rfl
  refine (channels_iff _).2 ⟨hsame.view hv, fun p => hsame.ties ?_⟩
  by_cases hp : p = s.active
  · subst hp
    have hcur : (s.setCur q).port s.active = q := cur_setCur s q hl
    rw [hcur]
    exact hq
  · rw [port_setCur_ne s q hp]
    exact hothers p hp

/-- An index below the number of channels names one. -/
theorem exists_up_of_lt {c : Config} {i : Nat} (h : i < c.nup) : ∃ ch, c.up[i]? = some ch :=
  ⟨_, List.getElem?_eq_getElem h⟩
theorem exists_down_of_lt {c : Config} {i : Nat} (h : i < c.ndown) : ∃ ch, c.down[i]? = some ch :=
  ⟨_, List.getElem?_eq_getElem h⟩

/-! ### The issue steps -/

theorem issueWrite_channels {ch : Nat} (hs : s.Channels) (hi : s.cur.state = .idle)
    (h : issueWrite ch s = .next t) : t.Channels := by
  rcases issueWrite_next h with ⟨code, rfl⟩ | ⟨mode, hlt, -, -, -, -, -, -, -, rfl⟩
  · exact channels_raise hs code ch
  · obtain ⟨uc, huc⟩ := exists_up_of_lt (show ch < s.cfg.nup from hs.upCount ▸ hlt)
    obtain ⟨-, hbuf, hsize, -⟩ := hs.view.up ch uc huc
    refine channels_goOn hs _ (active_lt_of_idle hi) (ties_write huc rfl ?_ ?_ ?_ fun hne => absurd rfl hne)
    · show s.wordAt (s.sizeField (s.descUp ch)) = _
      rw [descUp, sizeField_eq, hsize]
    · show s.wordAt (s.bufferField (s.descUp ch)) = _
      rw [descUp, bufferField_eq, hbuf]
    · show s.wordAt (s.writeOffsetField (s.descUp ch)) = _
      rw [descUp, writeOffsetField_eq]

theorem issueRead_channels {ch : Nat} (hs : s.Channels) (hi : s.cur.state = .idle)
    (h : issueRead ch s = .next t) : t.Channels := by
  rcases issueRead_next h with ⟨code, rfl⟩ | ⟨hlt, -, -, -, -, -, -, rfl⟩
  · exact channels_raise hs code ch
  · obtain ⟨dc, hdc⟩ := exists_down_of_lt (show ch < s.cfg.ndown from hs.downCount ▸ hlt)
    obtain ⟨-, hbuf, hsize, -⟩ := hs.view.down ch dc hdc
    refine channels_goOn hs _ (active_lt_of_idle hi)
      (ties_read hdc (hs.descDown_eq ch) ?_ ?_ ?_ fun hne => absurd rfl hne)
    · show s.wordAt (s.sizeField (s.descDown ch)) = _
      rw [hs.descDown_eq, sizeField_eq, hsize]
    · show s.wordAt (s.bufferField (s.descDown ch)) = _
      rw [hs.descDown_eq, bufferField_eq, hbuf]
    · show s.wordAt (s.readOffsetField (s.descDown ch)) = _
      rw [hs.descDown_eq, readOffsetField_eq]

/-- A new mode in a flags word keeps the channels in order. -/
theorem channels_putFlags {ch : Nat} (hs : s.Channels) (hc : s.cfg.wf = true) (hlt : ch < s.cfg.nup) (m : Mode) :
    (s.putWord (s.flagsField (s.descUp ch)) (setFlagsMode (s.wordAt (s.flagsField (s.descUp ch))) m)).Channels := by
  obtain ⟨uc, huc⟩ := exists_up_of_lt hlt
  rw [descUp, flagsField_eq]
  refine (channels_iff _).2 ⟨blockView_putWord_up hs huc (by decide) (by decide) (fun _ => ?_)
    fun hne => absurd rfl hne, fun p => ties_putWord (channel_lt_up huc) (by decide) (hs.ties p)
      (fun _ _ _ _ => ⟨by decide, fun he => nomatch he⟩) fun _ _ _ _ => ⟨by decide, fun he => nomatch he⟩⟩
  rw [Nat.mod_eq_of_lt (setFlags_lt _ hc (wordAt_lt ..) m), flagsMode_set]
  rfl

/-- The issue step of any command keeps the channels in order. -/
theorem exec_issue_channels {i : Instr} (hs : s.Channels) (hc : s.cfg.wf = true) (hi : s.cur.state = .idle)
    (h : exec i s = .next t) : t.Channels := by
  have hl := active_lt_of_idle hi
  cases i with
  | upWrite ch =>
    rw [exec_upWrite, execUpWrite, hi] at h
    exact issueWrite_channels hs hi h
  | downRead ch =>
    rw [exec_downRead, execDownRead, hi] at h
    exact issueRead_channels hs hi h
  | upGetMode ch =>
    rcases execUpGetMode_next hi h with ⟨code, rfl⟩ | ⟨m, -, -, rfl⟩
    · exact channels_raise hs code ch
    · exact channels_complete hs _ hl
  | upSetMode ch m =>
    rcases execUpSetMode_next hi h with ⟨code, rfl⟩ | ⟨hlt, -, -, rfl⟩
    · exact channels_raise hs code ch
    · exact channels_complete (channels_putFlags hs hc (hs.upCount ▸ hlt) m) 0 hl

/-! ### The steps in flight -/

/-- The target of a copy step of UP_WRITE lies in its channel's buffer, outside the control block. -/
theorem writeTarget_outside (hs : s.Channels) (hc : s.cfg.wf = true) {p : Nat} {ph : WritePhase} {l : WriteLatch}
    (hbusy : (s.port p).state = .busy (.write ph l)) (k : Nat) :
    writeTarget l k < s.cfg.cbBase ∨ s.cfg.cbBase + s.cfg.cbSize ≤ writeTarget l k := by
  obtain ⟨ch, hch, -, hsize, hbuf, -⟩ := (hs.ties p).1 ph l hbusy
  have hpos := (Config.channel_bounds (Config.channelOk_up hc (List.mem_of_getElem? hch))).1
  rw [writeTarget, hsize, hbuf]
  exact buf_outside_cb hc (Config.upRegion_mem (List.mem_of_getElem? hch)) (Nat.le_add_right _ _)
    (Nat.add_lt_add_left (chunkOffset_lt hpos) _)

/-- A byte of a payload region that meets no region of the block lies outside the control block. -/
theorem payload_outside {s : State} (hc : s.cfg.wf = true) {a len k : Nat}
    (h : s.cfg.regions.any (fun r => Config.Region.meets (a, len) r) = false) (hk : k < len) :
    a + k < s.cfg.cbBase ∨ s.cfg.cbBase + s.cfg.cbSize ≤ a + k :=
  apart_payload (r := s.cfg.cbRegion) h List.mem_cons_self (Config.cbSize_pos hc) hk

/-- The target of a copy step of DOWN_READ lies in its payload region, outside the control block. -/
theorem readTarget_outside (hs : s.Sound) (hc : s.cfg.wf = true) {p : Nat} {l : ReadLatch}
    (hbusy : (s.port p).state = .busy (.read .copy l)) {k : Nat} (hk : k ∈ l.pending) :
    l.addr + k < s.cfg.cbBase ∨ s.cfg.cbBase + s.cfg.cbSize ≤ l.addr + k := by
  have hok : l.Ok s.cfg .copy := hs.latchesOk p _ hbusy
  exact payload_outside hc hok.payloadApart
    (Nat.lt_of_lt_of_le (hok.pendingInChunk k hk) (hok.chunkSized (by decide)).2.2)

theorem exec_write_channels {ph : WritePhase} {l : WriteLatch} (hs : s.Sound) (hch : s.Channels) (hc : s.cfg.wf = true)
    (hbusy : s.cur.state = .busy (.write ph l)) (h : exec (.upWrite l.ch) s = .next t) : t.Channels := by
  have hl := active_lt_of_busy hbusy
  obtain ⟨ch, hup, hd, hsize, hbuf, hcur, hn⟩ := (hch.ties s.active).1 ph l hbusy
  cases ph with
  | sample =>
    rw [exec_write_sample hbusy] at h
    rcases writeSample_next h with ⟨-, rfl⟩ | ⟨-, n, hsized, ⟨-, rfl⟩ | ⟨-, -, -, rfl⟩ | ⟨-, -, rfl⟩⟩
    · exact channels_raise hch _ _
    · refine channels_goOn hch _ hl (ties_write hup hd hsize hbuf hcur fun _ => ?_)
      rw [← readOffsetField_eq, ← hd]
      exact hsized ▸ chunk_le_free ..
    · exact hch
    · exact channels_complete hch _ hl
  | copy =>
    rw [exec_write_copy hbusy] at h
    rcases writeCopy_next h with ⟨-, rfl⟩ | ⟨k, -, -, -, rfl⟩
    · exact hch
    · have hout := writeTarget_outside hch hc (p := s.active) hbusy k
      exact channels_goOn (channels_putByte hch hout _) _ hl ((sameCb_putByte _ hout).ties
        (ties_write hup hd hsize hbuf hcur fun _ => hn (by decide)))
  | publish =>
    rw [exec_write_publish hbusy] at h
    have hadv : ringAdvance l.cur l.n l.size < ch.size :=
      hsize ▸ ringAdvance_lt (Nat.zero_lt_of_lt (hs.latchesOk s.active _ hbusy).curInRange)
    have hmod : ringAdvance l.cur l.n l.size % s.cfg.space = ringAdvance l.cur l.n l.size :=
      Nat.mod_eq_of_lt (Nat.lt_trans hadv (size_lt_space_up hc hup))
    have hlt : l.ch < s.cfg.nup := lt_of_getElem? hup
    have hview : BlockView (s.putWord (fieldAddr s.cfg l.ch 3) (ringAdvance l.cur l.n l.size)) :=
      blockView_putWord_up hch hup (by decide) (by decide) (fun h => nomatch h) fun _ => hmod.symm ▸ hadv
    have hothers : ∀ p, p ≠ s.active →
        Ties (s.putWord (fieldAddr s.cfg l.ch 3) (ringAdvance l.cur l.n l.size)) (s.port p).state := fun p hp =>
      ties_putWord (channel_lt_up hup) (by decide) (hch.ties p)
        (fun _ _ hq he => absurd he (others_up hs hbusy hp hq)) fun _ _ _ he => by omega
    obtain ⟨-, u, rfl, hend⟩ := writePublish_next h
    have hfield : s.writeOffsetField l.d = fieldAddr s.cfg l.ch 3 := by rw [hd, writeOffsetField_eq]
    rw [hfield] at hend
    rcases hend with ⟨-, -, rfl⟩ | ⟨-, rfl⟩
    · refine channels_setCur hview hothers hl (ties_write hup hd hsize hbuf ?_ fun hne => absurd rfl hne)
      exact hmod.symm.trans (wordAt_putWord_same ..).symm
    · exact channels_setCur hview hothers hl (ties_idle _)

theorem exec_read_channels {ph : ReadPhase} {l : ReadLatch} (hs : s.Sound) (hch : s.Channels) (hc : s.cfg.wf = true)
    (hbusy : s.cur.state = .busy (.read ph l)) (h : exec (.downRead l.ch) s = .next t) : t.Channels := by
  have hl := active_lt_of_busy hbusy
  obtain ⟨ch, hdown, hd, hsize, hbuf, hcur, hn⟩ := (hch.ties s.active).2 ph l hbusy
  cases ph with
  | sample =>
    rw [exec_read_sample hbusy] at h
    rcases readSample_next h with ⟨-, rfl⟩ | ⟨-, n, hsized, ⟨-, rfl⟩ | ⟨-, rfl⟩⟩
    · exact channels_raise hch _ _
    · exact channels_complete hch _ hl
    · refine channels_goOn hch _ hl (ties_read hdown hd hsize hbuf hcur fun _ => ?_)
      rw [← writeOffsetField_eq, ← hd]
      exact hsized ▸ Nat.min_le_left ..
  | copy =>
    rw [exec_read_copy hbusy] at h
    rcases readCopy_next h with ⟨-, rfl⟩ | ⟨k, hk, -, -, rfl⟩
    · exact hch
    · have hout := readTarget_outside hs hc (p := s.active) hbusy hk
      exact channels_goOn (channels_putByte hch hout _) _ hl ((sameCb_putByte _ hout).ties
        (ties_read hdown hd hsize hbuf hcur fun _ => hn (by decide)))
  | publish =>
    rw [exec_read_publish hbusy] at h
    have hadv : ringAdvance l.cur l.n l.size < ch.size :=
      hsize ▸ ringAdvance_lt (Nat.zero_lt_of_lt (hs.latchesOk s.active _ hbusy).curInRange)
    have hmod : ringAdvance l.cur l.n l.size % s.cfg.space = ringAdvance l.cur l.n l.size :=
      Nat.mod_eq_of_lt (Nat.lt_trans hadv (size_lt_space_down hc hdown))
    obtain ⟨-, rfl⟩ := readPublish_next h
    rw [hd, readOffsetField_eq]
    refine channels_setCur (blockView_putWord_down hch hdown (by decide) (by decide) (hmod.symm ▸ hadv))
      (fun p hp => ?_) hl (ties_idle _)
    refine ties_putWord (channel_lt_down hdown) (by decide) (hch.ties p) (fun _ _ hq he => ?_) fun _ _ hq he => ?_
    · obtain ⟨ch', hup, -⟩ := (hch.ties p).1 _ _ hq
      have : _ < s.cfg.nup := lt_of_getElem? hup
      omega
    · exact absurd (Nat.add_left_cancel he) (others_down hs hbusy hp hq)

/-- A port's step keeps the channels in order. -/
theorem portStep_channels (hs : s.Sound) (hch : s.Channels) (hc : s.cfg.wf = true) (h : portStep s = .next t) :
    t.Channels := by
  rcases portStep_next h with ⟨rfl, -⟩ | ⟨r, rest, i, -, hi, -, -, hexec⟩ | ⟨r, rest, e, -, hi, -, -, rfl⟩ |
    ⟨c, hbusy, hexec⟩
  · exact hch
  · have hcur := cur_present s r rest (active_lt_of_idle hi)
    exact exec_issue_channels (channels_present hch r rest hi) hc (by rw [hcur]; exact hi) hexec
  · exact channels_raise (channels_present hch r rest hi) _ _
  · cases c with
    | write ph l => exact exec_write_channels hs hch hc hbusy hexec
    | read ph l => exact exec_read_channels hs hch hc hbusy hexec

/-! ### The other agents -/

theorem hostUpConsume_channels (hch : s.Channels) (hc : s.cfg.wf = true) (c k : Nat) :
    (hostUpConsume c k s).Channels := by
  rcases hostUpConsume_cases c k s with h | ⟨ch, hup, -, -, hr, hw, hk, h⟩ <;> rw [h]
  · exact hch
  rw [descUp, readOffsetField_eq] at *
  rw [writeOffsetField_eq] at hw hk
  have hadv : ringAdvance (s.wordAt (fieldAddr s.cfg c 4)) k ch.size < ch.size := ringAdvance_lt (Nat.zero_lt_of_lt hr)
  have hmod := Nat.mod_eq_of_lt (Nat.lt_trans hadv (size_lt_space_up hc hup))
  refine (channels_iff _).2 ⟨blockView_putWord_up hch hup (by decide) (by decide) (fun h => nomatch h)
    fun _ => hmod.symm ▸ hadv, fun p => ties_putWord (channel_lt_up hup) (by decide) (hch.ties p)
    (fun ph l hq he => ⟨by decide, fun _ hph => ?_⟩) fun ph l hq he => ?_⟩
  · obtain ⟨ch', hup', -, hsize, -, hcur, hn⟩ := (hch.ties p).1 ph l hq
    rw [he] at hup' hcur hn
    rw [hup] at hup'
    cases hup'
    rw [hmod]
    refine Nat.le_trans (hn hph) ?_
    rw [hsize, hcur]
    exact ringFree_le_advance hr hw hk
  · have : c < s.cfg.nup := lt_of_getElem? hup
    omega

theorem hostDownPublish_channels (hch : s.Channels) (hc : s.cfg.wf = true) (c k : Nat) :
    (hostDownPublish c k s).Channels := by
  rcases hostDownPublish_cases c k s with h | ⟨ch, hdown, -, -, -, hr, hw, hk, h⟩ <;> rw [h]
  · exact hch
  rw [hch.descDown_eq, writeOffsetField_eq] at *
  rw [readOffsetField_eq] at hr hk
  have hadv : ringAdvance (s.wordAt (fieldAddr s.cfg (s.cfg.nup + c) 3)) k ch.size < ch.size :=
    ringAdvance_lt (Nat.zero_lt_of_lt hr)
  have hmod := Nat.mod_eq_of_lt (Nat.lt_trans hadv (size_lt_space_down hc hdown))
  refine (channels_iff _).2 ⟨blockView_putWord_down hch hdown (by decide) (by decide) (hmod.symm ▸ hadv),
    fun p => ties_putWord (channel_lt_down hdown) (by decide) (hch.ties p) (fun ph l hq he => ?_)
    fun ph l hq he => ⟨by decide, fun _ hph => ?_⟩⟩
  · obtain ⟨ch', hup, -⟩ := (hch.ties p).1 ph l hq
    have : l.ch < s.cfg.nup := lt_of_getElem? hup
    omega
  · obtain ⟨ch', hdown', -, hsize, -, hcur, hn⟩ := (hch.ties p).2 ph l hq
    rw [Nat.add_left_cancel he] at hdown' hcur hn
    rw [hdown] at hdown'
    cases hdown'
    rw [hmod]
    refine Nat.le_trans (hn hph) ?_
    rw [hsize, hcur]
    exact ringAvailable_le_advance hr hw hk

/-- The host's data byte lies in a down buffer, outside the control block. -/
theorem hostDownData_outside (hc : s.cfg.wf = true) {c : Nat} {ch : Channel} (hdown : s.cfg.down[c]? = some ch)
    (x j : Nat) :
    ch.buf + chunkOffset x j ch.size < s.cfg.cbBase ∨
      s.cfg.cbBase + s.cfg.cbSize ≤ ch.buf + chunkOffset x j ch.size := by
  have hpos := (Config.channel_bounds (Config.channelOk_down hc (List.mem_of_getElem? hdown))).1
  exact buf_outside_cb hc (Config.downRegion_mem (List.mem_of_getElem? hdown)) (Nat.le_add_right _ _)
    (Nat.add_lt_add_left (chunkOffset_lt hpos) _)

theorem hostMove_channels (hch : s.Channels) (hc : s.cfg.wf = true) (hst : HostStep) : (hostMove hst s).Channels := by
  cases hst with
  | read a n => exact hch
  | upConsume c k => exact hostUpConsume_channels hch hc c k
  | downData c j b =>
    show (hostDownData c j b s).Channels
    rcases hostDownData_cases c j b s with h | ⟨ch, hdown, -, -, -, -, -, h⟩ <;> rw [h]
    · exact hch
    · exact channels_putByte hch (hostDownData_outside hc hdown _ j) b
  | downPublish c k => exact hostDownPublish_channels hch hc c k

theorem requesterMove_channels (hch : s.Channels) (hc : s.cfg.wf = true) (p : Nat) (a : Addr) (b : Byte) :
    (requesterMove p a b s).Channels := by
  rcases requesterMove_cases p a b s with h | ⟨-, -, -, hout, h⟩ <;> rw [h]
  · exact hch
  · exact channels_putByte hch (payload_outside hc hout Nat.zero_lt_one) b

/-- Once booted the boot agent has no step. -/
theorem bootMove_booted (hb : s.booted = true) : bootMove s = s := if_pos hb

end Sys2Proof.Machine

/-! ## Who writes a word of the control block -/

namespace Sys2Proof.Machine

open State

/-- The next step of a booted machine can write field `j` of descriptor slot `i` (10_state.md R24). -/
inductive FieldWriter (s : State) (i j : Nat) : Prop where
  | writePublish {p pick : Nat} {moves : List Move} {l : WriteLatch} (hs : s.schedule = .port p pick :: moves)
    (hp : (s.port p).state = .busy (.write .publish l)) (hl : l.ch < s.cfg.nup) (hi : i = l.ch) (hj : j = 3)
  | upConsume {c k : Nat} {moves : List Move} (hs : s.schedule = .host (.upConsume c k) :: moves) (hc : c < s.cfg.nup)
    (hi : i = c) (hj : j = 4)
  | setMode {p pick : Nat} {moves : List Move} {r : Request} {rest : List Request} {c : Nat} {m : Mode}
    (hs : s.schedule = .port p pick :: moves) (hp : (s.port p).state = .idle) (hq : (s.port p).queue = r :: rest)
    (hd : decodeWord r.cmd = .ok (.upSetMode c m)) (hc : c < s.cfg.nup) (hi : i = c) (hj : j = 5)
  | downPublish {c k : Nat} {moves : List Move} (hs : s.schedule = .host (.downPublish c k) :: moves)
    (hi : i = s.cfg.nup + c) (hj : j = 3)
  | readPublish {p pick : Nat} {moves : List Move} {l : ReadLatch} (hs : s.schedule = .port p pick :: moves)
    (hp : (s.port p).state = .busy (.read .publish l)) (hi : i = s.cfg.nup + l.ch) (hj : j = 4)

/-- Only cursors and flags have a writer. -/
theorem FieldWriter.field {s : State} {i j : Nat} (h : FieldWriter s i j) : 3 ≤ j ∧ j < 6 := by
  cases h <;> omega

/-- A byte that a step of a command changes is one it may store to. -/
theorem CommandStep.touches_of_ne {A : Addr → Prop} {s t : State} (h : CommandStep A s t) {a : Addr}
    (ha : t.byteAt a ≠ s.byteAt a) : A a := by
  by_contra hA
  exact ha (h.bytes hA)

variable {s t : State} {a : Nat}

section Change

variable (hch : s.Channels) (hc : s.cfg.wf = true) (ha : s.cfg.cbBase ≤ a ∧ a < s.cfg.cbBase + s.cfg.cbSize)
include hch hc ha

/-- A byte of the control block that a command in flight may store to belongs to the cursor it publishes. -/
theorem touches_busy_field {p pick : Nat} {moves : List Move} {c : InFlight} (hs : s.Sound)
    (hm : s.schedule = .port p pick :: moves) (hbusy : (s.port p).state = .busy c)
    (htouch : (s.turn p pick moves).touches c.instr a) :
    ∃ i j, FieldWriter s i j ∧ s.inWord (fieldAddr s.cfg i j) a := by
  cases c with
  | write ph l =>
    rcases htouch with ⟨l', hl', rfl⟩ | ⟨l', hl', hin⟩
    · have hout := writeTarget_outside hch hc hl' (pickPending l'.pending pick)
      rw [turn_pick] at ha
      simp only [Addr] at *
      omega
    · obtain ⟨ch, hup, hd, -⟩ := (hch.ties p).1 _ l' hl'
      rw [hd] at hin
      refine ⟨l'.ch, 3, .writePublish hm hl' (lt_of_getElem? hup) rfl rfl, ?_⟩
      rw [← writeOffsetField_eq]
      exact hin
  | read ph l =>
    rcases htouch with ⟨l', hl', rfl⟩ | ⟨l', hl', hin⟩
    · have hne : l'.pending ≠ [] := (hs.latchesOk p _ hl' : l'.Ok s.cfg .copy).copying.1 rfl
      have hout := readTarget_outside hs hc hl' (pickPending_mem hne pick)
      rw [turn_pick] at ha
      simp only [Addr] at *
      omega
    · obtain ⟨ch, hdown, hd, -⟩ := (hch.ties p).2 _ l' hl'
      rw [hd] at hin
      refine ⟨s.cfg.nup + l'.ch, 4, .readPublish hm hl' rfl rfl, ?_⟩
      rw [← readOffsetField_eq]
      exact hin

/-- A byte of the control block that a port's step changes belongs to a field with that writer. -/
theorem portStep_changed_field {p pick : Nat} {moves : List Move} (hs : s.Sound)
    (hm : s.schedule = .port p pick :: moves) (h : portStep (s.turn p pick moves) = .next t)
    (hne : t.byteAt a ≠ s.byteAt a) : ∃ i j, FieldWriter s i j ∧ s.inWord (fieldAddr s.cfg i j) a := by
  rcases portStep_next h with ⟨rfl, -⟩ | ⟨r, rest, i, -, hi, hq, hd, hexec⟩ | ⟨r, rest, e, -, -, -, -, rfl⟩ |
    ⟨c, hbusy, hexec⟩
  · exact absurd rfl hne
  · have htouch := (exec_step hexec).touches_of_ne hne
    have hidle : ((s.turn p pick moves).present r rest).cur.state = .idle := by
      rw [cur_present _ r rest (active_lt_of_idle hi)]
      exact hi
    cases i with
    | upWrite ch =>
      rcases htouch with ⟨l, hl, -⟩ | ⟨l, hl, -⟩ <;> exact nomatch hidle.symm.trans hl
    | downRead ch =>
      rcases htouch with ⟨l, hl, -⟩ | ⟨l, hl, -⟩ <;> exact nomatch hidle.symm.trans hl
    | upGetMode ch => exact htouch.elim
    | upSetMode ch m =>
      obtain ⟨hlt, hin⟩ := htouch
      refine ⟨ch, 5, .setMode hm hi hq hd (hch.upCount ▸ hlt) rfl rfl, ?_⟩
      rw [← flagsField_eq]
      exact hin
  · exact absurd rfl hne
  · exact touches_busy_field hch hc ha hs hm hbusy ((exec_step hexec).touches_of_ne hne)

/-- A byte of the control block that a host step changes belongs to a field with that writer. -/
theorem hostMove_changed_field {hst : HostStep} {moves : List Move} (hm : s.schedule = .host hst :: moves)
    (hne : (hostMove hst { s with schedule := moves }).byteAt a ≠ s.byteAt a) :
    ∃ i j, FieldWriter s i j ∧ s.inWord (fieldAddr s.cfg i j) a := by
  have hword : ∀ {f v}, (State.putWord { s with schedule := moves } f v).byteAt a ≠ s.byteAt a → s.inWord f a := by
    intro f v hw
    by_contra hin
    exact hw (byteAt_putWord_out s _ (not_inWord_iff.1 hin))
  cases hst with
  | read x n => exact absurd rfl hne
  | upConsume c k =>
    rw [hostMove] at hne
    rcases hostUpConsume_cases c k { s with schedule := moves } with h | ⟨ch, hup, -, -, -, -, -, h⟩ <;>
      rw [h] at hne
    · exact absurd rfl hne
    · refine ⟨c, 4, .upConsume hm (lt_of_getElem? hup) rfl rfl, ?_⟩
      rw [← readOffsetField_eq]
      exact hword hne
  | downData c j b =>
    rw [hostMove] at hne
    rcases hostDownData_cases c j b { s with schedule := moves } with h | ⟨ch, hdown, -, -, -, -, -, h⟩ <;>
      rw [h] at hne
    · exact absurd rfl hne
    · have hout := hostDownData_outside hc hdown (s.wordAt (s.writeOffsetField (s.descDown c))) j
      exact absurd ((sameCb_putByte b hout).bytes a ha.1 ha.2) hne
  | downPublish c k =>
    rw [hostMove] at hne
    rcases hostDownPublish_cases c k { s with schedule := moves } with h | ⟨ch, -, -, -, -, -, -, -, h⟩ <;>
      rw [h] at hne
    · exact absurd rfl hne
    · refine ⟨s.cfg.nup + c, 3, .downPublish hm rfl rfl, ?_⟩
      rw [← writeOffsetField_eq, ← hch.descDown_eq]
      exact hword hne

end Change

/-- A requester's own store changes no byte of the control block. -/
theorem requesterMove_block {u : State} (hc : u.cfg.wf = true) (p : Nat) (x : Addr) (b : Byte)
    (ha : u.cfg.cbBase ≤ a ∧ a < u.cfg.cbBase + u.cfg.cbSize) : (requesterMove p x b u).byteAt a = u.byteAt a := by
  rcases requesterMove_cases p x b u with h | ⟨-, -, -, hout, h⟩ <;> rw [h]
  exact (sameCb_putByte b (payload_outside hc hout Nat.zero_lt_one)).bytes a ha.1 ha.2

/-- Once booted, a byte of the control block that a step changes belongs to a field with that writer. -/
theorem step_changed_field (hs : s.Sound) (hch : s.Channels) (hb : s.booted = true) (h : step s = .next t)
    (htb : t.booted = true) (ha : s.cfg.cbBase ≤ a ∧ a < s.cfg.cbBase + s.cfg.cbSize)
    (hne : t.byteAt a ≠ s.byteAt a) :
    ∃ i j, FieldWriter s i j ∧ s.inWord (fieldAddr s.cfg i j) a := by
  obtain ⟨hc, ⟨-, rfl⟩ | ⟨mv, rest, hm, hrun⟩⟩ := step_next h
  · exact absurd rfl hne
  cases mv with
  | port p pick => exact portStep_changed_field hch hc ha hs hm hrun hne
  | host hst =>
    cases hrun
    exact hostMove_changed_field hch hc ha hm hne
  | requester p x b =>
    cases hrun
    exact absurd (requesterMove_block (u := { s with schedule := rest }) hc p x b ha) hne
  | boot =>
    cases hrun
    rw [bootMove_booted (s := { s with schedule := rest }) hb] at hne
    exact absurd rfl hne
  | reset v => cases hrun; exact nomatch htb

/-- Once booted, a descriptor field that a step changes is changed by its writer. -/
theorem step_field_writer (hs : s.Sound) (hch : s.Channels) (hb : s.booted = true) (h : step s = .next t)
    (htb : t.booted = true) {i j : Nat} (hi : i < s.cfg.nup + s.cfg.ndown) (hj : j < 6)
    (hne : t.wordAt (fieldAddr s.cfg i j) ≠ s.wordAt (fieldAddr s.cfg i j)) : FieldWriter s i j := by
  have hin := fieldAddr_inside hi hj
  obtain ⟨a, h1, h2, hbyte⟩ : ∃ a, fieldAddr s.cfg i j ≤ a ∧ a < fieldAddr s.cfg i j + s.cfg.W ∧
      t.byteAt a ≠ s.byteAt a := by
    by_contra hall
    push Not at hall
    refine hne ?_
    rw [wordAt, step_cfg h]
    exact Memory.readWord_congr _ _ _ hall
  have hcb : s.cfg.cbBase ≤ a ∧ a < s.cfg.cbBase + s.cfg.cbSize := by simp only [Addr] at *; omega
  obtain ⟨i', j', hw, h3, h4⟩ := step_changed_field hs hch hb h htb hcb hbyte
  by_cases he : i = i' ∧ j = j'
  · obtain ⟨rfl, rfl⟩ := he
    exact hw
  · have hapart := fieldAddr_apart s.cfg hw.field.2 hj he
    simp only [Addr] at *
    omega

end Sys2Proof.Machine

/-! ## The obligations about the state (10_state.md) -/

section
open Sys2Proof Sys2Proof.Machine

/-- Settles O41: the boot moves run the list of stores over memory, and each field is read off that list. -/
theorem bootLeavesListedValues : Obligations.BootLeavesListedValues := by
  intro s moves hc hb hpos hs
  have hrun := run_boot _ s hc hb (by rw [hpos, Nat.zero_add]) hs
  obtain ⟨t, ht⟩ : ∃ t, t = { s.finishBoot with schedule := moves } := ⟨_, rfl⟩
  have hcfg : t.cfg = s.cfg := by simp [ht, State.finishBoot, hb]
  have hmem : t.mem = bootImage t.cfg s.mem := by simp [ht, State.finishBoot, hb, hpos]
  have hwf : t.cfg.wf = true := hcfg ▸ hc
  refine ⟨t, ht ▸ hrun, ?_, hcfg, ?_, ?_, ?_, (header_afterBoot hwf hmem).1, ?_, ?_, ?_, ?_, ?_⟩
  · simp [ht, State.finishBoot, hb]
  · simp [ht, State.finishBoot, hb]
  · simp [ht, State.finishBoot, hb]
  · rw [ht]
  · exact hcfg ▸ (header_afterBoot hwf hmem).2.1
  · exact hcfg ▸ (header_afterBoot hwf hmem).2.2
  · exact fun k ch hch => up_afterBoot hwf hmem (hcfg ▸ hch)
  · exact fun k ch hch => down_afterBoot hwf hmem (hcfg ▸ hch)
  · intro a ha
    rw [State.byteAt, hmem]
    exact bootImage_outside s.mem (hcfg ▸ ha)

/-- Settles O50: every port is IDLE, so that no clause about commands in flight or faults asks for anything. -/
theorem resetStateIsSound : Obligations.ResetStateIsSound := by
  refine ⟨sound_reset, rfl, rfl, rfl, fun p hp => sound_reset.quietBeforeBoot rfl p ?_⟩
  rw [sound_reset.portCount]
  exact hp

/-- Settles O51: by the move, and for a port by what its step can be. -/
theorem stepKeepsSound : Obligations.StepKeepsSound := by
  intro s t hs h
  obtain ⟨hc, ⟨-, rfl⟩ | ⟨mv, rest, -, hrun⟩⟩ := step_next h
  · exact hs
  have hs' := sound_bookkeeping hs s.active s.pick rest
  cases mv with
  | port p pick => exact portStep_sound (sound_bookkeeping hs p pick rest) hc hrun
  | host hst => cases hrun; exact hostMove_sound hs' hc hst
  | requester p a b => cases hrun; exact requesterMove_sound hs' p a b
  | boot => cases hrun; exact bootMove_sound hs' hc
  | reset v => cases hrun; exact resetMove_sound hs' v

/-- Settles O52: by the move; a store goes outside the control block, or to one cursor or flags word of it. -/
theorem stepKeepsChannels : Obligations.StepKeepsChannels := by
  intro s t hs hch hb h htb
  obtain ⟨hc, ⟨-, rfl⟩ | ⟨mv, rest, -, hrun⟩⟩ := step_next h
  · exact hch
  have hch' := channels_bookkeeping hch s.active s.pick rest
  cases mv with
  | port p pick =>
    exact portStep_channels (sound_bookkeeping hs p pick rest) (channels_bookkeeping hch p pick rest) hc hrun
  | host hst => cases hrun; exact hostMove_channels hch' hc hst
  | requester p a b => cases hrun; exact requesterMove_channels hch' hc p a b
  | boot =>
    cases hrun
    rw [bootMove_booted (s := { s with schedule := rest }) hb]
    exact hch'
  | reset v => cases hrun; exact nomatch htb

/-- Settles O55: a word that changes has a byte that changes, and `FieldWriter` lists what the next step can write. -/
theorem eachCursorHasOneWriter : Obligations.EachCursorHasOneWriter := by
  intro s t hs hch hb h htb
  have hchanged := fun i j hi hj => step_field_writer hs hch hb h htb (i := i) (j := j) hi hj
  have hkept : ∀ i j, i < s.cfg.nup + s.cfg.ndown → j < 6 → ¬ FieldWriter s i j →
      t.wordAt (fieldAddr s.cfg i j) = s.wordAt (fieldAddr s.cfg i j) :=
    fun i j hi hj hno => not_imp_comm.1 (hchanged i j hi hj) hno
  have hconst : ∀ i j, i < s.cfg.nup + s.cfg.ndown → j < 3 →
      t.wordAt (fieldAddr s.cfg i j) = s.wordAt (fieldAddr s.cfg i j) :=
    fun i j hi hj => hkept i j hi (by omega) fun hw => by have := hw.field; omega
  have hwrite : ∀ d, t.writeOffset d = t.wordAt (s.writeOffsetField d) := fun d => by
    rw [State.writeOffset, State.writeOffsetField, step_cfg h]; rfl
  have hread : ∀ d, t.readOffset d = t.wordAt (s.readOffsetField d) := fun d => by
    rw [State.readOffset, State.readOffsetField, step_cfg h]; rfl
  refine ⟨fun c hc => ?_, fun c hc => ?_⟩
  · have hi : c < s.cfg.nup + s.cfg.ndown := Nat.lt_add_right _ hc
    rw [hwrite, hread, State.writeOffset, State.readOffset, State.descUp, writeOffsetField_eq, readOffsetField_eq,
      flagsField_eq, nameField_eq, bufferField_eq, sizeField_eq]
    refine ⟨fun hne => ?_, fun hne => ?_, fun hne => ?_, hconst c 0 hi (by decide), hconst c 1 hi (by decide),
      hconst c 2 hi (by decide)⟩
    · cases hchanged c 3 hi (by decide) hne with
      | writePublish hm hp hl hi hj => exact ⟨_, _, _, _, hm, hp, hi.symm⟩
      | _ => omega
    · cases hchanged c 4 hi (by decide) hne with
      | upConsume hm hc hi hj => exact hi ▸ ⟨_, _, hm⟩
      | _ => omega
    · cases hchanged c 5 hi (by decide) hne with
      | setMode hm hp hq hd hc hi hj => exact hi ▸ ⟨_, _, _, _, _, _, hm, hp, hq, hd⟩
      | _ => omega
  · have hi : s.cfg.nup + c < s.cfg.nup + s.cfg.ndown := Nat.add_lt_add_left hc _
    rw [hwrite, hread, State.writeOffset, State.readOffset, hch.descDown_eq, writeOffsetField_eq, readOffsetField_eq,
      flagsField_eq, nameField_eq, bufferField_eq, sizeField_eq]
    refine ⟨fun hne => ?_, fun hne => ?_, hkept _ 5 hi (by decide) fun hw => ?_, hconst _ 0 hi (by decide),
      hconst _ 1 hi (by decide), hconst _ 2 hi (by decide)⟩
    · cases hchanged _ 3 hi (by decide) hne with
      | downPublish hm hi hj => exact Nat.add_left_cancel hi ▸ ⟨_, _, hm⟩
      | _ => omega
    · cases hchanged _ 4 hi (by decide) hne with
      | readPublish hm hp hi hj => exact ⟨_, _, _, _, hm, hp, (Nat.add_left_cancel hi).symm⟩
      | _ => omega
    · cases hw <;> omega

/-- Settles O32: the latches set at issue are what `InFlight.issued` keeps of a command in flight. -/
theorem latchesChangeOnlyByOwnSteps : Obligations.LatchesChangeOnlyByOwnSteps := by
  intro s t p h
  refine ⟨fun ph l ph' l' hl hl' => ?_, fun ph l ph' l' hl hl' => ?_, fun hport hreset => ?_⟩
  · simpa [InFlight.issued] using step_keeps_issued h hl hl'
  · simpa [InFlight.issued] using step_keeps_issued h hl hl'
  · rcases step_cases h with ⟨q, pick, moves, hs, hstep⟩ | ⟨v, moves, hs, -⟩ | ⟨-, hports, -⟩
    · exact (portStep_frame hstep).2.1 p fun e => hport pick moves (e ▸ hs)
    · exact absurd hs (hreset v moves)
    · exact State.port_congr hports p

/-- Settles O37: only `State.raise` writes the log, at its end, and a port's step ends with one operation on the port. -/
theorem faultLogIsAppendOnly : Obligations.FaultLogIsAppendOnly := by
  intro s t h
  rcases step_cases h with ⟨p, pick, moves, -, hstep⟩ | ⟨v, moves, hs, rfl⟩ | ⟨-, -, hfaults⟩
  · exact .inr (portStep_frame hstep).2.2
  · exact .inl ⟨v, moves, hs, rfl⟩
  · exact .inr (.inl hfaults)

/-- Settles O6: an issue step presents the request and runs the command its word decodes to. -/
theorem stepRunsPresentedCommand : Obligations.StepRunsPresentedCommand := by
  intro s p pick moves r rest i hc hb hs hi hq hd
  refine ⟨_, rfl, ?_, rfl, rfl, rfl, rfl, rfl, hb, State.cur_present _ _ _ (State.active_lt_of_idle hi),
    fun q hq => State.port_present_ne _ _ _ hq⟩
  rw [step_issue hc hb hs hi hq, issueMove, hd]

/-- Settles O7: a port's step is taken by its state. -/
theorem stepContinuesCommandInFlight : Obligations.StepContinuesCommandInFlight := by
  intro s p pick moves c hc hs hbusy
  rw [step_turn hc hs]
  exact portStep_busy hbusy

/-- Settles O33: a step stores only where `State.touches` says, and ends with one operation on the current port. -/
theorem upWriteFrame : Obligations.UpWriteFrame := by
  intro s t ch h
  have hstep := exec_step h
  obtain ⟨hmachine, hothers, hregs, hresult, hfaults, -⟩ := hstep.frame
  refine ⟨hmachine, hothers, hregs, hresult, hfaults, fun l hl a ha => hstep.bytes ?_, fun l hl a ha => hstep.bytes ?_,
    fun hcopy hpublish a => hstep.bytes ?_⟩
  · simp [State.touches, hl, ha]
  · simp [State.touches, hl, ha]
  · simp [State.touches, hcopy, hpublish]

/-- Settles O34: as for UP_WRITE. -/
theorem downReadFrame : Obligations.DownReadFrame := by
  intro s t ch h
  have hstep := exec_step h
  obtain ⟨hmachine, hothers, hregs, hresult, hfaults, -⟩ := hstep.frame
  refine ⟨hmachine, hothers, hregs, hresult, hfaults, fun l hl a ha => hstep.bytes ?_, fun l hl a ha => hstep.bytes ?_,
    fun hcopy hpublish a => hstep.bytes ?_⟩
  · simp [State.touches, hl, ha]
  · simp [State.touches, hl, ha]
  · simp [State.touches, hcopy, hpublish]

/-- Settles O35: UP_GET_MODE stores nowhere, UP_SET_MODE only in the flags word. -/
theorem modeCommandsFrame : Obligations.ModeCommandsFrame := by
  intro s t i ch hi h
  have hstep := exec_step h
  obtain ⟨hmachine, hothers, hregs, hresult, hfaults, -⟩ := hstep.frame
  refine ⟨hmachine, hothers, hregs, hresult, hfaults, ?_, fun a ha => hstep.bytes ?_⟩
  · rintro rfl a
    exact hstep.bytes id
  · rcases hi with rfl | ⟨m, rfl⟩
    · exact id
    · exact fun htouch => ha htouch.2

end

/-! ## Memory (20_memory.md): the byte lanes of a word load, and what a requester's own store can change -/

namespace Sys2Proof.Machine

/-- A word load assembles the bytes of a little-endian word (20_memory.md R52). -/
theorem Memory.toNat_read_eq_readLittle (m : Memory) (n : Nat) : ∀ (a : Addr) (k : Nat), k < n →
    (m.read (a + k)).toNat = m.readLittle a n / 256 ^ k % 256 := by
  induction n with
  | zero => intro _ k hk; exact absurd hk (Nat.not_lt_zero k)
  | succ n ih =>
    intro a k hk
    have hbyte := (m.read a).isLt
    cases k with
    | zero =>
      simp only [readLittle, Nat.add_zero, Nat.pow_zero, Nat.div_one]
      omega
    | succ k =>
      have hrest : m.readLittle a (n + 1) / 256 = m.readLittle (a + 1) n := by
        simp only [readLittle, Word]
        omega
      rw [Nat.pow_succ', ← Nat.div_div_eq_div_mul, hrest, ← ih (a + 1) k (Nat.lt_of_succ_lt_succ hk),
        Nat.add_right_comm, Nat.add_assoc]

/-- A word load assembles the bytes of a big-endian word (20_memory.md R52). -/
theorem Memory.toNat_read_eq_readBig (m : Memory) (n : Nat) (a : Addr) : ∀ k : Nat, k < n →
    (m.read (a + k)).toNat = m.readBig a n / 256 ^ (n - 1 - k) % 256 := by
  induction n with
  | zero => intro k hk; exact absurd hk (Nat.not_lt_zero k)
  | succ n ih =>
    intro k hk
    have hbyte := (m.read (a + n)).isLt
    rcases Nat.lt_succ_iff_lt_or_eq.1 hk with hlt | rfl
    · have hrest : m.readBig a (n + 1) / 256 = m.readBig a n := by
        simp only [readBig, Word]
        omega
      rw [show n + 1 - 1 - k = n - 1 - k + 1 by omega, Nat.pow_succ', ← Nat.div_div_eq_div_mul, hrest]
      exact ih k hlt
    · simp only [readBig, Nat.add_sub_cancel, Nat.sub_self, Nat.pow_zero, Nat.div_one]
      omega

/-- A byte that a requester's own store changes is the one it stores, at an address outside every region of the block,
while its port is not BUSY. -/
theorem requesterMove_changed {s : State} {p : Nat} {a x : Addr} {b : Byte}
    (h : (requesterMove p a b s).byteAt x ≠ s.byteAt x) :
    x = a ∧ (∀ c, (s.port p).state ≠ .busy c) ∧ ∀ r ∈ s.cfg.regions, ¬ (r.1 ≤ x ∧ x < r.1 + r.2) := by
  rcases requesterMove_cases p a b s with hstay | ⟨-, -, hbusy, hmeets, hput⟩
  · exact absurd (congrArg (State.byteAt · x) hstay) h
  · rw [hput] at h
    obtain rfl : x = a := not_imp_comm.1 (State.byteAt_putByte_ne s b) h
    refine ⟨rfl, hbusy, fun r hr hin => ?_⟩
    have hr' := Bool.eq_false_iff.2 (List.any_eq_false.1 hmeets r hr)
    exact Config.Region.meets_eq_false_iff.1 hr' x ⟨⟨Nat.le_refl x, Nat.lt_succ_self x⟩, hin⟩

end Sys2Proof.Machine

/-! ## The obligations about memory (20_memory.md) -/

section
open Sys2Proof Sys2Proof.Machine

/-- Settles O43: the lanes of a store and of a load in either byte order, and no step changes the configuration. -/
theorem wordsUseConfiguredByteOrder : Obligations.WordsUseConfiguredByteOrder := by
  refine ⟨fun s a v k hk => ?_, fun s t h => congrArg Config.endian (step_cfg h)⟩
  -- a lane is a factor of `2 ^ 8`
  simp only [State.byteAt, State.putWord_mem, State.wordAt, Nat.pow_mul]
  refine ⟨fun he => ?_, fun he => ?_, fun he => ?_, fun he => ?_⟩ <;> rw [he]
  · exact Memory.read_writeLittle_in s.mem s.cfg.W a v k hk
  · exact Memory.read_writeBig_in s.mem s.cfg.W a v k hk
  · exact Memory.toNat_read_eq_readLittle s.mem s.cfg.W a k hk
  · exact Memory.toNat_read_eq_readBig s.mem s.cfg.W a k hk

/-- Settles O49: a requester's move writes memory only, and there only one byte outside every region of the block. -/
theorem requesterStoresOnlyOutsideTheBlock : Obligations.RequesterStoresOnlyOutsideTheBlock := by
  intro s t p a b moves hc hs h
  rw [step_eq hc hs] at h
  cases h
  refine ⟨fun x hx => ?_, ?_⟩
  · obtain ⟨hxa, hbusy, hout⟩ := requesterMove_changed (s := { s with schedule := moves }) hx
    exact ⟨hxa, hbusy, fun r hr _ => hout r hr⟩
  · obtain ⟨m, hm⟩ := requesterMove_eq p a b { s with schedule := moves }
    rw [hm]
    exact ⟨rfl, rfl, rfl, rfl, rfl⟩

/-- Settles O56: each access checks that it lies inside the space before anything else. -/
theorem accessOutsideAddressSpaceStops : Obligations.AccessOutsideAddressSpaceStops := by
  intro s a go goB goS v b
  refine ⟨fun hword => ?_, fun hbyte => ?_⟩
  · have hout : ¬ a + s.cfg.W ≤ s.cfg.space := Nat.not_le.2 hword
    exact ⟨if_neg hout, if_neg hout⟩
  · have hout : ¬ a < s.cfg.space := Nat.not_lt.2 hbyte
    exact ⟨if_neg hout, if_neg hout⟩

end

/-! ## The command word (30_encoding.md R80 to R88): its fields as numbers, and the decoder read off them -/

namespace Sys2Proof

/-! ### Fields of the word -/

theorem cmdOp_toNat (w : CmdWord) : (cmdOp w).toNat = w.toNat % 4 := by
  simp [cmdOp]

theorem cmdMd_toNat (w : CmdWord) : (cmdMd w).toNat = w.toNat / 4 % 4 := by
  simp [cmdMd, Nat.shiftRight_eq_div_pow]

theorem cmdRsv0_toNat (w : CmdWord) : (cmdRsv0 w).toNat = w.toNat / 2 ^ 4 % 2 ^ 12 := by
  simp [cmdRsv0, Nat.shiftRight_eq_div_pow]

theorem cmdCh_toNat (w : CmdWord) : (cmdCh w).toNat = Machine.wordChannel w := by
  simp [cmdCh, Machine.wordChannel, Nat.shiftRight_eq_div_pow]

theorem cmdRsv1_toNat (w : CmdWord) : (cmdRsv1 w).toNat = w.toNat / 2 ^ 24 := by
  have hlt := w.isLt
  simp only [cmdRsv1, BitVec.extractLsb_toNat, Nat.shiftRight_eq_div_pow]
  omega

/-! ### The fields of a command -/

theorem Mode.encoding_lt (m : Mode) : m.encoding < 3 := by cases m <;> decide

/-- A mode value stands for the mode it encodes. -/
theorem Mode.ofEncoding_eq_some_iff {v : Nat} {m : Mode} : Mode.ofEncoding v = some m ↔ m.encoding = v := by
  constructor
  · intro h
    unfold Mode.ofEncoding at h
    split_ifs at h <;> cases h <;> exact Eq.symm ‹_›
  · rintro rfl
    cases m <;> rfl

/-- Of the two-bit values only 3 stands for no mode (R76). -/
theorem Mode.ofEncoding_eq_none_iff {v : Nat} : Mode.ofEncoding v = none ↔ 3 ≤ v := by
  unfold Mode.ofEncoding
  split_ifs <;> simp <;> omega

theorem Mode.exists_encoding_eq_iff {v : Nat} : (∃ m : Mode, m.encoding = v) ↔ v < 3 := by
  simp only [← Mode.ofEncoding_eq_some_iff, ← Option.isSome_iff_exists, ← Option.ne_none_iff_isSome, ne_eq,
    Mode.ofEncoding_eq_none_iff, Nat.not_le]

/-- The fields of a command are within R85: MD is 0 but for UP_SET_MODE, and never 3. -/
theorem Instr.fields_legal (i : Instr) : i.op < 4 ∧ i.md < 3 ∧ (i.op ≠ 3 → i.md = 0) := by
  cases i with
  | upSetMode ch m => exact ⟨Nat.lt_succ_self 3, m.encoding_lt, fun h => absurd rfl h⟩
  | _ => simp [Instr.op, Instr.md]

theorem Mode.encoding_injective : Function.Injective Mode.encoding := fun m n h => by
  simpa [Mode.ofEncoding_eq_some_iff.2 h] using Mode.ofEncoding_eq_some_iff.2 (Eq.refl n.encoding)

/-- A command is known by its fields: OP gives the constructor, MD the mode and CH the channel. -/
theorem Instr.eq_of_fields : ∀ {i j : Instr}, i.op = j.op → i.md = j.md → i.ch = j.ch → i = j
  | .upWrite _, .upWrite _, _, _, rfl => rfl
  | .downRead _, .downRead _, _, _, rfl => rfl
  | .upGetMode _, .upGetMode _, _, _, rfl => rfl
  | .upSetMode _ _, .upSetMode _ _, _, hmd, hch => congrArg₂ Instr.upSetMode hch (Mode.encoding_injective hmd)

theorem encode_toNat {i : Instr} (h : i.wf = true) : (encode i).toNat = 2 ^ 16 * i.ch + 2 ^ 2 * i.md + i.op := by
  cases i with
  | upWrite ch => exact Laws.Encoding.upWrite ch h
  | downRead ch => exact Laws.Encoding.downRead ch h
  | upGetMode ch => exact Laws.Encoding.upGetMode ch h
  | upSetMode ch m => exact Laws.Encoding.upSetMode ch m h

theorem Instr.wf_iff {i : Instr} : i.wf = true ↔ i.ch < 256 := decide_eq_true_iff

namespace Machine

/-! ### Legal words -/

/-- `illegalWord` is the four cases of R86. -/
theorem illegalWord_iff {w : CmdWord} :
    illegalWord w = true ↔ w.toNat / 2 ^ 24 ≠ 0 ∨ w.toNat / 2 ^ 4 % 2 ^ 12 ≠ 0 ∨
      (w.toNat % 4 ≠ 3 ∧ w.toNat / 4 % 4 ≠ 0) ∨ (w.toNat % 4 = 3 ∧ w.toNat / 4 % 4 = 3) := by
  simp only [illegalWord, Bool.or_eq_true, Bool.and_eq_true, decide_eq_true_eq, or_assoc]

theorem illegalWord_iff_fields {w : CmdWord} :
    illegalWord w = true ↔ cmdRsv1 w ≠ 0 ∨ cmdRsv0 w ≠ 0 ∨ (cmdOp w ≠ 3 ∧ cmdMd w ≠ 0) ∨ (cmdOp w = 3 ∧ cmdMd w = 3) := by
  simp [illegalWord_iff, ← BitVec.toNat_inj, cmdOp_toNat, cmdMd_toNat, cmdRsv0_toNat, cmdRsv1_toNat]

/-- The decoder rejects a word of R86, and reads each field of any other word where R80 puts it. -/
theorem decodeWord_cases (w : CmdWord) :
    (illegalWord w = true ∧ ∃ e, decodeWord w = .error e) ∨
    (illegalWord w = false ∧ ∃ i, decodeWord w = .ok i ∧ i.op = w.toNat % 4 ∧ i.md = w.toNat / 4 % 4 ∧
      i.ch = wordChannel w) := by
  rw [← Bool.not_eq_true, illegalWord_iff_fields, ← cmdOp_toNat, ← cmdMd_toNat, ← cmdCh_toNat]
  unfold decodeWord
  -- the tests of the decoder in their order: each error is the case of R86 it tests
  split
  next hrsv1 => exact .inl ⟨.inl hrsv1, _, rfl⟩
  split
  next hrsv0 => exact .inl ⟨.inr (.inl hrsv0), _, rfl⟩
  rename_i hrsv1 hrsv0
  rw [not_not] at hrsv1 hrsv0
  split
  next hop =>
    split
    next m hm =>
      have hmd := Mode.ofEncoding_eq_some_iff.1 hm
      have hne : cmdMd w ≠ 3 := fun h => absurd m.encoding_lt (by simp [hmd, h])
      exact .inr ⟨by simpa [hrsv1, hrsv0, hop] using hne, _, rfl, by simp [hop, Instr.op], hmd, rfl⟩
    next hm =>
      have hmd : cmdMd w = 3 := BitVec.eq_of_toNat_eq
        (Nat.le_antisymm (Nat.le_of_lt_succ (cmdMd w).isLt) (Mode.ofEncoding_eq_none_iff.1 hm))
      exact .inl ⟨.inr (.inr (.inr ⟨hop, hmd⟩)), _, rfl⟩
  next hop =>
    split
    next hmd => exact .inl ⟨.inr (.inr (.inl ⟨hop, hmd⟩)), _, rfl⟩
    next hmd =>
      rw [not_not] at hmd
      refine .inr ⟨by simp [hrsv1, hrsv0, hmd], ?_⟩
      have hmd0 : 0 = (cmdMd w).toNat := by simp [hmd]
      split
      next hop0 => exact ⟨_, rfl, by simp [hop0, Instr.op], hmd0, rfl⟩
      split
      next hop1 => exact ⟨_, rfl, by simp [hop1, Instr.op], hmd0, rfl⟩
      next hop0 hop1 =>
        have hop2 : cmdOp w = 2 := by bv_omega
        exact ⟨_, rfl, by simp [hop2, Instr.op], hmd0, rfl⟩

/-- A word decodes to the command with its fields, if it is legal. -/
theorem decodeWord_eq_ok_iff {w : CmdWord} {i : Instr} :
    decodeWord w = .ok i ↔
      illegalWord w = false ∧ i.op = w.toNat % 4 ∧ i.md = w.toNat / 4 % 4 ∧ i.ch = wordChannel w := by
  rcases decodeWord_cases w with ⟨hillegal, e, he⟩ | ⟨hlegal, j, hj, hop, hmd, hch⟩
  · simp [he, hillegal]
  · rw [hj, Except.ok.injEq]
    constructor
    · rintro rfl
      exact ⟨hlegal, hop, hmd, hch⟩
    · rintro ⟨-, hop', hmd', hch'⟩
      exact Instr.eq_of_fields (hop.trans hop'.symm) (hmd.trans hmd'.symm) (hch.trans hch'.symm)

theorem decodeWord_error_iff {w : CmdWord} : (∃ e, decodeWord w = .error e) ↔ illegalWord w = true := by
  rcases decodeWord_cases w with ⟨hillegal, e, he⟩ | ⟨hlegal, i, hi, -⟩
  · simp [he, hillegal]
  · simp [hi, hlegal]

/-- What R86 leaves: reserved bits 0, MD 0 but for UP_SET_MODE, and MD never 3. -/
theorem illegalWord_eq_false_iff {w : CmdWord} :
    illegalWord w = false ↔ w.toNat / 2 ^ 24 = 0 ∧ w.toNat / 2 ^ 4 % 2 ^ 12 = 0 ∧
      (w.toNat % 4 ≠ 3 → w.toNat / 4 % 4 = 0) ∧ w.toNat / 4 % 4 ≠ 3 := by
  rw [← Bool.not_eq_true, illegalWord_iff]
  omega

/-! ### Rows of the opcode map (R85) -/

/-- A mask keeps a field of ones. -/
theorem and_field_of_ones {x mask k n : Nat} (h : mask / 2 ^ k % 2 ^ n = 2 ^ n - 1) :
    (x &&& mask) / 2 ^ k % 2 ^ n = x / 2 ^ k % 2 ^ n := by
  rw [Nat.and_div_two_pow, Nat.and_mod_two_pow, h, Nat.and_two_pow_sub_one_eq_mod, Nat.mod_mod]

/-- A mask clears a field of zeros. -/
theorem and_field_of_zeros {x mask k n : Nat} (h : mask / 2 ^ k % 2 ^ n = 0) : (x &&& mask) / 2 ^ k % 2 ^ n = 0 := by
  rw [Nat.and_div_two_pow, Nat.and_mod_two_pow, h, Nat.and_zero]

/-- The mask of every row but UP_SET_MODE's leaves out CH. -/
theorem toNat_and_rowMask (w : CmdWord) :
    (w &&& 0xFF00FFFF#32).toNat = w.toNat / 2 ^ 24 * 2 ^ 24 + w.toNat % 2 ^ 16 := by
  have hrsv1 := and_field_of_ones (x := w.toNat) (mask := 0xFF00FFFF) (k := 24) (n := 8) rfl
  have hch := and_field_of_zeros (x := w.toNat) (mask := 0xFF00FFFF) (k := 16) (n := 8) rfl
  have hlow := and_field_of_ones (x := w.toNat) (mask := 0xFF00FFFF) (k := 0) (n := 16) rfl
  have hlt := (w &&& 0xFF00FFFF#32).isLt
  have hw := w.isLt
  simp only [BitVec.toNat_and, BitVec.toNat_ofNat, Nat.reducePow, Nat.reduceMod] at *
  omega

/-- The mask of UP_SET_MODE's row leaves out CH and MD. -/
theorem toNat_and_setModeMask (w : CmdWord) :
    (w &&& 0xFF00FFF3#32).toNat =
      w.toNat / 2 ^ 24 * 2 ^ 24 + w.toNat / 2 ^ 4 % 2 ^ 12 * 2 ^ 4 + w.toNat % 4 := by
  have hrsv1 := and_field_of_ones (x := w.toNat) (mask := 0xFF00FFF3) (k := 24) (n := 8) rfl
  have hch := and_field_of_zeros (x := w.toNat) (mask := 0xFF00FFF3) (k := 16) (n := 8) rfl
  have hrsv0 := and_field_of_ones (x := w.toNat) (mask := 0xFF00FFF3) (k := 4) (n := 12) rfl
  have hmd := and_field_of_zeros (x := w.toNat) (mask := 0xFF00FFF3) (k := 2) (n := 2) rfl
  have hop := and_field_of_ones (x := w.toNat) (mask := 0xFF00FFF3) (k := 0) (n := 2) rfl
  have hlt := (w &&& 0xFF00FFF3#32).isLt
  have hw := w.isLt
  simp only [BitVec.toNat_and, BitVec.toNat_ofNat, Nat.reducePow, Nat.reduceMod] at *
  omega

/-- A row with MD = 0 names the command with its OP: the word is legal, its OP is the row's, and CH is free. -/
theorem exists_decodeWord_iff_row {w : CmdWord} {command : Nat → Instr} {op : Nat} (hlt : op < 3)
    (hop : ∀ ch, (command ch).op = op) (hmd : ∀ ch, (command ch).md = 0) (hch : ∀ ch, (command ch).ch = ch) :
    (∃ ch, decodeWord w = .ok (command ch)) ↔ w &&& 0xFF00FFFF#32 = BitVec.ofNat 32 op := by
  have hval : (BitVec.ofNat 32 op).toNat = op := Nat.mod_eq_of_lt (by omega)
  simp only [decodeWord_eq_ok_iff, hop, hmd, hch, exists_and_left, exists_eq, and_true]
  rw [← BitVec.toNat_inj, toNat_and_rowMask, hval, illegalWord_eq_false_iff]
  omega

/-- UP_SET_MODE's row, with a mode that is not reserved: the word is legal, its OP is 3, and CH and MD are free. -/
theorem exists_decodeWord_iff_setModeRow {w : CmdWord} :
    (∃ ch m, decodeWord w = .ok (.upSetMode ch m)) ↔
      (w &&& 0xFF00FFF3#32 = 0x00000003#32 ∧ w.toNat / 4 % 4 ≠ 3) := by
  have hval : (3#32).toNat = 3 := rfl
  rw [exists_comm]
  simp only [decodeWord_eq_ok_iff, Instr.op, Instr.md, Instr.ch, exists_and_left, exists_eq, and_true,
    Mode.exists_encoding_eq_iff]
  rw [← BitVec.toNat_inj, toNat_and_setModeMask, hval, illegalWord_eq_false_iff]
  omega

/-! ### The issue of a word (R86) -/

/-- An illegal word faults ILLEGAL_CMD before any memory access. -/
theorem issueMove_of_illegal {r : Request} (h : illegalWord r.cmd = true) (rest : List Request) (s : State) :
    issueMove r rest s = .next ((s.present r rest).raise .illegalCmd (wordChannel r.cmd)) := by
  obtain ⟨e, he⟩ := decodeWord_error_iff.2 h
  rw [issueMove, he, ← cmdCh_toNat]

/-- A legal word runs the command with its fields. -/
theorem issueMove_of_legal {r : Request} (h : illegalWord r.cmd = false) (rest : List Request) (s : State) :
    ∃ i, issueMove r rest s = exec i (s.present r rest) ∧ i.op = r.cmd.toNat % 4 ∧ i.ch = wordChannel r.cmd := by
  rcases decodeWord_cases r.cmd with ⟨hillegal, -⟩ | ⟨-, i, hi, hop, -, hch⟩
  · exact absurd hillegal (by simp [h])
  · exact ⟨i, by rw [issueMove, hi], hop, hch⟩

section
variable {s : State} {ch : Nat}

theorem upCount_inside (h : s.cfg.wf = true) : s.cfg.upCountAddr + s.cfg.W ≤ s.cfg.space :=
  (upCount_in s.cfg).2.trans (Config.cb_inside h)

theorem downCount_inside (h : s.cfg.wf = true) : s.cfg.downCountAddr + s.cfg.W ≤ s.cfg.space :=
  (downCount_in s.cfg).2.trans (Config.cb_inside h)

/-! The first check of each command on an IDLE port is the one of its channel against the count. -/

theorem exec_upWrite_chRange (hi : s.cur.state = .idle) (hin : s.cfg.upCountAddr + s.cfg.W ≤ s.cfg.space)
    (h : s.upCount ≤ ch) : exec (.upWrite ch) s = .next (s.raise .chRange ch) := by
  rw [exec_upWrite, execUpWrite, hi]
  exact (State.load_eq hin _).trans (if_pos h)

theorem exec_downRead_chRange (hi : s.cur.state = .idle) (hin : s.cfg.downCountAddr + s.cfg.W ≤ s.cfg.space)
    (h : s.downCount ≤ ch) : exec (.downRead ch) s = .next (s.raise .chRange ch) := by
  rw [exec_downRead, execDownRead, hi]
  exact (State.load_eq hin _).trans (if_pos h)

theorem exec_upGetMode_chRange (hi : s.cur.state = .idle) (hin : s.cfg.upCountAddr + s.cfg.W ≤ s.cfg.space)
    (h : s.upCount ≤ ch) : exec (.upGetMode ch) s = .next (s.raise .chRange ch) := by
  rw [exec_upGetMode, execUpGetMode, hi]
  exact (State.load_eq hin _).trans (if_pos h)

theorem exec_upSetMode_chRange {m : Mode} (hi : s.cur.state = .idle)
    (hin : s.cfg.upCountAddr + s.cfg.W ≤ s.cfg.space) (h : s.upCount ≤ ch) :
    exec (.upSetMode ch m) s = .next (s.raise .chRange ch) := by
  rw [exec_upSetMode, execUpSetMode, hi]
  exact (State.load_eq hin _).trans (if_pos h)

/-- A command issued with its channel at or above the count of its direction faults CH_RANGE. -/
theorem exec_chRange {i : Instr} (hc : s.cfg.wf = true) (hi : s.cur.state = .idle)
    (h : (if i.op = 1 then s.downCount else s.upCount) ≤ i.ch) : exec i s = .next (s.raise .chRange i.ch) := by
  cases i with
  | upWrite ch => exact exec_upWrite_chRange hi (upCount_inside hc) h
  | downRead ch => exact exec_downRead_chRange hi (downCount_inside hc) h
  | upGetMode ch => exact exec_upGetMode_chRange hi (upCount_inside hc) h
  | upSetMode ch m => exact exec_upSetMode_chRange hi (upCount_inside hc) h

end

end Machine
end Sys2Proof

/-! ## The obligations about the encoding (30_encoding.md) -/

section
open Sys2Proof Sys2Proof.Machine

/-- Settles O1: the fields of `encode i`, read off its number, are those of `i`. -/
theorem decodeUndoesEncode : Obligations.DecodeUndoesEncode := by
  intro i hwf
  have hnum := encode_toNat hwf
  have hch := Instr.wf_iff.1 hwf
  obtain ⟨hop, hmd, hzero⟩ := i.fields_legal
  rw [decodeWord_eq_ok_iff, illegalWord_eq_false_iff, wordChannel, hnum]
  omega

/-- Settles O2: a legal word is the sum of its fields, each at the place where `encode` puts it. -/
theorem encodeUndoesDecode : Obligations.EncodeUndoesDecode := by
  intro w i h
  have hwf := Instr.wf_iff.2 (decodeWord_wf h)
  obtain ⟨hlegal, hop, hmd, hch⟩ := decodeWord_eq_ok_iff.1 h
  obtain ⟨hrsv1, hrsv0, -, -⟩ := illegalWord_eq_false_iff.1 hlegal
  refine ⟨hwf, BitVec.eq_of_toNat_eq ?_⟩
  rw [encode_toNat hwf, hop, hmd, hch, wordChannel]
  omega

/-- Settles O3: a row fixes OP and MD and the reserved bits, and the decoder reads CH and MD off the word. -/
theorem legalWordsMatchOneTableRow : Obligations.LegalWordsMatchOneTableRow := by
  intro w
  refine ⟨?_, ?_, ?_, exists_decodeWord_iff_setModeRow, fun i h => ?_, fun ch m h => ?_⟩
  · exact exists_decodeWord_iff_row (by decide) (fun _ => rfl) (fun _ => rfl) fun _ => rfl
  · exact exists_decodeWord_iff_row (by decide) (fun _ => rfl) (fun _ => rfl) fun _ => rfl
  · exact exists_decodeWord_iff_row (by decide) (fun _ => rfl) (fun _ => rfl) fun _ => rfl
  · obtain ⟨-, -, -, hch⟩ := decodeWord_eq_ok_iff.1 h
    exact hch
  · obtain ⟨-, -, hmd, -⟩ := decodeWord_eq_ok_iff.1 h
    exact hmd

/-- Settles O4: the decoder rejects an illegal word, and a legal one runs a command whose first check is CH_RANGE. -/
theorem illegalWordFaultsBeforeMemory : Obligations.IllegalWordFaultsBeforeMemory := by
  intro s p pick moves r rest hc hb hs hi hq
  rw [step_issue hc hb hs hi hq, ← illegalWord_iff, Bool.not_eq_true]
  refine ⟨fun hillegal => ⟨issueMove_of_illegal hillegal rest _, rfl⟩, fun hlegal hcount => ?_⟩
  obtain ⟨i, hissue, hop, hch⟩ := issueMove_of_legal hlegal rest (s.turn p pick moves)
  have hidle : ((s.turn p pick moves).present r rest).cur.state = .idle := by
    rw [State.cur_present _ r rest (State.active_lt_of_idle (s := s.turn p pick moves) hi)]
    exact hi
  rw [← hop, ← hch] at hcount
  rw [hissue, ← hch]
  exact exec_chRange hc hidle hcount

/-- Settles O5: the decoder evaluated on each word. -/
theorem sampleWordsDecodeAsListed : Obligations.SampleWordsDecodeAsListed := by
  unfold Obligations.SampleWordsDecodeAsListed
  decide

end

/-! ## The ring arithmetic (40_ring_engine.md): occupancy, room and chunks -/

namespace Sys2Proof.Machine

variable {r w x k n size : Nat}

/-! ### The results as integers, and their bounds (R100, R101) -/

theorem coe_ringFree (h : 0 < size) : (ringFree r w size : Int) = ((r : Int) - w - 1) % size :=
  Int.toNat_of_nonneg (Int.emod_nonneg _ (by omega))

theorem coe_ringAvailable (h : 0 < size) : (ringAvailable w r size : Int) = ((w : Int) - r) % size :=
  Int.toNat_of_nonneg (Int.emod_nonneg _ (by omega))

theorem ringFree_le (hr : r < size) (hw : w < size) : ringFree r w size ≤ size - 1 :=
  Nat.le_sub_one_of_lt (ringFree_lt hr hw)

theorem ringAvailable_le (hw : w < size) (hr : r < size) : ringAvailable w r size ≤ size - 1 :=
  Nat.le_sub_one_of_lt (ringAvailable_lt hw hr)

/-! ### Advances (R102) -/

theorem ringAdvance_zero (hx : x < size) : ringAdvance x 0 size = x := Nat.mod_eq_of_lt hx

theorem ringAdvance_ringAdvance : ringAdvance (ringAdvance x k size) n size = ringAdvance x (k + n) size := by
  simp only [ringAdvance, Nat.mod_add_mod, Nat.add_assoc]

/-- The occupancy is the one advance shorter than the buffer that takes the read cursor to the write cursor. -/
theorem ringAvailable_eq_iff (hw : w < size) (hr : r < size) (hn : n < size) :
    ringAvailable w r size = n ↔ ringAdvance r n size = w := by
  rcases ringAvailable_cases hw hr with ⟨_, ha⟩ | ⟨_, ha⟩ <;>
    rcases ringAdvance_cases hr hn.le with ⟨_, hadv⟩ | ⟨_, hadv⟩ <;> omega

theorem ringAdvance_ringAvailable (hw : w < size) (hr : r < size) : ringAdvance r (ringAvailable w r size) size = w :=
  (ringAvailable_eq_iff hw hr (ringAvailable_lt hw hr)).1 rfl

/-! ### Usable capacity, empty and full (R103, R104) -/

theorem ringFree_add_ringAvailable (hr : r < size) (hw : w < size) :
    ringFree r w size + ringAvailable w r size = size - 1 := by
  rcases ringFree_cases hr hw with ⟨_, hf⟩ | ⟨_, hf⟩ <;>
    rcases ringAvailable_cases hw hr with ⟨_, ha⟩ | ⟨_, ha⟩ <;> omega

theorem ringEmpty_iff : ringEmpty w r = true ↔ w = r := beq_iff_eq

theorem ringFull_iff : ringFull w r size = true ↔ ringAdvance w 1 size = r := beq_iff_eq

theorem ringAvailable_eq_zero_iff (hw : w < size) (hr : r < size) : ringAvailable w r size = 0 ↔ w = r := by
  rw [ringAvailable_eq_iff hw hr (Nat.zero_lt_of_lt hr), ringAdvance_zero hr, eq_comm]

/-- The room is the distance from the slot after the write cursor on to the read cursor. -/
theorem ringFree_eq_ringAvailable_succ : ringFree r w size = ringAvailable r (ringAdvance w 1 size) size := by
  rw [ringFree, ringAvailable, ringAdvance, Int.natCast_emod, Int.sub_emod_emod, Nat.cast_add, Nat.cast_one, sub_sub]

theorem ringFree_eq_zero_iff (hr : r < size) : ringFree r w size = 0 ↔ ringAdvance w 1 size = r := by
  rw [ringFree_eq_ringAvailable_succ, ringAvailable_eq_zero_iff hr (ringAdvance_lt (Nat.zero_lt_of_lt hr)), eq_comm]

/-! ### Publishes (R107, R108) -/

/-- A producer's publish raises the occupancy by its count. -/
theorem ringAvailable_publish (hr : r < size) (hw : w < size) (hn : n ≤ ringFree r w size) :
    ringAvailable (ringAdvance w n size) r size = ringAvailable w r size + n := by
  have hsum := ringFree_add_ringAvailable hr hw
  rw [ringAvailable_eq_iff (ringAdvance_lt (Nat.zero_lt_of_lt hr)) hr (by omega), ← ringAdvance_ringAdvance,
    ringAdvance_ringAvailable hw hr]

/-- A consumer's publish lowers the occupancy by its count. -/
theorem ringAvailable_consume (hr : r < size) (hw : w < size) (hn : n ≤ ringAvailable w r size) :
    ringAvailable w (ringAdvance r n size) size = ringAvailable w r size - n := by
  have hlt := ringAvailable_lt hw hr
  rw [ringAvailable_eq_iff hw (ringAdvance_lt (Nat.zero_lt_of_lt hr)) (by omega), ringAdvance_ringAdvance,
    Nat.add_sub_cancel' hn, ringAdvance_ringAvailable hw hr]

/-- A producer's publish takes its count off the room. -/
theorem ringFree_publish (hr : r < size) (hw : w < size) (hn : n ≤ ringFree r w size) :
    ringFree r (ringAdvance w n size) size = ringFree r w size - n := by
  have hsum := ringFree_add_ringAvailable hr hw
  have hsum' := ringFree_add_ringAvailable hr (ringAdvance_lt (x := w) (n := n) (Nat.zero_lt_of_lt hr))
  rw [ringAvailable_publish hr hw hn] at hsum'
  omega

/-- A consumer's publish gives the producer its count as room (R109). -/
theorem ringFree_consume (hr : r < size) (hw : w < size) (hn : n ≤ ringAvailable w r size) :
    ringFree (ringAdvance r n size) w size = ringFree r w size + n := by
  have hsum := ringFree_add_ringAvailable hr hw
  have hsum' := ringFree_add_ringAvailable (ringAdvance_lt (x := r) (n := n) (Nat.zero_lt_of_lt hr)) hw
  rw [ringAvailable_consume hr hw hn] at hsum'
  omega

/-! ### The two runs of a chunk (R105) -/

theorem chunkOffset_first_run (h : k < chunkRun1 x n size) : chunkOffset x k size = x + k := by
  have hk := Nat.lt_of_lt_of_le h (Nat.min_le_right n (size - x))
  exact ringAdvance_of_lt (by omega)

/-- A byte past the first run exists only where the chunk wraps, so that the first run ends with the buffer. -/
theorem chunkOffset_second_run (hx : x < size) (hn : n ≤ size) (hk : chunkRun1 x n size ≤ k) (hkn : k < n) :
    chunkOffset x k size = k - chunkRun1 x n size := by
  have hrun : chunkRun1 x n size = size - x := Nat.min_eq_right (by unfold chunkRun1 at hk; omega)
  rw [hrun] at hk ⊢
  have hwrap : chunkOffset x k size = x + k - size := ringAdvance_of_ge (by omega) (by omega)
  omega

end Sys2Proof.Machine

/-! ## The obligations about the ring arithmetic (40_ring_engine.md) -/

section
open Sys2Proof Sys2Proof.Machine

/-- Settles O10: a read cursor above the write cursor, or not, and the room as an integer. -/
theorem freeSpaceFormula : Obligations.FreeSpaceFormula := by
  refine ⟨fun r w size hr hw => ⟨?_, coe_ringFree (Nat.zero_lt_of_lt hr), ringFree_le hr hw⟩, by decide⟩
  split
  case isTrue h => exact ringFree_of_lt hr h
  case isFalse h => exact ringFree_of_le hw (Nat.le_of_not_lt h)

/-- Settles O11: a write cursor at or above the read cursor, or not, and the occupancy as an integer. -/
theorem availableBytesFormula : Obligations.AvailableBytesFormula := by
  refine ⟨fun w r size hw hr => ⟨?_, coe_ringAvailable (Nat.zero_lt_of_lt hr), ringAvailable_le hw hr⟩, by decide⟩
  split
  case isTrue h => exact ringAvailable_of_le hw h
  case isFalse h => exact ringAvailable_of_lt hr (Nat.lt_of_not_le h)

/-- Settles O12: an advance below the size, or not, and a remainder by the size. -/
theorem cursorAdvanceWraps : Obligations.CursorAdvanceWraps := by
  refine ⟨fun x n size hx hn => ?_, by decide⟩
  have hlt : ringAdvance x n size < size := ringAdvance_lt (Nat.zero_lt_of_lt hx)
  refine ⟨?_, hlt, Nat.ne_of_lt hlt⟩
  split
  case isTrue h => exact ringAdvance_of_lt h
  case isFalse h => exact ringAdvance_of_ge (Nat.le_of_not_lt h) (by omega)

/-- Settles O13: the predicates by their equations, and the rest from the sum of room and occupancy. -/
theorem freeAndAvailableAddUp : Obligations.FreeAndAvailableAddUp := by
  intro r w size hr hw
  have hsum := ringFree_add_ringAvailable hr hw
  have hfree := ringFree_eq_zero_iff (w := w) hr
  have havail := ringAvailable_eq_zero_iff hw hr
  rw [ringEmpty_iff, ringFull_iff]
  refine ⟨hsum, Iff.rfl, havail.symm, Iff.rfl, hfree.symm, by omega, by omega, fun hsize => ?_⟩
  exact ⟨havail.1 (by omega), hfree.1 (by omega)⟩

/-- Settles O14: the two runs, and bytes of a chunk shorter than the buffer at distinct offsets. -/
theorem chunkIsTwoRuns : Obligations.ChunkIsTwoRuns := by
  intro x n size hx hn
  have hlt : n < size := by omega
  refine ⟨fun k hk => chunkOffset_first_run hk, fun k => chunkOffset_second_run hx hlt.le, Nat.min_eq_left, ?_⟩
  exact fun i j hi hj => chunkOffset_inj (hi.trans hlt) (hj.trans hlt)

/-- Settles O15: the publish of either side moves the occupancy, and the room is the rest of the capacity. -/
theorem publishMovesOccupancy : Obligations.PublishMovesOccupancy := by
  intro r w size n hr hw
  refine ⟨fun hn => ?_, fun hn => ?_, fun hn => ?_⟩
  · exact ⟨ringAvailable_publish hr hw hn, ringFree_publish hr hw hn⟩
  · exact ⟨ringAvailable_consume hr hw hn, ringFree_consume hr hw hn⟩
  · subst hn
    exact ⟨ringAdvance_zero hw, ringAdvance_zero hr⟩

end

/-! ## UP_WRITE (41_write.md R121 to R125): each phase as an equation, case by case -/

namespace Sys2Proof.Machine

open State

/-! ### Chunk sizes (R123) -/

/-- With room for all that remains, every mode takes it. -/
theorem chunk_eq_rem {f rem : Nat} (m : Mode) (h : rem ≤ f) : chunk m f rem = rem := by
  cases m
  · exact if_pos h
  · exact Nat.min_eq_right h
  · exact Nat.min_eq_right h

/-- Without that room SKIP takes nothing. -/
theorem chunk_skip_of_lt {f rem : Nat} (h : f < rem) : chunk .skip f rem = 0 := if_neg (Nat.not_le.2 h)

/-- Without more room than remains, TRIM and BLOCK take what there is. -/
theorem chunk_eq_free {f rem : Nat} {m : Mode} (hm : m ≠ .skip) (h : f ≤ rem) : chunk m f rem = f := by
  cases m
  · exact absurd rfl hm
  · exact Nat.min_eq_left h
  · exact Nat.min_eq_left h

variable {s : State} {l : WriteLatch} {k n : Nat}

/-! ### `W_SAMPLE` (R122) -/

section Sample

variable (hin : s.readOffsetField l.d + s.cfg.W ≤ s.cfg.space)
include hin

theorem writeSample_cursorRange (hr : l.size ≤ s.readOffset l.d) :
    writeSample l s = .next (s.raise .cursorRange l.ch) :=
  (load_eq hin _).trans (if_pos hr)

variable (hr : s.readOffset l.d < l.size)
  (hn : n = chunk l.mode (ringFree (s.readOffset l.d) l.cur l.size) (l.len - l.done))
include hr hn

theorem writeSample_sized (hpos : 0 < n) :
    writeSample l s = .next (s.goOn (.write .copy { l with n := n, pending := List.range n })) := by
  subst hn
  exact (load_eq hin _).trans ((if_neg (Nat.not_le.2 hr)).trans (if_pos hpos))

theorem writeSample_empty (hzero : n = 0) :
    writeSample l s = if l.mode = .block ∧ 0 < l.len - l.done then .next s else .next (s.complete l.done) := by
  have hpos : ¬ 0 < n := by omega
  subst hn
  exact (load_eq hin _).trans ((if_neg (Nat.not_le.2 hr)).trans (if_neg hpos))

/-- The hold of a BLOCK write (R133). -/
theorem writeSample_held (hzero : n = 0) (hm : l.mode = .block) (hrem : 0 < l.len - l.done) :
    writeSample l s = .next s :=
  (writeSample_empty hin hr hn hzero).trans (if_pos ⟨hm, hrem⟩)

theorem writeSample_complete (hzero : n = 0) (h : l.mode = .block → l.len ≤ l.done) :
    writeSample l s = .next (s.complete l.done) :=
  (writeSample_empty hin hr hn hzero).trans (if_neg fun hb => by have := h hb.1; omega)

end Sample

/-! ### `W_COPY` (R124) -/

/-- Where a copy step reads byte `k` of the chunk: byte `done + k` of the payload. -/
def writeSource (l : WriteLatch) (k : Nat) : Addr := l.addr + l.done + k

/-- The state after the copy of byte `k` of the chunk. -/
def State.writeCopied (s : State) (l : WriteLatch) (k : Nat) : State :=
  (s.putByte (writeTarget l k) (s.byteAt (writeSource l k))).goOn
    (.write (if l.pending.erase k = [] then .publish else .copy) { l with pending := l.pending.erase k })

theorem writeCopy_eq (hne : l.pending ≠ []) (hk : pickPending l.pending s.pick = k)
    (hsource : writeSource l k < s.cfg.space) (htarget : writeTarget l k < s.cfg.space) :
    writeCopy l s = .next (s.writeCopied l k) := by
  subst hk
  exact (if_neg hne).trans ((loadByte_eq hsource _).trans (storeByte_eq htarget _ _))

/-! ### `W_PUBLISH` (R125) -/

section Publish

variable (hin : s.writeOffsetField l.d + s.cfg.W ≤ s.cfg.space)
include hin

theorem writePublish_again (hm : l.mode = .block) (hd : l.done + l.n < l.len) :
    writePublish l s = .next ((s.putWord (s.writeOffsetField l.d) (ringAdvance l.cur l.n l.size)).goOn
      (.write .sample { l with cur := ringAdvance l.cur l.n l.size, done := l.done + l.n })) := by
  rw [writePublish, store_eq hin]
  exact if_pos ⟨hm, hd⟩

theorem writePublish_complete (h : l.mode = .block → l.len ≤ l.done + l.n) :
    writePublish l s =
      .next ((s.putWord (s.writeOffsetField l.d) (ringAdvance l.cur l.n l.size)).complete (l.done + l.n)) := by
  rw [writePublish, store_eq hin]
  exact if_neg fun hb => Nat.not_lt.2 (h hb.1) hb.2

end Publish

/-! ### Turns of one port -/

/-- What port `p`, running alone, leaves of the machine whatever its command does. -/
structure Alone (p : Nat) (s t : State) : Prop where
  cfg : t.cfg = s.cfg
  faults : t.faults = s.faults
  others : ∀ q, q ≠ p → t.port q = s.port q

theorem Alone.refl (p : Nat) (s : State) : Alone p s s := ⟨rfl, rfl, fun _ _ => rfl⟩

theorem Alone.trans {p : Nat} {s t u : State} (h : Alone p s t) (h' : Alone p t u) : Alone p s u :=
  ⟨h'.cfg.trans h.cfg, h'.faults.trans h.faults, fun q hq => (h'.others q hq).trans (h.others q hq)⟩

/-- A turn of port `p` that makes `s` into `t`: besides memory only the port changed, and `moves` are to come. -/
structure TookTurn (p : Nat) (moves : List Move) (s t : State) : Prop where
  stepped : step s = .next t
  alone : Alone p s t
  schedule : t.schedule = moves

section Turn

variable {p : Nat} {moves : List Move} {s v : State}

/-- A turn that ends with the command going on. -/
theorem TookTurn.of_goOn {c : InFlight} (hstep : step s = .next (v.goOn c)) (hv : Alone p s v)
    (hactive : v.active = p) (hsched : v.schedule = moves) (hlt : p < v.ports.length) :
    TookTurn p moves s (v.goOn c) ∧ ((v.goOn c).port p).state = .busy c := by
  subst hactive
  refine ⟨⟨hstep, hv.trans ⟨rfl, rfl, fun q hq => port_goOn_ne v c hq⟩, hsched⟩, ?_⟩
  rw [port_goOn_same hlt]

/-- A turn that completes the command. -/
theorem TookTurn.of_complete {n : Word} (hstep : step s = .next (v.complete n)) (hv : Alone p s v)
    (hactive : v.active = p) (hsched : v.schedule = moves) (hlt : p < v.ports.length) :
    TookTurn p moves s (v.complete n) ∧ ((v.complete n).port p).state = .idle ∧
      ((v.complete n).port p).result = n := by
  subst hactive
  refine ⟨⟨hstep, hv.trans ⟨rfl, rfl, fun q hq => port_complete_ne v n hq⟩, hsched⟩, ?_⟩
  rw [port_complete_same hlt]
  exact ⟨rfl, rfl⟩

end Turn

/-- A step of an UP_WRITE in flight is the step of its phase. -/
theorem step_write {p pick : Nat} {moves : List Move} {ph : WritePhase} (hc : s.cfg.wf = true)
    (hs : s.schedule = .port p pick :: moves) (hbusy : (s.port p).state = .busy (.write ph l)) :
    step s = exec (.upWrite l.ch) (s.turn p pick moves) :=
  (step_turn hc hs).trans (portStep_busy (s := s.turn p pick moves) hbusy)

/-- A BUSY port exists. -/
theorem lt_of_port_busy {p : Nat} {c : InFlight} (h : (s.port p).state = .busy c) : p < s.ports.length :=
  lt_of_port_state s (by rw [h]; simp)

/-! ### The copy phase, run alone (R124) -/

/-- The chunk of the latches lies inside the space, is shorter than the buffer, and is read from outside it. -/
structure WriteLatch.Placeable (c : Config) (l : WriteLatch) : Prop where
  pendingOnce : l.pending.Nodup
  pendingInChunk : ∀ k ∈ l.pending, k < l.n
  chunkShort : l.n < l.size
  bufferInside : l.buf + l.size ≤ c.space
  sourceInside : l.addr + l.done + l.n ≤ c.space
  sourceApart : l.addr + l.done + l.n ≤ l.buf ∨ l.buf + l.size ≤ l.addr + l.done

namespace WriteLatch.Placeable

variable {c : Config} {j : Nat} (h : l.Placeable c)
include h

theorem erase (k : Nat) : Placeable c { l with pending := l.pending.erase k } :=
  { h with
    pendingOnce := h.pendingOnce.erase k
    pendingInChunk := fun j hj => h.pendingInChunk j (List.mem_of_mem_erase hj) }

theorem target_in_buffer (k : Nat) : l.buf ≤ writeTarget l k ∧ writeTarget l k < l.buf + l.size :=
  ⟨Nat.le_add_right _ _, Nat.add_lt_add_left (chunkOffset_lt (Nat.zero_lt_of_lt h.chunkShort)) _⟩

theorem target_inside (k : Nat) : writeTarget l k < c.space :=
  Nat.lt_of_lt_of_le (h.target_in_buffer k).2 h.bufferInside

theorem source_inside (hk : k ∈ l.pending) : writeSource l k < c.space :=
  Nat.lt_of_lt_of_le (Nat.add_lt_add_left (h.pendingInChunk k hk) _) h.sourceInside

/-- No copy step changes a byte that a later one reads. -/
theorem source_ne_target (hj : j ∈ l.pending) (k : Nat) : writeSource l j ≠ writeTarget l k := by
  have hchunk := h.pendingInChunk j hj
  have hbuffer := h.target_in_buffer k
  have hapart := h.sourceApart
  unfold writeSource
  simp only [Addr] at *
  omega

/-- Two bytes of the chunk have different places. -/
theorem target_ne (hj : j ∈ l.pending) (hk : k ∈ l.pending) (hne : j ≠ k) : writeTarget l j ≠ writeTarget l k :=
  fun he => hne (chunkOffset_inj ((h.pendingInChunk j hj).trans h.chunkShort)
    ((h.pendingInChunk k hk).trans h.chunkShort) (Nat.add_left_cancel he))

end WriteLatch.Placeable

/-- What the copy steps of the pending bytes of `l` on port `p` make of `s`. -/
structure ChunkCopied (p : Nat) (l : WriteLatch) (s t : State) : Prop where
  alone : Alone p s t
  state : (t.port p).state = .busy (.write .publish { l with pending := [] })
  placed : ∀ k ∈ l.pending, t.byteAt (writeTarget l k) = s.byteAt (writeSource l k)
  frame : ∀ a, (∀ k ∈ l.pending, a ≠ writeTarget l k) → t.byteAt a = s.byteAt a

/-- The copy of one pending byte, then of the others, is the copy of all. -/
theorem ChunkCopied.cons {p : Nat} {s u t : State} (hl : l.Placeable s.cfg) (hk : k ∈ l.pending) (hu : Alone p s u)
    (hbyte : ∀ a, u.byteAt a = if a = writeTarget l k then s.byteAt (writeSource l k) else s.byteAt a)
    (ht : ChunkCopied p { l with pending := l.pending.erase k } u t) : ChunkCopied p l s t := by
  have hrest : ∀ {j}, j ∈ l.pending.erase k ↔ j ≠ k ∧ j ∈ l.pending := hl.pendingOnce.mem_erase_iff
  refine ⟨hu.trans ht.alone, ht.state, fun j hj => ?_, fun a ha => ?_⟩
  · by_cases hjk : j = k
    · subst hjk
      calc t.byteAt (writeTarget l j)
          = u.byteAt (writeTarget l j) := ht.frame _ fun i hi =>
            hl.target_ne hj (hrest.1 hi).2 (Ne.symm (hrest.1 hi).1)
        _ = s.byteAt (writeSource l j) := (hbyte _).trans (if_pos rfl)
    · calc t.byteAt (writeTarget l j)
          = u.byteAt (writeSource l j) := ht.placed j (hrest.2 ⟨hjk, hj⟩)
        _ = s.byteAt (writeSource l j) := (hbyte _).trans (if_neg (hl.source_ne_target hj k))
  · calc t.byteAt a
        = u.byteAt a := ht.frame a fun i hi => ha i (hrest.1 hi).2
      _ = s.byteAt a := (hbyte a).trans (if_neg (ha k hk))

/-- A copy step of an UP_WRITE copies the pending byte it picks and leaves the others pending. -/
theorem turn_copy {p pick : Nat} {moves : List Move} (hc : s.cfg.wf = true) (hl : l.Placeable s.cfg)
    (hne : l.pending ≠ []) (hbusy : (s.port p).state = .busy (.write .copy l))
    (hs : s.schedule = .port p pick :: moves) :
    ∃ k u, k ∈ l.pending ∧ TookTurn p moves s u ∧
      (∀ a, u.byteAt a = if a = writeTarget l k then s.byteAt (writeSource l k) else s.byteAt a) ∧
      (u.port p).state = .busy (.write (if l.pending.erase k = [] then .publish else .copy)
        { l with pending := l.pending.erase k }) := by
  obtain ⟨k, hk⟩ : ∃ k, pickPending l.pending pick = k := ⟨_, rfl⟩
  have hmem : k ∈ l.pending := hk ▸ pickPending_mem hne pick
  have hstep : step s = .next ((s.turn p pick moves).writeCopied l k) := by
    rw [step_write hc hs hbusy, exec_write_copy (s := s.turn p pick moves) hbusy]
    exact writeCopy_eq hne hk (hl.source_inside hmem) (hl.target_inside k)
  obtain ⟨hturn, hstate⟩ := TookTurn.of_goOn hstep ⟨rfl, rfl, fun _ _ => rfl⟩ rfl rfl (lt_of_port_busy hbusy)
  exact ⟨k, _, hmem, hturn, fun a => Memory.read_write .., hstate⟩

/-- One copy step for each pending byte, in any order of the bytes, copies them all. -/
theorem run_copy {p : Nat} {moves : List Move} (picks : List Nat) : ∀ (s : State) (l : WriteLatch),
    s.cfg.wf = true → l.Placeable s.cfg →
    (s.port p).state = .busy (.write (if l.pending = [] then .publish else .copy) l) →
    picks.length = l.pending.length → s.schedule = picks.map (Move.port p) ++ moves →
    ∃ t : State, Host.Core.run core picks.length s = .next t ∧ ChunkCopied p l s t ∧ t.schedule = moves := by
  induction picks with
  | nil =>
    intro s l _ _ hstate hlen hs
    have hnone : l.pending = [] := List.eq_nil_of_length_eq_zero hlen.symm
    have hlatch : { l with pending := [] } = l := by rw [← hnone]
    refine ⟨s, rfl, ⟨.refl p s, ?_, ?_, fun _ _ => rfl⟩, hs⟩
    · rw [hstate, if_pos hnone, hlatch]
    · rw [hnone]
      exact fun _ hk => nomatch hk
  | cons pick picks ih =>
    intro s l hc hl hstate hlen hs
    have hne : l.pending ≠ [] := List.ne_nil_of_length_eq_add_one hlen.symm
    rw [if_neg hne] at hstate
    obtain ⟨k, u, hk, ⟨hstep, halone, hs'⟩, hbyte, hstate'⟩ := turn_copy hc hl hne hstate hs
    have hlen' : picks.length = (l.pending.erase k).length := by
      rw [List.length_erase_of_mem hk, ← hlen]
      rfl
    obtain ⟨t, hrun, hcopied, hsched⟩ := ih u { l with pending := l.pending.erase k } (halone.cfg ▸ hc)
      (halone.cfg ▸ hl.erase k) hstate' hlen' hs'
    exact ⟨t, (run_next hstep _).trans hrun, hcopied.cons hl hk halone hbyte, hsched⟩

end Sys2Proof.Machine

/-! ## The checks at issue (60_exceptions.md R203): a command runs its list of checks, then acts -/

namespace Sys2Proof.Machine

open State

/-- The first check that fails faults; if none fails the command goes on with `go`. -/
def State.afterChecks (s : State) (checks : List (FaultCode × Bool)) (ch : Nat) (go : Out) : Out :=
  match firstFailing checks with
  | some code => .next (s.raise code ch)
  | none => go

theorem firstFailing_eq_none_iff {checks : List (FaultCode × Bool)} :
    firstFailing checks = none ↔ ∀ x ∈ checks, x.2 = false := by
  simp [firstFailing, List.find?_eq_none]

variable {s : State} {ch : Nat} {d : Addr} {mode : Mode}

section AfterChecks

variable {checks : List (FaultCode × Bool)} {code : FaultCode} {failed : Bool} {go : Out}

theorem afterChecks_of_some (h : firstFailing checks = some code) :
    s.afterChecks checks ch go = .next (s.raise code ch) := by
  rw [afterChecks, h]

theorem afterChecks_of_none (h : firstFailing checks = none) : s.afterChecks checks ch go = go := by
  rw [afterChecks, h]

theorem afterChecks_nil : s.afterChecks [] ch go = go := rfl

theorem afterChecks_cons : s.afterChecks ((code, failed) :: checks) ch go =
    if failed = true then .next (s.raise code ch) else s.afterChecks checks ch go := by
  cases failed <;> rfl

end AfterChecks

/-! ### The words a command reads at issue lie inside the space when its descriptor does -/

/-- The count of the up channels lies before every descriptor. -/
theorem upCount_before_desc (s : State) (ch : Nat) : s.cfg.upCountAddr + s.cfg.W ≤ s.descUp ch := by
  have h := Config.header_before_desc s.cfg ch
  simp only [Config.upCountAddr, descUp, Addr] at *
  omega

theorem descInside_upCount (h : s.descInside (s.descUp ch)) : s.cfg.upCountAddr + s.cfg.W ≤ s.cfg.space :=
  (upCount_before_desc s ch).trans ((Nat.le_add_right _ _).trans h)

theorem descInside_bufferField (h : s.descInside d) : s.bufferField d + s.cfg.W ≤ s.cfg.space := by
  simp only [descInside, bufferField, Addr] at *; omega

theorem descInside_sizeField (h : s.descInside d) : s.sizeField d + s.cfg.W ≤ s.cfg.space := by
  simp only [descInside, sizeField, Addr] at *; omega

theorem descInside_writeOffsetField (h : s.descInside d) : s.writeOffsetField d + s.cfg.W ≤ s.cfg.space := by
  simp only [descInside, writeOffsetField, Addr] at *; omega

theorem descInside_readOffsetField (h : s.descInside d) : s.readOffsetField d + s.cfg.W ≤ s.cfg.space := by
  simp only [descInside, readOffsetField, Addr] at *; omega

theorem descInside_flagsField (h : s.descInside d) : s.flagsField d + s.cfg.W ≤ s.cfg.space := by
  simp only [descInside, flagsField, Addr] at *; omega

/-! ### The mode in a flags word (30_encoding.md R75, R76) -/

theorem flagsMode_eq_some_iff {flags : Word} : flagsMode flags = some mode ↔ mode.encoding = flags % 4 :=
  Mode.ofEncoding_eq_some_iff

theorem flagsMode_eq_none_iff {flags : Word} : flagsMode flags = none ↔ flags % 4 = 3 := by
  rw [flagsMode, Mode.ofEncoding_eq_none_iff, modeBits]
  simp only [Word] at *
  omega

/-! ### The issue steps -/

/-- The issue step of UP_WRITE is its checks in order, then the latches (41_write.md R121). -/
theorem issueWrite_eq (hin : s.descInside (s.descUp ch))
    (hmode : s.wordAt (s.flagsField (s.descUp ch)) % 4 ≠ 3 →
      flagsMode (s.wordAt (s.flagsField (s.descUp ch))) = some mode) :
    issueWrite ch s =
      s.afterChecks (s.writeChecks ch) ch (.next (s.goOn (.write .sample (s.writeLatch ch mode)))) := by
  simp only [issueWrite, load_eq (descInside_upCount hin), load_eq (descInside_sizeField hin),
    load_eq (descInside_bufferField hin), load_eq (descInside_writeOffsetField hin),
    load_eq (descInside_flagsField hin)]
  simp only [writeChecks, IssueReads.checks, payloadChecks, modeCheck, List.cons_append, List.nil_append,
    afterChecks_cons, afterChecks_nil, decide_eq_true_eq, ge_iff_le, gt_iff_lt]
  by_cases hreserved : s.wordAt (s.flagsField (s.descUp ch)) % 4 = 3
  · simp only [flagsMode_eq_none_iff.2 hreserved, hreserved, if_true]
    rfl
  · simp only [hmode hreserved, hreserved, if_false]
    rfl

/-- UP_GET_MODE on an IDLE port is its checks in order, then its completion (R140). -/
theorem execUpGetMode_eq (hi : s.cur.state = .idle) (hin : s.descInside (s.descUp ch)) :
    exec (.upGetMode ch) s = s.afterChecks (s.getModeChecks ch) ch
      (.next (s.complete (s.wordAt (s.flagsField (s.descUp ch)) % 4))) := by
  simp only [exec_upGetMode, execUpGetMode, hi, load_eq (descInside_upCount hin), load_eq (descInside_flagsField hin),
    getModeChecks, modeCheck, afterChecks_cons, afterChecks_nil, decide_eq_true_eq, ge_iff_le]
  cases hmode : flagsMode (s.wordAt (s.flagsField (s.descUp ch))) with
  | none => simp only [flagsMode_eq_none_iff.1 hmode, if_true]; rfl
  | some m =>
    have hreserved : ¬ s.wordAt (s.flagsField (s.descUp ch)) % 4 = 3 := fun h => by
      rw [flagsMode_eq_none_iff.2 h] at hmode
      cases hmode
    simp only [flagsMode_eq_some_iff.1 hmode, hreserved, if_false]
    rfl

/-- The state after UP_SET_MODE has stored the flags word and completed (R142). -/
def State.modeSet (s : State) (ch : Nat) (mode : Mode) : State :=
  (s.putWord (s.flagsField (s.descUp ch)) (setFlagsMode (s.wordAt (s.flagsField (s.descUp ch))) mode)).complete 0

/-- UP_SET_MODE on an IDLE port is its checks in order, then its store and its completion (R142). -/
theorem execUpSetMode_eq (hi : s.cur.state = .idle) (hin : s.descInside (s.descUp ch)) :
    exec (.upSetMode ch mode) s = s.afterChecks (s.setModeChecks ch) ch (.next (s.modeSet ch mode)) := by
  simp only [exec_upSetMode, execUpSetMode, hi, load_eq (descInside_upCount hin), load_eq (descInside_flagsField hin),
    store_eq (descInside_flagsField hin), setModeChecks, afterChecks_cons, afterChecks_nil, decide_eq_true_eq,
    ge_iff_le]
  rfl

/-- The race check comes before the descriptor is read. -/
theorem exec_upSetMode_modeRace (hc : s.cfg.wf = true) (hi : s.cur.state = .idle) (hch : ch < s.upCount)
    (hrace : s.otherLatches .up ch = true) : exec (.upSetMode ch mode) s = .next (s.raise .modeRace ch) := by
  rw [exec_upSetMode, execUpSetMode, hi]
  exact (load_eq (upCount_inside hc) _).trans ((if_neg (Nat.not_le.2 hch)).trans (if_pos hrace))

/-! ### What UP_SET_MODE leaves -/

theorem modeSet_cur (hi : s.cur.state = .idle) : (s.modeSet ch mode).cur = { s.cur with result := 0 } :=
  (cur_complete _ 0 (active_lt_of_idle (s := s) hi)).trans (by simp [hi])

/-- The flags word after UP_SET_MODE, whole: it fits its `AW` bits. -/
theorem modeSet_flags (hc : s.cfg.wf = true) :
    (s.modeSet ch mode).wordAt (s.flagsField (s.descUp ch)) =
      setFlagsMode (s.wordAt (s.flagsField (s.descUp ch))) mode :=
  (wordAt_putWord_same ..).trans (Nat.mod_eq_of_lt (setFlags_lt s.cfg hc (wordAt_lt ..) mode))

theorem modeSet_upCount : (s.modeSet ch mode).upCount = s.upCount := by
  have hbefore := upCount_before_desc s ch
  exact wordAt_putWord_disjoint s _ (.inl (hbefore.trans (Nat.le_add_right _ _)))

theorem setFlagsMode_mod (old : Word) (m : Mode) : setFlagsMode old m % 4 = m.encoding := by
  rw [setFlagsMode, Nat.mul_add_mod, Nat.mod_eq_of_lt (mode_encoding_lt m)]

theorem setFlagsMode_div (old : Word) (m : Mode) : setFlagsMode old m / 4 = old / 4 := by
  have hm := mode_encoding_lt m
  unfold setFlagsMode
  simp only [Word] at *
  omega

end Sys2Proof.Machine

/-! ## A command in flight, step by step: what its port's own step does, and what other agents leave alone -/

namespace Sys2Proof.Machine

open State

variable {s t : State} {p : Nat} {l : WriteLatch}

/-- A BUSY port's step is that of its command in flight; but for reset, every other step leaves the port alone. -/
theorem step_busy_cases {c : InFlight} (h : step s = .next t) (hbusy : (s.port p).state = .busy c)
    (htb : t.booted = true) :
    (∃ pick moves, exec c.instr (s.turn p pick moves) = .next t ∧ t.active = p) ∨ t.port p = s.port p := by
  rcases step_cases h with ⟨q, pick, moves, -, hstep⟩ | ⟨v, moves, -, rfl⟩ | ⟨-, hports, -⟩
  · by_cases hq : p = q
    · subst hq
      have hexec : exec c.instr (s.turn p pick moves) = .next t :=
        (portStep_busy (s := s.turn p pick moves) hbusy).symm.trans hstep
      obtain ⟨-, -, -, hactive, -⟩ := (exec_step hexec).frame.machine
      exact .inl ⟨pick, moves, hexec, hactive⟩
    · exact .inr ((portStep_frame hstep).2.1 p hq)
  · exact nomatch htb
  · exact .inr (port_congr hports p)

/-! ### The result of UP_WRITE (R130, R131, R132) -/

/-- What an UP_WRITE with these latches may return. -/
def WriteLatch.MayReturn (l : WriteLatch) (n : Nat) : Prop :=
  (l.mode = .skip → n = 0 ∨ n = l.len) ∧ (l.mode = .trim → n ≤ l.len) ∧ (l.mode = .block → n = l.len)

/-- At a sample that finds nothing to place: a first pass has placed nothing, a BLOCK write everything. -/
theorem WriteLatch.Ok.mayReturn_done {c : Config} (h : l.Ok c .sample)
    (hend : ¬ (l.mode = .block ∧ 0 < l.len - l.done)) : l.MayReturn l.done := by
  have hdone := h.doneWithin
  refine ⟨fun hm => .inl (h.onePass (by simp [hm])), fun _ => hdone, fun hm => ?_⟩
  have : ¬ 0 < l.len - l.done := fun hrem => hend ⟨hm, hrem⟩
  omega

/-- At a publish that is the last: a SKIP chunk is the whole payload, a BLOCK write has placed everything. -/
theorem WriteLatch.Ok.mayReturn_published {c : Config} (h : l.Ok c .publish)
    (hend : ¬ (l.mode = .block ∧ l.done + l.n < l.len)) : l.MayReturn (l.done + l.n) := by
  obtain ⟨-, -, hwithin⟩ := h.chunkSized (by decide)
  refine ⟨fun hm => .inr ?_, fun _ => hwithin, fun hm => ?_⟩
  · rw [h.onePass (by simp [hm]), h.skipWhole (by decide) hm, Nat.zero_add]
  · have : ¬ l.done + l.n < l.len := fun hlt => hend ⟨hm, hlt⟩
    omega

/-- A step that completes an UP_WRITE returns what its latches allow. -/
theorem exec_write_result {ph : WritePhase} (hok : l.Ok s.cfg ph) (hbusy : s.cur.state = .busy (.write ph l))
    (h : exec (.upWrite l.ch) s = .next t) (hidle : t.cur.state = .idle) : l.MayReturn t.cur.result := by
  have hl := active_lt_of_busy hbusy
  have hgo : ∀ {u c}, t = State.goOn u c → u.active < u.ports.length → l.MayReturn t.cur.result := by
    rintro u c rfl hu
    rw [cur_goOn u c hu] at hidle
    cases hidle
  have hstay : t = s → l.MayReturn t.cur.result := by
    rintro rfl
    exact nomatch hidle.symm.trans hbusy
  cases ph with
  | sample =>
    rw [exec_write_sample hbusy] at h
    rcases writeSample_next h with ⟨-, rfl⟩ | ⟨-, n, -, ⟨-, e⟩ | ⟨-, -, -, e⟩ | ⟨-, hend, rfl⟩⟩
    · rw [cur_raise s _ _ hl] at hidle
      cases hidle
    · exact hgo e hl
    · exact hstay e
    · rw [cur_complete s _ hl]
      exact hok.mayReturn_done hend
  | copy =>
    rw [exec_write_copy hbusy] at h
    rcases writeCopy_next h with ⟨-, e⟩ | ⟨k, -, -, -, e⟩
    · exact hstay e
    · exact hgo e hl
  | publish =>
    rw [exec_write_publish hbusy] at h
    obtain ⟨-, u, rfl, ⟨-, -, e⟩ | ⟨hend, rfl⟩⟩ := writePublish_next h
    · exact hgo e hl
    · rw [cur_complete (s.putWord _ _) _ hl]
      exact hok.mayReturn_published hend

/-! ### The hold of a BLOCK write (R133) -/

/-- The turn of a port that holds changes nothing. -/
theorem exec_turn_of_held {pick : Nat} {moves : List Move} (hin : s.readOffsetField l.d + s.cfg.W ≤ s.cfg.space)
    (hbusy : (s.port p).state = .busy (.write .sample l)) (hm : l.mode = .block) (hrem : l.done < l.len)
    (hr : s.readOffset l.d < l.size) (hfull : ringFree (s.readOffset l.d) l.cur l.size = 0) :
    exec (.upWrite l.ch) (s.turn p pick moves) = .next (s.turn p pick moves) := by
  have hchunk : 0 = chunk l.mode (ringFree (s.readOffset l.d) l.cur l.size) (l.len - l.done) := by
    rw [hfull, chunk_eq_free (by simp [hm]) (Nat.zero_le _)]
  rw [exec_write_sample (s := s.turn p pick moves) hbusy]
  exact writeSample_held (s := s.turn p pick moves) hin hr hchunk rfl hm (Nat.sub_pos_of_lt hrem)

/-- The words of a channel's descriptor lie inside the space. -/
theorem descUp_inside (hc : s.cfg.wf = true) {c : Nat} {ch : UpChannel} (hch : s.cfg.up[c]? = some ch) :
    s.descInside (s.descUp c) :=
  (Config.descAddr_inside (channel_lt_up hch)).trans (Config.cb_inside hc)

/-- Once booted, only the host's consume changes an up channel's read offset. -/
theorem consume_of_readOffset_ne (hs : s.Sound) (hch : s.Channels) (hb : s.booted = true) (h : step s = .next t)
    (htb : t.booted = true) {c : Nat} (hc : c < s.cfg.nup)
    (hne : t.readOffset (s.descUp c) ≠ s.readOffset (s.descUp c)) :
    ∃ k moves, s.schedule = .host (.upConsume c k) :: moves :=
  ((eachCursorHasOneWriter s t hs hch hb h htb).1 c hc).2.1 hne

/-- Only a consume of its channel ends a hold. -/
theorem consume_of_not_holds (hs : s.Sound) (hch : s.Channels) (hb : s.booted = true) (h : step s = .next t)
    (htb : t.booted = true) (hbusy : (s.port p).state = .busy (.write .sample l)) (hm : l.mode = .block)
    (hrem : l.done < l.len) (hr : s.readOffset l.d < l.size)
    (hfull : ringFree (s.readOffset l.d) l.cur l.size = 0) (hnot : ¬ t.holds p) :
    ∃ k moves, s.schedule = .host (.upConsume l.ch k) :: moves := by
  obtain ⟨ch, hup, hd, -⟩ := hch.writes p _ l hbusy
  have hin : s.readOffsetField l.d + s.cfg.W ≤ s.cfg.space :=
    hd ▸ descInside_readOffsetField (descUp_inside (step_next h).1 hup)
  rcases step_busy_cases h hbusy htb with ⟨pick, moves, hexec, -⟩ | hport
  · cases (exec_turn_of_held hin hbusy hm hrem hr hfull).symm.trans hexec
    exact absurd ⟨l, hbusy, hm, hrem, hr, hfull⟩ hnot
  · refine consume_of_readOffset_ne hs hch hb h htb (lt_of_getElem? hup) fun heq => hnot ?_
    rw [← hd] at heq
    exact ⟨l, by rw [hport, hbusy], hm, hrem, by rw [heq]; exact hr, by rw [heq]; exact hfull⟩

end Sys2Proof.Machine

/-! ## A whole UP_WRITE, run alone (R126, R130, R131) -/

namespace Sys2Proof.Machine

open State

/-- A run of `j + k` steps goes on where its first `j` steps end. -/
theorem run_add {t : State} (j k : Nat) : ∀ s : State, Host.Core.run core j s = .next t →
    Host.Core.run core (j + k) s = Host.Core.run core k t := by
  induction j with
  | zero =>
    intro s h
    cases h
    rw [Nat.zero_add]
  | succ j ih =>
    intro s h
    cases hstep : step s with
    | next u =>
      rw [run_next hstep] at h
      rw [Nat.succ_add, run_next hstep]
      exact ih u h
    | fault r => simp [Host.Core.run, show core.step s = .fault r from hstep] at h
    | refused r => simp [Host.Core.run, show core.step s = .refused r from hstep] at h

/-- The race check passes when no other port latches the channel. -/
theorem otherLatches_eq_false {s : State} {dir : Dir} {c : Nat}
    (h : ∀ q, q ≠ s.active → (s.port q).latches dir c = false) : s.otherLatches dir c = false := by
  simp only [otherLatches, List.any_eq_false, Bool.and_eq_true, bne_iff_ne, not_and]
  exact fun q _ hq => by simp [h q hq]

/-- Port `p` of a booted machine is about to issue an UP_WRITE on up channel `c` in mode `m` that passes every check. -/
structure WriteIssued (s : State) (p c : Nat) (ch : UpChannel) (m : Mode) (r : Request) (rest : List Request) :
    Prop where
  configured : s.cfg.wf = true
  channels : s.Channels
  booted : s.booted = true
  channel : s.cfg.up[c]? = some ch
  idle : (s.port p).state = .idle
  queue : (s.port p).queue = r :: rest
  cmd : r.cmd = encode (.upWrite c)
  addrFits : r.addr < s.cfg.space
  lenFits : r.len < s.cfg.space
  payloadInside : r.addr + r.len ≤ s.cfg.space
  payloadApart : s.cfg.regions.any (fun x => Config.Region.meets (r.addr, r.len) x) = false
  noRace : ∀ q, q ≠ p → (s.port q).latches .up c = false
  mode : flagsMode (s.wordAt (s.flagsField (s.descUp c))) = some m

/-- The latches of such an UP_WRITE. -/
def State.issuedLatch (s : State) (c : Nat) (ch : UpChannel) (m : Mode) (r : Request) : WriteLatch :=
  { ch := c, d := s.descUp c, size := ch.size, buf := ch.buf, cur := s.writeOffset (s.descUp c), mode := m,
    addr := r.addr, len := r.len, done := 0, n := 0, pending := [] }

variable {s : State} {p c n pick : Nat} {ch : UpChannel} {m : Mode} {r : Request} {rest : List Request}
  {moves : List Move} {l : WriteLatch}

namespace WriteIssued

variable (h : WriteIssued s p c ch m r rest)
include h

theorem decoded : decodeWord r.cmd = .ok (.upWrite c) := by
  have hc : c < s.cfg.nup := lt_of_getElem? h.channel
  have hwf : (Instr.upWrite c).wf = true := Instr.wf_iff.2 (hc.trans_le (Config.counts_le h.configured).1)
  rw [h.cmd]
  exact decodeUndoesEncode _ hwf

theorem port_lt : p < s.ports.length := lt_of_port_state s (by rw [h.idle]; simp)

theorem desc : s.DescOk (s.descUp c) ch.toChannel := (h.channels.up c ch h.channel).1

theorem descInside : s.descInside (s.descUp c) := descUp_inside h.configured h.channel

theorem buffer_mem : (ch.buf, ch.size) ∈ s.cfg.bufRegions := Config.upRegion_mem (List.mem_of_getElem? h.channel)

theorem bufferInside : ch.buf + ch.size ≤ s.cfg.space :=
  Config.region_inside h.configured (Config.bufRegions_sub h.buffer_mem)

/-- The port once the request is presented. -/
theorem presented : ((s.turn p pick moves).present r rest).cur =
    { s.port p with cmd := r.cmd, addr := r.addr, len := r.len, queue := rest } := by
  rw [cur_present _ _ _ h.port_lt, turn_cfg, Nat.mod_eq_of_lt h.addrFits, Nat.mod_eq_of_lt h.lenFits, turn_cur]

/-- The words the issue step checks are those of the configured channel. -/
theorem writeLatch_eq : ((s.turn p pick moves).present r rest).writeLatch c m = s.issuedLatch c ch m r := by
  rw [writeLatch, h.presented]
  exact congrArg₂ (fun size buf => ({ s.issuedLatch c ch m r with size := size, buf := buf } : WriteLatch))
    h.desc.size h.desc.buffer

/-- Every check of R121 passes. -/
theorem checks_pass : firstFailing (((s.turn p pick moves).present r rest).writeChecks c) = none := by
  have hcount : ¬ c ≥ s.upCount := Nat.not_le.2 (h.channels.upCount ▸ lt_of_getElem? h.channel)
  have hrace : ((s.turn p pick moves).present r rest).otherLatches .up c = false :=
    otherLatches_eq_false fun q hq => by
      rw [port_present_ne (s.turn p pick moves) r rest hq]
      exact h.noRace q hq
  have hsize : ¬ s.wordAt (s.sizeField (s.descUp c)) = 0 := by
    rw [h.desc.size]
    exact Nat.ne_of_gt (Nat.zero_lt_of_lt h.desc.writeInRange)
  have hbuffer : ¬ s.wordAt (s.bufferField (s.descUp c)) + s.wordAt (s.sizeField (s.descUp c)) > s.cfg.space := by
    rw [h.desc.size, h.desc.buffer]
    exact Nat.not_lt.2 h.bufferInside
  have hcur : ¬ s.writeOffset (s.descUp c) ≥ s.wordAt (s.sizeField (s.descUp c)) := by
    rw [h.desc.size]
    exact Nat.not_le.2 h.desc.writeInRange
  have hreserved : ¬ s.wordAt (s.flagsField (s.descUp c)) % 4 = 3 := fun he =>
    nomatch h.mode.symm.trans (flagsMode_eq_none_iff.2 he)
  rw [firstFailing_eq_none_iff]
  simp only [writeChecks, IssueReads.checks, payloadChecks, modeCheck, payloadOverlaps, payload, h.presented,
    List.cons_append, List.nil_append, List.forall_mem_cons, decide_eq_false_iff_not]
  exact ⟨hcount, hrace, hsize, hbuffer, hcur, hreserved, Nat.not_lt.2 h.payloadInside, h.payloadApart,
    fun _ hx => nomatch hx⟩

/-- The issue step latches and leaves memory alone. -/
theorem turn_issue (hs : s.schedule = .port p pick :: moves) : ∃ u, TookTurn p moves s u ∧ u.mem = s.mem ∧
    (u.port p).state = .busy (.write .sample (s.issuedLatch c ch m r)) := by
  obtain ⟨v, hv, hexec, hactive, -, hsched, hmem, hfaults, -, hcur, hothers⟩ :=
    stepRunsPresentedCommand s p pick moves r rest _ h.configured h.booted hs h.idle h.queue h.decoded
  have hidle : v.cur.state = .idle := by rw [hcur, ← h.idle]
  have hissue : issueWrite c v = .next (v.goOn (.write .sample (s.issuedLatch c ch m r))) := by
    have hchecked := issueWrite_eq (s := (s.turn p pick moves).present r rest) h.descInside fun _ => h.mode
    rwa [afterChecks_of_none h.checks_pass, h.writeLatch_eq, ← hv] at hchecked
  have hstep : step s = .next (v.goOn (.write .sample (s.issuedLatch c ch m r))) := by
    rw [hexec, exec_upWrite, execUpWrite, hidle]
    exact hissue
  have halone : Alone p s v := ⟨by rw [hv]; rfl, hfaults, hothers⟩
  have hlt : p < v.ports.length := hactive ▸ active_lt_of_idle hidle
  obtain ⟨hturn, hstate⟩ := TookTurn.of_goOn hstep halone hactive hsched hlt
  exact ⟨_, hturn, hmem, hstate⟩

end WriteIssued

/-! ### The sample and publish steps on the port's own turn -/

section OwnTurn

variable (hc : s.cfg.wf = true) (hs : s.schedule = .port p pick :: moves)
include hc hs

/-- A sample step that finds something to place leaves memory alone. -/
theorem turn_sample (hbusy : (s.port p).state = .busy (.write .sample l))
    (hin : s.readOffsetField l.d + s.cfg.W ≤ s.cfg.space) (hr : s.readOffset l.d < l.size)
    (hn : n = chunk l.mode (ringFree (s.readOffset l.d) l.cur l.size) (l.len - l.done)) (hpos : 0 < n) :
    ∃ u, TookTurn p moves s u ∧ u.mem = s.mem ∧
      (u.port p).state = .busy (.write .copy { l with n := n, pending := List.range n }) := by
  have hstep : step s =
      .next ((s.turn p pick moves).goOn (.write .copy { l with n := n, pending := List.range n })) := by
    rw [step_write hc hs hbusy, exec_write_sample (s := s.turn p pick moves) hbusy]
    exact writeSample_sized (s := s.turn p pick moves) hin hr hn hpos
  obtain ⟨hturn, hstate⟩ := TookTurn.of_goOn hstep ⟨rfl, rfl, fun _ _ => rfl⟩ rfl rfl (lt_of_port_busy hbusy)
  exact ⟨_, hturn, rfl, hstate⟩

/-- A sample step that completes the command leaves memory alone. -/
theorem turn_sample_complete (hbusy : (s.port p).state = .busy (.write .sample l))
    (hin : s.readOffsetField l.d + s.cfg.W ≤ s.cfg.space) (hr : s.readOffset l.d < l.size)
    (hn : n = chunk l.mode (ringFree (s.readOffset l.d) l.cur l.size) (l.len - l.done)) (hzero : n = 0)
    (hend : l.mode = .block → l.len ≤ l.done) :
    ∃ t, TookTurn p moves s t ∧ t.mem = s.mem ∧ (t.port p).state = .idle ∧ (t.port p).result = l.done := by
  have hstep : step s = .next ((s.turn p pick moves).complete l.done) := by
    rw [step_write hc hs hbusy, exec_write_sample (s := s.turn p pick moves) hbusy]
    exact writeSample_complete (s := s.turn p pick moves) hin hr hn hzero hend
  obtain ⟨hturn, hend⟩ := TookTurn.of_complete hstep ⟨rfl, rfl, fun _ _ => rfl⟩ rfl rfl (lt_of_port_busy hbusy)
  exact ⟨_, hturn, rfl, hend⟩

/-- A publish step that completes the command stores the write offset and nothing else. -/
theorem turn_publish_complete (hbusy : (s.port p).state = .busy (.write .publish l))
    (hin : s.writeOffsetField l.d + s.cfg.W ≤ s.cfg.space) (hend : l.mode = .block → l.len ≤ l.done + l.n) :
    ∃ t, TookTurn p moves s t ∧ (t.port p).state = .idle ∧ (t.port p).result = l.done + l.n ∧
      t.writeOffset l.d = ringAdvance l.cur l.n l.size % s.cfg.space ∧
      ∀ a, ¬ s.inWord (s.writeOffsetField l.d) a → t.byteAt a = s.byteAt a := by
  have hstep : step s = .next (((s.turn p pick moves).putWord (s.writeOffsetField l.d)
      (ringAdvance l.cur l.n l.size)).complete (l.done + l.n)) := by
    rw [step_write hc hs hbusy, exec_write_publish (s := s.turn p pick moves) hbusy]
    exact writePublish_complete (s := s.turn p pick moves) hin hend
  obtain ⟨hturn, hidle, hresult⟩ :=
    TookTurn.of_complete hstep ⟨rfl, rfl, fun _ _ => rfl⟩ rfl rfl (lt_of_port_busy hbusy)
  exact ⟨_, hturn, hidle, hresult, wordAt_putWord_same (s.turn p pick moves) _ _,
    fun a ha => byteAt_putWord_out (s.turn p pick moves) _ (not_inWord_iff.1 ha)⟩

end OwnTurn

/-! ### Fields and words depend on the configuration and memory only -/

variable {t : State}

theorem readOffsetField_congr (hc : t.cfg = s.cfg) (d : Addr) : t.readOffsetField d = s.readOffsetField d := by
  rw [readOffsetField, readOffsetField, hc]

theorem writeOffsetField_congr (hc : t.cfg = s.cfg) (d : Addr) : t.writeOffsetField d = s.writeOffsetField d := by
  rw [writeOffsetField, writeOffsetField, hc]

theorem inWord_congr (hc : t.cfg = s.cfg) {f a : Addr} : t.inWord f a ↔ s.inWord f a := by
  rw [inWord, inWord, hc]

theorem readOffset_congr (hm : t.mem = s.mem) (hc : t.cfg = s.cfg) (d : Addr) : t.readOffset d = s.readOffset d := by
  rw [readOffset, readOffset, readOffsetField_congr hc, wordAt_congr hm hc]

theorem writeOffset_congr (hm : t.mem = s.mem) (hc : t.cfg = s.cfg) (d : Addr) : t.writeOffset d = s.writeOffset d := by
  rw [writeOffset, writeOffset, writeOffsetField_congr hc, wordAt_congr hm hc]

/-! ### The whole command -/

/-- At least three entries are two first ones, a middle part and a last one. -/
theorem exists_ends_of_length {xs : List Nat} (h : xs.length = n + 3) : ∃ a b ys d, xs = a :: b :: (ys ++ [d]) := by
  match xs, h with
  | a :: b :: d :: ys, _ => exact ⟨a, b, _, _, by rw [List.dropLast_append_getLast (List.cons_ne_nil d ys)]⟩

/-- What an UP_WRITE of request `r` on up channel `c`, run alone on port `p`, makes of `s` when `n` bytes fit. -/
structure WriteDone (p c n : Nat) (ch : UpChannel) (r : Request) (s t : State) : Prop where
  alone : Alone p s t
  idle : (t.port p).state = .idle
  result : (t.port p).result = n
  cursor : t.writeOffset (s.descUp c) = ringAdvance (s.writeOffset (s.descUp c)) n ch.size
  placed : ∀ k, k < n →
    t.byteAt (ch.buf + chunkOffset (s.writeOffset (s.descUp c)) k ch.size) = s.byteAt (r.addr + k)
  frame : ∀ a, ¬ s.inWord (s.writeOffsetField (s.descUp c)) a →
    (∀ k, k < n → a ≠ ch.buf + chunkOffset (s.writeOffset (s.descUp c)) k ch.size) → t.byteAt a = s.byteAt a

namespace WriteIssued

variable (h : WriteIssued s p c ch m r rest)
  (hn : n = chunk m (ringFree (s.readOffset (s.descUp c)) (s.writeOffset (s.descUp c)) ch.size) r.len)
include h

/-- A byte of the buffer is no byte of the write offset. -/
theorem buffer_not_inWord (k : Nat) : ¬ s.inWord (s.writeOffsetField (s.descUp c))
    (ch.buf + chunkOffset (s.writeOffset (s.descUp c)) k ch.size) := by
  have hout := buf_outside_cb h.configured h.buffer_mem (Nat.le_add_right _ _)
    (Nat.add_lt_add_left (chunkOffset_lt (x := s.writeOffset (s.descUp c)) (k := k)
      (Nat.zero_lt_of_lt h.desc.writeInRange)) ch.buf)
  have hfield := fieldAddr_inside (channel_lt_up h.channel) (show 3 < 6 by decide)
  rw [descUp, writeOffsetField_eq, not_inWord_iff]
  simp only [descUp, Addr] at *
  omega

/-- What the sample step finds in a state with the same memory. -/
theorem sampled {u : State} (hc : u.cfg = s.cfg) (hm : u.mem = s.mem) :
    u.cfg.wf = true ∧ u.readOffsetField (s.descUp c) + u.cfg.W ≤ u.cfg.space ∧
      u.readOffset (s.descUp c) = s.readOffset (s.descUp c) := by
  rw [readOffsetField_congr hc, readOffset_congr hm hc, hc]
  exact ⟨h.configured, descInside_readOffsetField h.descInside, rfl⟩

include hn

/-- The chunk that fits can be placed. -/
theorem placeable (hpos : 0 < n) :
    WriteLatch.Placeable s.cfg { s.issuedLatch c ch m r with n := n, pending := List.range n } := by
  have hlen : n ≤ r.len := hn ▸ chunk_le_rem ..
  have hshort : n < ch.size :=
    Nat.lt_of_le_of_lt (hn ▸ chunk_le_free ..) (ringFree_lt h.desc.readInRange h.desc.writeInRange)
  have hmeets : Config.Region.meets (r.addr, r.len) (ch.buf, ch.size) = false :=
    Bool.eq_false_iff.2 (List.any_eq_false.1 h.payloadApart _ (Config.bufRegions_sub h.buffer_mem))
  have hapart : r.addr + r.len ≤ ch.buf ∨ ch.buf + ch.size ≤ r.addr :=
    Config.Region.apart_of_meets hmeets (Nat.lt_of_lt_of_le hpos hlen) (Nat.zero_lt_of_lt hshort)
  have hin := h.payloadInside
  exact {
    pendingOnce := List.nodup_range
    pendingInChunk := fun k hk => List.mem_range.1 hk
    chunkShort := hshort
    bufferInside := h.bufferInside
    sourceInside := by simp only [issuedLatch, Addr] at *; omega
    sourceApart := by simp only [issuedLatch, Addr] at *; omega }

/-- When nothing fits, the issue and sample steps are all. -/
theorem run_nothing {a b : Nat} (hzero : n = 0) (hblock : m = .block → r.len ≤ 0)
    (hs : s.schedule = .port p a :: .port p b :: moves) :
    ∃ t, Host.Core.run core 2 s = .next t ∧ WriteDone p c n ch r s t := by
  obtain ⟨u, hu, humem, hustate⟩ := h.turn_issue hs
  obtain ⟨huc, hin, hr⟩ := h.sampled hu.alone.cfg humem
  obtain ⟨t, ht, htmem, hidle, hresult⟩ := turn_sample_complete huc hu.schedule hustate hin
    (hr ▸ h.desc.readInRange) (hr ▸ hn) hzero hblock
  have halone := hu.alone.trans ht.alone
  have hmem := htmem.trans humem
  refine ⟨t, (run_next hu.stepped 1).trans ((run_next ht.stepped 0).trans (run_zero t)), halone, hidle, ?_, ?_, ?_, ?_⟩
  · exact hresult.trans hzero.symm
  · rw [writeOffset_congr hmem halone.cfg, hzero, ringAdvance_zero h.desc.writeInRange]
  · exact fun k hk => absurd (hzero ▸ hk) (Nat.not_lt_zero k)
  · exact fun a _ _ => byteAt_congr hmem a

/-- When something fits, the copy steps and the publish step follow. -/
theorem run_chunk {a b d : Nat} {picks : List Nat} (hpos : 0 < n) (hblock : m = .block → r.len ≤ n)
    (hpicks : picks.length = n)
    (hs : s.schedule = .port p a :: .port p b :: (picks.map (Move.port p) ++ .port p d :: moves)) :
    ∃ t, Host.Core.run core (n + 3) s = .next t ∧ WriteDone p c n ch r s t := by
  obtain ⟨u, hu, humem, hustate⟩ := h.turn_issue hs
  obtain ⟨huc, hin, hr⟩ := h.sampled hu.alone.cfg humem
  obtain ⟨v, hv, hvmem, hvstate⟩ := turn_sample huc hu.schedule hustate hin
    (hr ▸ h.desc.readInRange) (hr ▸ hn) hpos
  have hvalone := hu.alone.trans hv.alone
  have hvbyte := fun a => byteAt_congr (hvmem.trans humem) a
  have hcopy : List.range n ≠ [] := by simpa using Nat.ne_of_gt hpos
  obtain ⟨w, hrun, hw, hws⟩ := run_copy picks v _ (hvalone.cfg ▸ h.configured) (hvalone.cfg ▸ h.placeable hn hpos)
    (by rw [hvstate, if_neg hcopy]) (by rw [hpicks, List.length_range]) hv.schedule
  have hwalone := hvalone.trans hw.alone
  have hfield := writeOffsetField_congr hwalone.cfg (s.descUp c)
  have hwin : w.writeOffsetField (s.descUp c) + w.cfg.W ≤ w.cfg.space := by
    rw [hfield, hwalone.cfg]
    exact descInside_writeOffsetField h.descInside
  have hend : m = .block → r.len ≤ 0 + n := fun hm => (Nat.zero_add n).symm ▸ hblock hm
  obtain ⟨t, ht, hidle, hresult, hcursor, hframe⟩ :=
    turn_publish_complete (hwalone.cfg ▸ h.configured) hws hw.state hwin hend
  have hkept : ∀ a, ¬ s.inWord (s.writeOffsetField (s.descUp c)) a → t.byteAt a = w.byteAt a :=
    fun a ha => hframe a (hfield.symm ▸ fun hin => ha ((inWord_congr hwalone.cfg).1 hin))
  refine ⟨t, ?_, hwalone.trans ht.alone, hidle, ?_, ?_, fun k hk => ?_, fun a ha hne => ?_⟩
  · rw [run_next hu.stepped, run_next hv.stepped, run_add n 1 v (hpicks ▸ hrun), run_next ht.stepped, run_zero]
  · exact hresult.trans (Nat.zero_add n)
  · refine hcursor.trans (Nat.mod_eq_of_lt ?_)
    rw [hwalone.cfg]
    exact Nat.lt_trans (ringAdvance_lt (Nat.zero_lt_of_lt h.desc.writeInRange))
      (size_lt_space_up h.configured h.channel)
  · rw [hkept _ (h.buffer_not_inWord k)]
    exact (hw.placed k (List.mem_range.2 hk)).trans (hvbyte _)
  · rw [hkept a ha, hw.frame a fun k hk => hne k (List.mem_range.1 hk)]
    exact hvbyte a

end WriteIssued

end Sys2Proof.Machine

/-! ## The obligations about UP_WRITE, UP_GET_MODE and UP_SET_MODE (41_write.md) -/

section
open Sys2Proof Sys2Proof.Machine

/-- Settles O20: by induction on the copy steps, each of which copies one pending byte and leaves the others pending. -/
theorem upWriteCopyOrderDoesNotMatter : Obligations.UpWriteCopyOrderDoesNotMatter := by
  intro s p l picks moves hc hbusy hne honce hchunk hshort hbuf hsource hapart hlen hs
  have hstate : (s.port p).state = .busy (.write (if l.pending = [] then .publish else .copy) l) := by
    rw [if_neg hne, hbusy]
  obtain ⟨t, hrun, hcopied, hsched⟩ :=
    run_copy picks s l hc ⟨honce, hchunk, hshort, hbuf, hsource, hapart⟩ hstate hlen hs
  exact ⟨t, hrun, hcopied.state, hcopied.placed, hcopied.frame, hcopied.alone.others, hcopied.alone.faults, hsched⟩

/-- Settles O21: the issue and sample steps, then the copy steps of the chunk in any order and the publish step. -/
theorem upWriteAlonePlacesWhatFits : Obligations.UpWriteAlonePlacesWhatFits := by
  intro s p c n ch m r rest picks moves hc _ hch hb hup hidle hq hcmd haddr hlen hin hapart hrace hmode hroom hn hpicks
    hs
  have h : WriteIssued s p c ch m r rest := ⟨hc, hch, hb, hup, hidle, hq, hcmd, haddr, hlen, hin, hapart, hrace, hmode⟩
  have hchunk : n = chunk m (ringFree (s.readOffset (s.descUp c)) (s.writeOffset (s.descUp c)) ch.size) r.len := by
    rw [hn]
    cases m <;> rfl
  have hblock : m = .block → r.len ≤ n := fun hm => by rw [hchunk, chunk_eq_rem m (hroom hm)]
  obtain ⟨t, hrun, ht⟩ : ∃ t, Host.Core.run Sys2Proof.core picks.length s = .next t ∧ WriteDone p c n ch r s t := by
    by_cases hzero : n = 0
    · rw [if_pos hzero] at hpicks
      obtain ⟨a, b, rfl⟩ := List.length_eq_two.1 hpicks
      exact h.run_nothing hchunk hzero (hzero ▸ hblock) hs
    · rw [if_neg hzero] at hpicks
      obtain ⟨a, b, copies, d, rfl⟩ := exists_ends_of_length hpicks
      rw [hpicks]
      simp only [List.map_cons, List.map_append, List.map_nil, List.cons_append, List.append_assoc,
        List.nil_append] at hs
      exact h.run_chunk hchunk (Nat.pos_of_ne_zero hzero) hblock (by simpa using hpicks) hs
  exact ⟨t, hrun, ht.idle, ht.result, ht.alone.faults, ht.cursor, ht.placed, ht.frame, ht.alone.others⟩

/-- Settles O16: the checks are those of the table, in its order; a flags word that passes check 7 holds a mode. -/
theorem upWriteIssueChecksThenLatches : Obligations.UpWriteIssueChecksThenLatches := by
  intro s ch hi
  refine ⟨exec_upWrite_chRange hi, fun hin => ?_⟩
  have hissue : exec (.upWrite ch) s = issueWrite ch s := by rw [exec_upWrite, execUpWrite, hi]
  obtain ⟨mode, hmode⟩ : ∃ mode, s.wordAt (s.flagsField (s.descUp ch)) % 4 ≠ 3 →
      flagsMode (s.wordAt (s.flagsField (s.descUp ch))) = some mode := by
    cases hf : flagsMode (s.wordAt (s.flagsField (s.descUp ch))) with
    | none => exact ⟨.skip, fun h => absurd (flagsMode_eq_none_iff.1 hf) h⟩
    | some m => exact ⟨m, fun _ => rfl⟩
  rw [hissue, issueWrite_eq hin hmode]
  refine ⟨fun code hcode => afterChecks_of_some hcode, fun hnone => ⟨mode, ?_, afterChecks_of_none hnone⟩⟩
  have hpassed := firstFailing_eq_none_iff.1 hnone (s.modeCheck ch) (by simp [State.writeChecks])
  exact flagsMode_eq_some_iff.1 (hmode (of_decide_eq_false hpassed))

/-- Settles O17: each case is a case of the chunk's size, which is all that remains, all the room, or nothing. -/
theorem upWriteSampleSizesChunkByMode : Obligations.UpWriteSampleSizesChunkByMode := by
  intro s l ch hbusy hin
  rw [exec_write_sample hbusy]
  refine ⟨writeSample_cursorRange hin, fun hr f rem hf hrem => ?_⟩
  subst hf hrem
  refine ⟨fun hzero => ?_, fun hpos hroom => ?_, fun _ hfull hm => ?_, fun _ hfull hpos hm => ?_,
    fun hpos hfull hm => ?_, fun hpos hfull hm => ?_⟩
  · exact writeSample_complete hin hr (chunk_eq_rem _ (hzero ▸ Nat.zero_le _)).symm hzero fun _ =>
      Nat.le_of_sub_eq_zero hzero
  · exact writeSample_sized hin hr (chunk_eq_rem _ hroom).symm hpos
  · exact writeSample_complete hin hr (hm ▸ (chunk_skip_of_lt hfull).symm) rfl (by simp [hm])
  · exact writeSample_sized hin hr (chunk_eq_free hm (Nat.le_of_lt hfull)).symm hpos
  · exact writeSample_complete hin hr (chunk_eq_free (by simp [hm]) (hfull ▸ Nat.zero_le _)).symm hfull (by simp [hm])
  · exact writeSample_held hin hr (chunk_eq_free (by simp [hm]) (hfull ▸ Nat.zero_le _)).symm hfull hm hpos

/-- Settles O18: the picked byte is pending, and each pending byte is the picked one for some `pick`. -/
theorem upWriteCopiesAnyPendingByte : Obligations.UpWriteCopiesAnyPendingByte := by
  intro s l ch hbusy hne hinside
  refine ⟨?_, fun k hk => ?_⟩
  · have hk := pickPending_mem hne s.pick
    refine ⟨_, hk, ?_⟩
    rw [exec_write_copy hbusy]
    exact writeCopy_eq hne rfl (hinside _ hk).1 (hinside _ hk).2
  · obtain ⟨pick, hpick⟩ := exists_pick hk
    refine ⟨pick, fun u hu => ?_⟩
    subst hu
    rw [exec_write_copy (s := { s with pick := pick }) hbusy]
    exact writeCopy_eq hne hpick (hinside k hk).1 (hinside k hk).2

/-- Settles O19: the store of the advanced cursor, then the test for another pass. -/
theorem upWritePublishesThenCompletes : Obligations.UpWritePublishesThenCompletes := by
  intro s l ch hbusy hin
  rw [exec_write_publish hbusy]
  refine ⟨writePublish_again hin, fun hend => writePublish_complete hin fun hm => ?_⟩
  exact hend.resolve_left fun hne => hne hm

/-- Settles O22: a write completes at a sample or a publish, and the latches in order there say with what count. -/
theorem upWriteResultByMode : Obligations.UpWriteResultByMode := by
  intro s t p ph l hs h hbusy htb hidle
  have hok : l.Ok s.cfg ph := hs.latchesOk p _ hbusy
  rcases step_busy_cases h hbusy htb with ⟨pick, moves, hexec, rfl⟩ | hport
  · exact exec_write_result (s := s.turn _ pick moves) hok hbusy hexec hidle
  · rw [hport, hbusy] at hidle
    cases hidle

/-- Settles O23: the cases of the sample step, and the one writer of the word that the hold waits for. -/
theorem blockWriteHoldsUntilHostConsumes : Obligations.BlockWriteHoldsUntilHostConsumes := by
  refine ⟨fun s l ch hbusy hm hrem hin => ?_, fun s t p hs hch hb hholds h htb hnot => ?_, fun s p hholds hfinal => ?_⟩
  · obtain ⟨hfault, hsample⟩ := upWriteSampleSizesChunkByMode s l ch hbusy hin
    have hpos : 0 < l.len - l.done := Nat.sub_pos_of_lt hrem
    refine ⟨fun hr hfull => ?_, fun hr hroom => ?_, hfault⟩
    · obtain ⟨-, -, -, -, -, hheld⟩ := hsample hr _ _ rfl rfl
      exact hheld hpos hfull hm
    · have hsized : 0 < chunk l.mode (ringFree (s.readOffset l.d) l.cur l.size) (l.len - l.done) := by
        rw [hm]
        exact Nat.lt_min.2 ⟨hroom, hpos⟩
      rw [exec_write_sample hbusy]
      have hstate : ∀ c, (s.goOn c).cur.state = .busy c := fun c =>
        congrArg Port.state (State.cur_goOn s c (State.active_lt_of_busy hbusy))
      exact ⟨_, _, writeSample_sized hin hr rfl hsized, hstate _, hsized⟩
  · obtain ⟨l, hbusy, hm, hrem, hr, hfull⟩ := hholds
    obtain ⟨k, moves, hmove⟩ := consume_of_not_holds hs hch hb h htb hbusy hm hrem hr hfull hnot
    exact ⟨l, k, moves, hbusy, hmove⟩
  · obtain ⟨l, hbusy, -⟩ := hholds
    obtain ⟨-, hidle, -⟩ := hfinal
    exact nomatch (hidle p (lt_of_port_busy hbusy)).symm.trans hbusy

/-- Settles O29: of the two checks the first compares the channel, the second the mode bits. -/
theorem upGetModeReturnsModeBits : Obligations.UpGetModeReturnsModeBits := by
  intro s ch hi
  refine ⟨exec_upGetMode_chRange hi, fun hin hch => ?_⟩
  rw [execUpGetMode_eq hi hin, State.getModeChecks, State.modeCheck]
  simp only [afterChecks_cons, afterChecks_nil, decide_eq_true_eq, if_neg (Nat.not_le.2 hch)]
  exact ⟨fun h => if_pos h, fun h => if_neg h⟩

/-- Settles O30: the two checks, then the flags word read back after its store. -/
theorem upSetModeReplacesModeBits : Obligations.UpSetModeReplacesModeBits := by
  intro s ch m hc hi
  simp only [← State.otherLatches_iff, Bool.not_eq_true]
  refine ⟨exec_upSetMode_chRange hi (upCount_inside hc), exec_upSetMode_modeRace hc hi, fun hch hin hrace => ?_⟩
  have hpassed : firstFailing (s.setModeChecks ch) = none := by
    simp [firstFailing_eq_none_iff, State.setModeChecks, hch, hrace]
  refine ⟨s.modeSet ch m, (execUpSetMode_eq hi hin).trans (afterChecks_of_none hpassed), modeSet_cur hi, rfl, ?_, ?_⟩
  · rw [modeSet_flags hc, setFlagsMode_mod]
  · rw [modeSet_flags hc, setFlagsMode_div]

/-- Settles O31: a mode was set only if no check failed, and both commands read the flags word as it was left. -/
theorem setModeTakesEffectOnNextCommand : Obligations.SetModeTakesEffectOnNextCommand := by
  intro s t u ch m hc hi hin hset hfaults hmem hcfg hidle
  obtain ⟨hch, rfl⟩ : ch < s.upCount ∧ t = s.modeSet ch m := by
    rcases execUpSetMode_next hi hset with ⟨code, rfl⟩ | ⟨hch, -, -, rfl⟩
    · simp at hfaults
    · exact ⟨hch, rfl⟩
  have hcfg' : u.cfg = s.cfg := hcfg
  have hflags : u.wordAt (u.flagsField (u.descUp ch)) = setFlagsMode (s.wordAt (s.flagsField (s.descUp ch))) m := by
    rw [State.wordAt_congr hmem hcfg, State.flagsField, State.descUp, hcfg']
    exact modeSet_flags hc
  have hcount : ch < u.upCount := by
    rw [State.upCount, State.wordAt_congr hmem hcfg, hcfg]
    exact Nat.lt_of_lt_of_eq hch modeSet_upCount.symm
  have hin' : u.descInside (u.descUp ch) := by
    rw [State.descInside, State.descUp, hcfg']
    exact hin
  refine ⟨?_, fun v ph l hwrite hbusy => ?_⟩
  · have hbits : u.wordAt (u.flagsField (u.descUp ch)) % 4 = m.encoding := by rw [hflags, setFlagsMode_mod]
    have hget := (upGetModeReturnsModeBits u ch hidle).2 hin' hcount
    rw [hbits] at hget
    exact hget.2 (Nat.ne_of_lt m.encoding_lt)
  · rw [exec_upWrite, execUpWrite, hidle] at hwrite
    have hl := State.active_lt_of_idle hidle
    rcases issueWrite_next hwrite with ⟨code, rfl⟩ | ⟨mode, -, -, -, -, -, hmode, -, -, rfl⟩
    · rw [State.cur_raise u code ch hl] at hbusy
      cases hbusy
    · rw [State.cur_goOn u _ hl] at hbusy
      cases hbusy
      rw [hflags, flagsMode_set] at hmode
      exact (Option.some.inj hmode).symm

end

/-! ## DOWN_READ (42_read.md R151 to R154): each phase as an equation, case by case -/

namespace Sys2Proof.Machine

open State

variable {s : State} {l : ReadLatch} {ch k n : Nat}

/-! ### The issue step (R151) -/

theorem descInside_downCount (h : s.descInside (s.descDown ch)) : s.cfg.downCountAddr + s.cfg.W ≤ s.cfg.space := by
  have hbefore := Config.header_before_desc s.cfg (s.upCount + ch)
  simp only [descInside, descDown, Config.downCountAddr, Addr] at *
  omega

/-- The issue step of DOWN_READ is its checks in order, then the latches. -/
theorem issueRead_eq (hin : s.descInside (s.descDown ch)) :
    issueRead ch s = s.afterChecks (s.readChecks ch) ch (.next (s.goOn (.read .sample (s.readLatch ch)))) := by
  have hdesc : s.cfg.descAddr (s.wordAt s.cfg.upCountAddr + ch) = s.descDown ch := rfl
  simp only [issueRead, load_eq (descInside_downCount hin), load_eq (descInside_upCount (ch := s.upCount + ch) hin),
    hdesc, load_eq (descInside_sizeField hin), load_eq (descInside_bufferField hin),
    load_eq (descInside_readOffsetField hin)]
  simp only [readChecks, IssueReads.checks, payloadChecks, List.cons_append, List.nil_append, afterChecks_cons,
    afterChecks_nil, decide_eq_true_eq, ge_iff_le, gt_iff_lt]
  rfl

/-! ### `R_SAMPLE` (R152) -/

section Sample

variable (hin : s.writeOffsetField l.d + s.cfg.W ≤ s.cfg.space)
include hin

theorem readSample_cursorRange (hw : l.size ≤ s.writeOffset l.d) :
    readSample l s = .next (s.raise .cursorRange l.ch) :=
  (load_eq hin _).trans (if_pos hw)

variable (hw : s.writeOffset l.d < l.size) (hn : n = min (ringAvailable (s.writeOffset l.d) l.cur l.size) l.len)
include hw hn

theorem readSample_empty (hzero : n = 0) : readSample l s = .next (s.complete 0) :=
  (load_eq hin _).trans ((if_neg (Nat.not_le.2 hw)).trans (if_pos (hn.symm.trans hzero)))

theorem readSample_sized (hpos : 0 < n) :
    readSample l s = .next (s.goOn (.read .copy { l with n := n, pending := List.range n })) := by
  subst hn
  exact (load_eq hin _).trans ((if_neg (Nat.not_le.2 hw)).trans (if_neg (Nat.ne_of_gt hpos)))

end Sample

/-! ### `R_COPY` (R153) -/

/-- Where a copy step stores byte `k` of the chunk: byte `k` of the output. -/
def readTarget (l : ReadLatch) (k : Nat) : Addr := l.addr + k

/-- The state after the copy of byte `k` of the chunk. -/
def State.readCopied (s : State) (l : ReadLatch) (k : Nat) : State :=
  (s.putByte (readTarget l k) (s.byteAt (readSource l k))).goOn
    (.read (if l.pending.erase k = [] then .publish else .copy) { l with pending := l.pending.erase k })

theorem readCopy_eq (hne : l.pending ≠ []) (hk : pickPending l.pending s.pick = k)
    (hsource : readSource l k < s.cfg.space) (htarget : readTarget l k < s.cfg.space) :
    readCopy l s = .next (s.readCopied l k) := by
  subst hk
  exact (if_neg hne).trans ((loadByte_eq hsource _).trans (storeByte_eq htarget _ _))

/-! ### `R_PUBLISH` (R154) -/

theorem readPublish_eq (hin : s.readOffsetField l.d + s.cfg.W ≤ s.cfg.space) :
    readPublish l s = .next ((s.putWord (s.readOffsetField l.d) (ringAdvance l.cur l.n l.size)).complete l.n) :=
  store_eq hin _ _

end Sys2Proof.Machine

/-! ## Bytes copied one at a time, in any order -/

namespace Sys2Proof.Machine

variable {source target : Nat → Addr} {ks : List Nat} {k : Nat} {s t u : State}

/-- Memory of `t` is that of `s` with every byte `k` of `ks` copied from `source k` to `target k`. -/
structure BytesCopied (source target : Nat → Addr) (ks : List Nat) (s t : State) : Prop where
  placed : ∀ k ∈ ks, t.byteAt (target k) = s.byteAt (source k)
  frame : ∀ a, (∀ k ∈ ks, a ≠ target k) → t.byteAt a = s.byteAt a

theorem BytesCopied.nil (source target : Nat → Addr) (s : State) : BytesCopied source target [] s s :=
  ⟨fun _ hk => (List.not_mem_nil hk).elim, fun _ _ => rfl⟩

/-- One byte copied, then the others, are all copied, if no source is the place of the first. -/
theorem BytesCopied.of_erase (honce : ks.Nodup) (hk : k ∈ ks) (htarget : Function.Injective target)
    (hsource : ∀ j ∈ ks, source j ≠ target k) (hfirst : BytesCopied source target [k] s u)
    (hrest : BytesCopied source target (ks.erase k) u t) : BytesCopied source target ks s t := by
  have herase : ∀ {j}, j ∈ ks.erase k ↔ j ≠ k ∧ j ∈ ks := honce.mem_erase_iff
  have hkept : ∀ a, a ≠ target k → u.byteAt a = s.byteAt a := fun a ha => hfirst.frame a (by simpa using ha)
  refine ⟨fun j hj => ?_, fun a ha => ?_⟩
  · by_cases hjk : j = k
    · subst hjk
      calc t.byteAt (target j)
          = u.byteAt (target j) := hrest.frame _ fun i hi => htarget.ne (herase.1 hi).1.symm
        _ = s.byteAt (source j) := hfirst.placed j List.mem_cons_self
    · calc t.byteAt (target j)
          = u.byteAt (source j) := hrest.placed j (herase.2 ⟨hjk, hj⟩)
        _ = s.byteAt (source j) := hkept _ (hsource j hj)
  · calc t.byteAt a
        = u.byteAt a := hrest.frame a fun i hi => ha i (herase.1 hi).2
      _ = s.byteAt a := hkept a (ha k hk)

end Sys2Proof.Machine

/-! ## A DOWN_READ in flight: what the invariants say of it, and the turns of its port -/

namespace Sys2Proof.Machine

open State

variable {s t : State} {p c n k pick : Nat} {ph ph' : ReadPhase} {l l' : ReadLatch} {moves : List Move}

/-- A down descriptor lies inside the space. -/
theorem descDown_inside (hc : s.cfg.wf = true) (hch : s.Channels) {ch : Channel} (hdown : s.cfg.down[c]? = some ch) :
    s.descInside (s.descDown c) := by
  rw [hch.descDown_eq]
  exact (Config.descAddr_inside (channel_lt_down hdown)).trans (Config.cb_inside hc)

/-- Port `p` of a machine in order has a DOWN_READ in flight. -/
structure ReadRunning (p : Nat) (ph : ReadPhase) (l : ReadLatch) (s : State) : Prop where
  configured : s.cfg.wf = true
  sound : s.Sound
  channels : s.Channels
  busy : (s.port p).state = .busy (.read ph l)

/-- A step from a machine in order leaves one in order. -/
theorem ReadRunning.of_step (hs : s.Sound) (hch : s.Channels) (hb : s.booted = true) (h : step s = .next t)
    (hbusy : (t.port p).state = .busy (.read ph l)) : ReadRunning p ph l t := by
  have hs' := stepKeepsSound s t hs h
  have hch' := stepKeepsChannels s t hs hch hb h (hs'.booted_of_busy hbusy)
  exact ⟨step_cfg h ▸ (step_next h).1, hs', hch', hbusy⟩

namespace ReadRunning

/-! ### What the invariants say -/

section Invariants

variable (h : ReadRunning p ph l s)
include h

theorem next (hstep : step s = .next t) (hbusy : (t.port p).state = .busy (.read ph' l')) : ReadRunning p ph' l' t :=
  .of_step h.sound h.channels (h.sound.booted_of_busy h.busy) hstep hbusy

/-- A step on the port's turn is that of its command. -/
theorem step_eq (hs : s.schedule = .port p pick :: moves) : step s = exec (.downRead l.ch) (s.turn p pick moves) :=
  stepContinuesCommandInFlight s p pick moves _ h.configured hs h.busy

theorem ok : l.Ok s.cfg ph := h.sound.latchesOk p _ h.busy

theorem descInside : s.descInside l.d := by
  obtain ⟨ch, hdown, hd, -⟩ := h.channels.reads p ph l h.busy
  rw [hd]
  exact descDown_inside h.configured h.channels hdown

theorem writeOffset_lt : s.writeOffset l.d < l.size := by
  obtain ⟨ch, hdown, hd, hsize, -⟩ := h.channels.reads p ph l h.busy
  rw [hd, hsize]
  exact (h.channels.down _ ch hdown).1.writeInRange

theorem buffer_mem : (l.buf, l.size) ∈ s.cfg.bufRegions := by
  obtain ⟨ch, hdown, -, hsize, hbuf, -⟩ := h.channels.reads p ph l h.busy
  rw [hsize, hbuf]
  exact Config.downRegion_mem (List.mem_of_getElem? hdown)

theorem source_in_buffer (k : Nat) : l.buf ≤ readSource l k ∧ readSource l k < l.buf + l.size :=
  ⟨Nat.le_add_right _ _, Nat.add_lt_add_left (chunkOffset_lt (Nat.zero_lt_of_lt h.ok.curInRange)) _⟩

theorem source_inside (k : Nat) : readSource l k < s.cfg.space :=
  Nat.lt_of_lt_of_le (h.source_in_buffer k).2 h.ok.bufferInside

theorem target_inside (hk : k < l.len) : readTarget l k < s.cfg.space :=
  Nat.lt_of_lt_of_le (Nat.add_lt_add_left hk _) h.ok.payloadInside

/-- No byte of the output is one of the buffer. -/
theorem source_ne_target (hk : k < l.len) (j : Nat) : readSource l j ≠ readTarget l k := by
  have hbuffer := h.source_in_buffer j
  have hapart := apart_payload h.ok.payloadApart (Config.bufRegions_sub h.buffer_mem)
    (Config.bufRegion_pos h.configured h.buffer_mem) hk
  unfold readTarget
  simp only [Addr] at *
  omega

/-- No byte of the output is one of the read offset. -/
theorem target_not_inWord (hk : k < l.len) : ¬ s.inWord (s.readOffsetField l.d) (readTarget l k) := by
  obtain ⟨ch, hdown, hd, -⟩ := h.channels.reads p ph l h.busy
  have hout := payload_outside h.configured h.ok.payloadApart hk
  have hfield := fieldAddr_inside (channel_lt_down hdown) (show 4 < 6 by decide)
  rw [hd, h.channels.descDown_eq, readOffsetField_eq, not_inWord_iff, readTarget]
  simp only [Addr] at *
  omega

end Invariants

/-! ### The sample step -/

section Sample

variable (h : ReadRunning p .sample l s) (hs : s.schedule = .port p pick :: moves)
  (hn : n = min (ringAvailable (s.writeOffset l.d) l.cur l.size) l.len)
include h hs hn

/-- A sample step that finds nothing to read completes the command and leaves memory alone. -/
theorem turn_sample_empty (hzero : n = 0) :
    ∃ t, TookTurn p moves s t ∧ t.mem = s.mem ∧ (t.port p).state = .idle ∧ (t.port p).result = 0 := by
  have hstep : step s = .next ((s.turn p pick moves).complete 0) := by
    rw [h.step_eq hs, exec_read_sample (s := s.turn p pick moves) h.busy]
    exact readSample_empty (s := s.turn p pick moves) (descInside_writeOffsetField h.descInside)
      h.writeOffset_lt hn hzero
  obtain ⟨hturn, hend⟩ := TookTurn.of_complete hstep ⟨rfl, rfl, fun _ _ => rfl⟩ rfl rfl (lt_of_port_busy h.busy)
  exact ⟨_, hturn, rfl, hend⟩

/-- A sample step that finds bytes to read leaves memory alone. -/
theorem turn_sample_sized (hpos : 0 < n) :
    ∃ t, TookTurn p moves s t ∧ t.mem = s.mem ∧ ReadRunning p .copy { l with n := n, pending := List.range n } t := by
  have hstep : step s =
      .next ((s.turn p pick moves).goOn (.read .copy { l with n := n, pending := List.range n })) := by
    rw [h.step_eq hs, exec_read_sample (s := s.turn p pick moves) h.busy]
    exact readSample_sized (s := s.turn p pick moves) (descInside_writeOffsetField h.descInside)
      h.writeOffset_lt hn hpos
  obtain ⟨hturn, hbusy⟩ := TookTurn.of_goOn hstep ⟨rfl, rfl, fun _ _ => rfl⟩ rfl rfl (lt_of_port_busy h.busy)
  exact ⟨_, hturn, rfl, h.next hstep hbusy⟩

end Sample

/-! ### The copy phase -/

/-- On a port's turn the copy of byte `k` copies it and no other. -/
theorem bytesCopied_readCopied :
    BytesCopied (readSource l) (readTarget l) [k] s ((s.turn p pick moves).readCopied l k) := by
  refine ⟨fun j hj => ?_, fun a ha => ?_⟩
  · obtain rfl : j = k := List.mem_singleton.1 hj
    exact byteAt_putByte_same (s.turn p pick moves) _ _
  · exact byteAt_putByte_ne (s.turn p pick moves) _ (ha k List.mem_cons_self)

theorem pending_lt_len (h : ReadRunning p .copy l s) (hk : k ∈ l.pending) : k < l.len :=
  Nat.lt_of_lt_of_le (h.ok.pendingInChunk k hk) (h.ok.chunkSized (by decide)).2.2

/-- A copy step copies the pending byte it picks and leaves the others pending. -/
theorem turn_copy (h : ReadRunning p .copy l s) (hs : s.schedule = .port p pick :: moves) :
    ∃ k t, k ∈ l.pending ∧ TookTurn p moves s t ∧ BytesCopied (readSource l) (readTarget l) [k] s t ∧
      ReadRunning p (if l.pending.erase k = [] then .publish else .copy) { l with pending := l.pending.erase k } t := by
  have hne : l.pending ≠ [] := h.ok.copying.1 rfl
  obtain ⟨k, hk⟩ : ∃ k, pickPending l.pending pick = k := ⟨_, rfl⟩
  have hmem : k ∈ l.pending := hk ▸ pickPending_mem hne pick
  have hstep : step s = .next ((s.turn p pick moves).readCopied l k) := by
    rw [h.step_eq hs, exec_read_copy (s := s.turn p pick moves) h.busy]
    exact readCopy_eq hne hk (h.source_inside k) (h.target_inside (h.pending_lt_len hmem))
  obtain ⟨hturn, hbusy⟩ := TookTurn.of_goOn hstep ⟨rfl, rfl, fun _ _ => rfl⟩ rfl rfl (lt_of_port_busy h.busy)
  exact ⟨k, _, hmem, hturn, bytesCopied_readCopied, h.next hstep hbusy⟩

/-- One copy step for each pending byte, in any order of the bytes, copies them all. -/
theorem run_copy (picks : List Nat) : ∀ (s : State) (l : ReadLatch),
    ReadRunning p (if l.pending = [] then .publish else .copy) l s →
    picks.length = l.pending.length → s.schedule = picks.map (Move.port p) ++ moves →
    ∃ t, Host.Core.run core picks.length s = .next t ∧ Alone p s t ∧ t.schedule = moves ∧
      BytesCopied (readSource l) (readTarget l) l.pending s t ∧ ReadRunning p .publish { l with pending := [] } t := by
  induction picks with
  | nil =>
    intro s l h hlen hs
    have hnone : l.pending = [] := List.eq_nil_of_length_eq_zero hlen.symm
    have hlatch : { l with pending := [] } = l := by rw [← hnone]
    rw [if_pos hnone] at h
    rw [hlatch, hnone]
    exact ⟨s, rfl, .refl p s, hs, .nil _ _ s, h⟩
  | cons pick picks ih =>
    intro s l h hlen hs
    have hne : l.pending ≠ [] := List.ne_nil_of_length_eq_add_one hlen.symm
    rw [if_neg hne] at h
    obtain ⟨k, u, hk, hu, hfirst, hu'⟩ := h.turn_copy hs
    have hlen' : picks.length = (l.pending.erase k).length := by
      rw [List.length_erase_of_mem hk, ← hlen]
      rfl
    obtain ⟨t, hrun, halone, hsched, hrest, ht⟩ :=
      ih u { l with pending := l.pending.erase k } hu' hlen' hu.schedule
    refine ⟨t, (run_next hu.stepped _).trans hrun, hu.alone.trans halone, hsched, ?_, ht⟩
    exact .of_erase h.ok.pendingOnce hk (add_right_injective l.addr)
      (fun j _ => h.source_ne_target (h.pending_lt_len hk) j) hfirst hrest

/-! ### The publish step -/

/-- The publish step stores the read offset and nothing else, and completes the command. -/
theorem turn_publish (h : ReadRunning p .publish l s) (hs : s.schedule = .port p pick :: moves) :
    ∃ t, TookTurn p moves s t ∧ (t.port p).state = .idle ∧ (t.port p).result = l.n ∧
      t.readOffset l.d = ringAdvance l.cur l.n l.size ∧
      ∀ a, ¬ s.inWord (s.readOffsetField l.d) a → t.byteAt a = s.byteAt a := by
  have hstep : step s = .next (((s.turn p pick moves).putWord (s.readOffsetField l.d)
      (ringAdvance l.cur l.n l.size)).complete l.n) := by
    rw [h.step_eq hs, exec_read_publish (s := s.turn p pick moves) h.busy]
    exact readPublish_eq (s := s.turn p pick moves) (descInside_readOffsetField h.descInside)
  obtain ⟨hturn, hidle, hresult⟩ :=
    TookTurn.of_complete hstep ⟨rfl, rfl, fun _ _ => rfl⟩ rfl rfl (lt_of_port_busy h.busy)
  have hfits : ringAdvance l.cur l.n l.size < s.cfg.space :=
    Nat.lt_of_lt_of_le (ringAdvance_lt (Nat.zero_lt_of_lt h.ok.curInRange))
      ((Nat.le_add_left _ _).trans h.ok.bufferInside)
  refine ⟨_, hturn, hidle, hresult, ?_, fun a ha => ?_⟩
  · exact (wordAt_putWord_same (s.turn p pick moves) _ _).trans (Nat.mod_eq_of_lt hfits)
  · exact byteAt_putWord_out (s.turn p pick moves) _ (not_inWord_iff.1 ha)

end ReadRunning

end Sys2Proof.Machine

/-! ## A whole DOWN_READ, run alone (R155, R157, R158) -/

namespace Sys2Proof.Machine

open State

/-- Port `p` of a booted machine in order is about to issue a DOWN_READ on down channel `c` that passes every check. -/
structure ReadIssued (s : State) (p c : Nat) (ch : Channel) (r : Request) (rest : List Request) : Prop where
  configured : s.cfg.wf = true
  sound : s.Sound
  channels : s.Channels
  booted : s.booted = true
  channel : s.cfg.down[c]? = some ch
  idle : (s.port p).state = .idle
  queue : (s.port p).queue = r :: rest
  cmd : r.cmd = encode (.downRead c)
  addrFits : r.addr < s.cfg.space
  lenFits : r.len < s.cfg.space
  payloadInside : r.addr + r.len ≤ s.cfg.space
  payloadApart : s.cfg.regions.any (fun x => Config.Region.meets (r.addr, r.len) x) = false
  noRace : ∀ q, q ≠ p → (s.port q).latches .down c = false

/-- The latches of such a DOWN_READ. -/
def State.issuedReadLatch (s : State) (c : Nat) (ch : Channel) (r : Request) : ReadLatch :=
  { ch := c, d := s.descDown c, size := ch.size, buf := ch.buf, cur := s.readOffset (s.descDown c), addr := r.addr,
    len := r.len, n := 0, pending := [] }

/-- What such a DOWN_READ, run alone, makes of `s` when it reads `n` bytes. -/
structure ReadDone (p c n : Nat) (ch : Channel) (r : Request) (s t : State) : Prop where
  alone : Alone p s t
  idle : (t.port p).state = .idle
  result : (t.port p).result = n
  cursor : t.readOffset (s.descDown c) = ringAdvance (s.readOffset (s.descDown c)) n ch.size
  placed : ∀ k, k < n →
    t.byteAt (r.addr + k) = s.byteAt (ch.buf + chunkOffset (s.readOffset (s.descDown c)) k ch.size)
  frame : ∀ a, ¬ s.inWord (s.readOffsetField (s.descDown c)) a → (∀ k, k < n → a ≠ r.addr + k) →
    t.byteAt a = s.byteAt a

namespace ReadIssued

variable {s : State} {p c n pick : Nat} {ch : Channel} {r : Request} {rest : List Request} {moves : List Move}
  (h : ReadIssued s p c ch r rest)
include h

theorem decoded : decodeWord r.cmd = .ok (.downRead c) := by
  have hc : c < s.cfg.ndown := lt_of_getElem? h.channel
  have hwf : (Instr.downRead c).wf = true := Instr.wf_iff.2 (hc.trans_le (Config.counts_le h.configured).2)
  rw [h.cmd]
  exact decodeUndoesEncode _ hwf

theorem desc : s.DescOk (s.descDown c) ch := (h.channels.down c ch h.channel).1

theorem descInside : s.descInside (s.descDown c) := descDown_inside h.configured h.channels h.channel

theorem bufferInside : ch.buf + ch.size ≤ s.cfg.space :=
  Config.region_inside h.configured (Config.bufRegions_sub (Config.downRegion_mem (List.mem_of_getElem? h.channel)))

/-- The port once the request is presented. -/
theorem presented : ((s.turn p pick moves).present r rest).cur =
    { s.port p with cmd := r.cmd, addr := r.addr, len := r.len, queue := rest } := by
  rw [cur_present _ _ _ (active_lt_of_idle (s := s.turn p pick moves) h.idle), turn_cfg, Nat.mod_eq_of_lt h.addrFits,
    Nat.mod_eq_of_lt h.lenFits, turn_cur]

/-- The words the issue step checks are those of the configured channel. -/
theorem readLatch_eq : ((s.turn p pick moves).present r rest).readLatch c = s.issuedReadLatch c ch r := by
  rw [readLatch, h.presented]
  exact congrArg₂ (fun size buf => ({ s.issuedReadLatch c ch r with size := size, buf := buf } : ReadLatch))
    h.desc.size h.desc.buffer

/-- Every check of R151 passes. -/
theorem checks_pass : firstFailing (((s.turn p pick moves).present r rest).readChecks c) = none := by
  have hcount : ¬ c ≥ s.downCount := Nat.not_le.2 (h.channels.downCount ▸ lt_of_getElem? h.channel)
  have hrace : ((s.turn p pick moves).present r rest).otherLatches .down c = false :=
    otherLatches_eq_false fun q hq => by
      rw [port_present_ne (s.turn p pick moves) r rest hq]
      exact h.noRace q hq
  have hsize : ¬ s.wordAt (s.sizeField (s.descDown c)) = 0 := by
    rw [h.desc.size]
    exact Nat.ne_of_gt (Nat.zero_lt_of_lt h.desc.readInRange)
  have hbuffer : ¬ s.wordAt (s.bufferField (s.descDown c)) + s.wordAt (s.sizeField (s.descDown c)) > s.cfg.space := by
    rw [h.desc.size, h.desc.buffer]
    exact Nat.not_lt.2 h.bufferInside
  have hcur : ¬ s.readOffset (s.descDown c) ≥ s.wordAt (s.sizeField (s.descDown c)) := by
    rw [h.desc.size]
    exact Nat.not_le.2 h.desc.readInRange
  rw [firstFailing_eq_none_iff]
  simp only [readChecks, IssueReads.checks, payloadChecks, payloadOverlaps, payload, h.presented, List.cons_append,
    List.nil_append, List.forall_mem_cons, decide_eq_false_iff_not]
  exact ⟨hcount, hrace, hsize, hbuffer, hcur, Nat.not_lt.2 h.payloadInside, h.payloadApart, fun _ hx => nomatch hx⟩

/-- The issue step latches and leaves memory alone. -/
theorem turn_issue (hs : s.schedule = .port p pick :: moves) : ∃ u, TookTurn p moves s u ∧ u.mem = s.mem ∧
    ReadRunning p .sample (s.issuedReadLatch c ch r) u := by
  obtain ⟨v, hv, hexec, hactive, -, hsched, hmem, hfaults, -, hcur, hothers⟩ :=
    stepRunsPresentedCommand s p pick moves r rest _ h.configured h.booted hs h.idle h.queue h.decoded
  have hidle : v.cur.state = .idle := by rw [hcur, ← h.idle]
  have hissue : issueRead c v = .next (v.goOn (.read .sample (s.issuedReadLatch c ch r))) := by
    have hchecked := issueRead_eq (s := (s.turn p pick moves).present r rest) h.descInside
    rwa [afterChecks_of_none h.checks_pass, h.readLatch_eq, ← hv] at hchecked
  have hstep : step s = .next (v.goOn (.read .sample (s.issuedReadLatch c ch r))) := by
    rw [hexec, exec_downRead, execDownRead, hidle]
    exact hissue
  have halone : Alone p s v := ⟨by rw [hv]; rfl, hfaults, hothers⟩
  obtain ⟨hturn, hbusy⟩ := TookTurn.of_goOn hstep halone hactive hsched (hactive ▸ active_lt_of_idle hidle)
  exact ⟨_, hturn, hmem, .of_step h.sound h.channels h.booted hstep hbusy⟩

variable (hn : n = min (ringAvailable (s.writeOffset (s.descDown c)) (s.readOffset (s.descDown c)) ch.size) r.len)
include hn

/-- When there is nothing to read, the issue and sample steps are all. -/
theorem run_nothing {a b : Nat} (hzero : n = 0) (hs : s.schedule = .port p a :: .port p b :: moves) :
    ∃ t, Host.Core.run core 2 s = .next t ∧ ReadDone p c n ch r s t := by
  obtain ⟨u, hu, humem, hu'⟩ := h.turn_issue hs
  obtain ⟨t, ht, htmem, hidle, hresult⟩ :=
    hu'.turn_sample_empty hu.schedule (writeOffset_congr humem hu.alone.cfg (s.descDown c) ▸ hn) hzero
  have halone := hu.alone.trans ht.alone
  have hmem := htmem.trans humem
  refine ⟨t, (run_next hu.stepped 1).trans (run_next ht.stepped 0), halone, hidle, hresult.trans hzero.symm, ?_, ?_, ?_⟩
  · rw [readOffset_congr hmem halone.cfg, hzero, ringAdvance_zero h.desc.readInRange]
  · exact fun k hk => absurd (hzero ▸ hk) (Nat.not_lt_zero k)
  · exact fun a _ _ => byteAt_congr hmem a

/-- When there are bytes to read, the copy steps and the publish step follow. -/
theorem run_chunk {a b d : Nat} {picks : List Nat} (hpos : 0 < n) (hpicks : picks.length = n)
    (hs : s.schedule = .port p a :: .port p b :: (picks.map (Move.port p) ++ .port p d :: moves)) :
    ∃ t, Host.Core.run core (n + 3) s = .next t ∧ ReadDone p c n ch r s t := by
  obtain ⟨u, hu, humem, hu'⟩ := h.turn_issue hs
  obtain ⟨v, hv, hvmem, hv'⟩ :=
    hu'.turn_sample_sized hu.schedule (writeOffset_congr humem hu.alone.cfg (s.descDown c) ▸ hn) hpos
  have hcopying : List.range n ≠ [] := by simpa using Nat.ne_of_gt hpos
  obtain ⟨w, hrun, hwalone, hws, hcopied, hw⟩ := ReadRunning.run_copy picks v
    { s.issuedReadLatch c ch r with n := n, pending := List.range n } (by rwa [if_neg hcopying])
    (by rw [hpicks, List.length_range]) hv.schedule
  obtain ⟨t, ht, hidle, hresult, hcursor, hkept⟩ := hw.turn_publish hws
  have halone := (hu.alone.trans hv.alone).trans hwalone
  have hvbyte := fun a => byteAt_congr (hvmem.trans humem) a
  refine ⟨t, ?_, halone.trans ht.alone, hidle, hresult, hcursor, fun k hk => ?_, fun a ha hne => ?_⟩
  · rw [run_next hu.stepped, run_next hv.stepped, run_add n 1 v (hpicks ▸ hrun), run_next ht.stepped, run_zero]
  · have hlen : k < r.len := Nat.lt_of_lt_of_le hk (hn ▸ Nat.min_le_right _ _)
    calc t.byteAt (r.addr + k)
        = w.byteAt (r.addr + k) := hkept _ (hw.target_not_inWord hlen)
      _ = v.byteAt (ch.buf + chunkOffset (s.readOffset (s.descDown c)) k ch.size) :=
        hcopied.placed k (List.mem_range.2 hk)
      _ = s.byteAt (ch.buf + chunkOffset (s.readOffset (s.descDown c)) k ch.size) := hvbyte _
  · have hout : ¬ w.inWord (w.readOffsetField (s.descDown c)) a := by
      rwa [readOffsetField_congr halone.cfg, inWord_congr halone.cfg]
    calc t.byteAt a
        = w.byteAt a := hkept a hout
      _ = v.byteAt a := hcopied.frame a fun k hk => hne k (List.mem_range.1 hk)
      _ = s.byteAt a := hvbyte a

end ReadIssued

end Sys2Proof.Machine

/-! ## The obligations about DOWN_READ (42_read.md) -/

section
open Sys2Proof Sys2Proof.Machine

/-- Settles O28: the issue and sample steps, then the copy steps of the chunk in any order and the publish step. -/
theorem downReadAloneCopiesOldestBytes : Obligations.DownReadAloneCopiesOldestBytes := by
  intro s p c n ch r rest picks moves hc hsound hch hb hdown hidle hq hcmd haddr hlen hin hapart hrace hn hpicks hs
  have h : ReadIssued s p c ch r rest :=
    ⟨hc, hsound, hch, hb, hdown, hidle, hq, hcmd, haddr, hlen, hin, hapart, hrace⟩
  obtain ⟨t, hrun, ht⟩ : ∃ t, Host.Core.run Sys2Proof.core picks.length s = .next t ∧ ReadDone p c n ch r s t := by
    by_cases hzero : n = 0
    · rw [if_pos hzero] at hpicks
      obtain ⟨a, b, rfl⟩ := List.length_eq_two.1 hpicks
      exact h.run_nothing hn hzero hs
    · rw [if_neg hzero] at hpicks
      obtain ⟨a, b, copies, d, rfl⟩ := exists_ends_of_length hpicks
      rw [hpicks]
      simp only [List.map_cons, List.map_append, List.map_nil, List.cons_append, List.append_assoc,
        List.nil_append] at hs
      exact h.run_chunk hn (Nat.pos_of_ne_zero hzero) (by simpa using hpicks) hs
  exact ⟨t, hrun, ht.idle, ht.result, ht.alone.faults, ht.cursor, ht.placed, ht.frame, ht.alone.others⟩

/-- Settles O24: the checks are those of the table, in its order, and the flags word is none of the words read. -/
theorem downReadIssueChecksThenLatches : Obligations.DownReadIssueChecksThenLatches := by
  intro s ch hi
  refine ⟨exec_downRead_chRange hi, fun hin => ?_⟩
  have hissue : exec (.downRead ch) s = issueRead ch s := by rw [exec_downRead, execDownRead, hi]
  rw [hissue, issueRead_eq hin]
  exact ⟨fun code hcode => afterChecks_of_some hcode, fun hnone => afterChecks_of_none hnone⟩

/-- Settles O25: a bad peer cursor, nothing to read, or a chunk. -/
theorem downReadSampleSizesChunk : Obligations.DownReadSampleSizesChunk := by
  intro s l ch hbusy hin
  rw [exec_read_sample hbusy]
  exact ⟨readSample_cursorRange hin, fun hw n hn => ⟨readSample_empty hin hw hn, readSample_sized hin hw hn⟩⟩

/-- Settles O26: the picked byte is pending, and each pending byte is the picked one for some `pick`. -/
theorem downReadCopiesAnyPendingByte : Obligations.DownReadCopiesAnyPendingByte := by
  intro s l ch hbusy hne hinside
  refine ⟨?_, fun k hk => ?_⟩
  · have hk := pickPending_mem hne s.pick
    refine ⟨_, hk, ?_⟩
    rw [exec_read_copy hbusy]
    exact readCopy_eq hne rfl (hinside _ hk).1 (hinside _ hk).2
  · obtain ⟨pick, hpick⟩ := exists_pick hk
    refine ⟨pick, fun u hu => ?_⟩
    subst hu
    rw [exec_read_copy (s := { s with pick := pick }) hbusy]
    exact readCopy_eq hne hpick (hinside k hk).1 (hinside k hk).2

/-- Settles O27: the one store of the publish step, then the completion. -/
theorem downReadPublishesAndCompletes : Obligations.DownReadPublishesAndCompletes := by
  intro s l ch hbusy hin
  rw [exec_read_publish hbusy]
  exact readPublish_eq hin

end

/-! ## The buffers of the channels (40_ring_engine.md R100, R101): whose a byte is, and whether it is free -/

namespace Sys2Proof.Config

/-- A byte of two buffers is a byte of one buffer. -/
theorem bufRegion_unique {c : Config} (h : c.wf = true) {i j : Nat} {x y : Region} (hi : c.bufRegions[i]? = some x)
    (hj : c.bufRegions[j]? = some y) {a : Addr} (hx : x.1 ≤ a ∧ a < x.1 + x.2) (hy : y.1 ≤ a ∧ a < y.1 + y.2) :
    i = j := by
  by_contra hij
  have hapart := bufs_apart h hi hj hij
  unfold Region.Apart at hapart
  simp only [Addr] at *
  omega

end Sys2Proof.Config

namespace Sys2Proof.Machine

open State

/-- An unread byte of a ring is at another offset than a free one. -/
theorem chunkOffset_unread_ne_free {r w size j k : Nat} (hr : r < size) (hw : w < size)
    (hj : j < ringAvailable w r size) (hk : k < ringFree r w size) : chunkOffset r j size ≠ chunkOffset w k size := by
  have hsum := ringFree_add_ringAvailable hr hw
  -- the free byte lies `available + k` behind the read cursor, the unread one only `j`
  have hfree : chunkOffset w k size = chunkOffset r (ringAvailable w r size + k) size :=
    calc chunkOffset w k size
        = chunkOffset (ringAdvance r (ringAvailable w r size) size) k size := by rw [ringAdvance_ringAvailable hw hr]
      _ = chunkOffset r (ringAvailable w r size + k) size := ringAdvance_ringAdvance
  intro he
  have := chunkOffset_inj (by omega) (by omega) (he.trans hfree)
  omega

/-- Address `a` is in the free region of the buffer of `ch`, by the cursors of the descriptor at `d`. -/
def State.inFreeRegion (s : State) (d : Addr) (ch : Channel) (a : Addr) : Prop :=
  ∃ k, k < ringFree (s.readOffset d) (s.writeOffset d) ch.size ∧ a = ch.buf + (s.writeOffset d + k) % ch.size

variable {s t : State} {a d : Addr} {i j k : Nat} {r : Config.Region}

theorem State.inFreeRegion.in_buffer {ch : Channel} (h : s.inFreeRegion d ch a) (hpos : 0 < ch.size) :
    ch.buf ≤ a ∧ a < ch.buf + ch.size := by
  obtain ⟨k, -, rfl⟩ := h
  exact ⟨Nat.le_add_right _ _, Nat.add_lt_add_left (Nat.mod_lt _ hpos) _⟩

/-- An unread byte is not in the free region. -/
theorem State.DescOk.unread_not_free {ch : Channel} (h : s.DescOk d ch)
    (hj : j < ringAvailable (s.writeOffset d) (s.readOffset d) ch.size) :
    ¬ s.inFreeRegion d ch (ch.buf + (s.readOffset d + j) % ch.size) := by
  rintro ⟨k, hk, he⟩
  exact chunkOffset_unread_ne_free h.readInRange h.writeInRange hj hk (Nat.add_left_cancel he)

/-- No byte of a buffer is a byte of a descriptor field. -/
theorem buffer_not_inField (hc : s.cfg.wf = true) (hr : r ∈ s.cfg.bufRegions) (ha : r.1 ≤ a ∧ a < r.1 + r.2)
    (hi : i < s.cfg.nup + s.cfg.ndown) (hj : j < 6) : ¬ s.inWord (fieldAddr s.cfg i j) a := by
  have hout := buf_outside_cb hc hr ha.1 ha.2
  have hfield := fieldAddr_inside hi hj
  rw [not_inWord_iff]
  simp only [Addr] at *
  omega

/-! ### What a port's step changes in the buffers (43_host.md R177) -/

/-- A byte that a port's step changes is one that its command in flight may store to, or one of a flags word. -/
theorem portStep_changed (h : portStep s = .next t) (hne : t.byteAt a ≠ s.byteAt a) :
    (∃ c, s.cur.state = .busy c ∧ s.touches c.instr a) ∨
      ∃ ch, ch < s.upCount ∧ s.inWord (s.flagsField (s.descUp ch)) a := by
  rcases portStep_next h with ⟨rfl, -⟩ | ⟨r, rest, i, -, hi, -, -, hexec⟩ | ⟨r, rest, e, -, -, -, -, rfl⟩ |
    ⟨c, hbusy, hexec⟩
  · exact absurd rfl hne
  · have htouch := (exec_step hexec).touches_of_ne hne
    have hidle : (s.present r rest).cur.state = .idle := by
      rw [cur_present _ r rest (active_lt_of_idle hi)]
      exact hi
    cases i with
    | upWrite ch => rcases htouch with ⟨l, hl, -⟩ | ⟨l, hl, -⟩ <;> exact nomatch hidle.symm.trans hl
    | downRead ch => rcases htouch with ⟨l, hl, -⟩ | ⟨l, hl, -⟩ <;> exact nomatch hidle.symm.trans hl
    | upGetMode ch => exact htouch.elim
    | upSetMode ch m => exact .inr ⟨ch, htouch⟩
  · exact absurd rfl hne
  · exact .inl ⟨c, hbusy, (exec_step hexec).touches_of_ne hne⟩

/-- A copy step of UP_WRITE stores into the free region of its channel. -/
theorem writeTarget_free (hs : s.Sound) (hch : s.Channels) {p : Nat} {l : WriteLatch}
    (hbusy : (s.port p).state = .busy (.write .copy l)) (hk : k ∈ l.pending) :
    ∃ ch, s.cfg.up[l.ch]? = some ch ∧ s.inFreeRegion (s.descUp l.ch) ch.toChannel (writeTarget l k) := by
  have hok : l.Ok s.cfg .copy := hs.latchesOk p _ hbusy
  obtain ⟨ch, hup, hd, hsize, hbuf, hcur, hroom⟩ := hch.writes p _ l hbusy
  refine ⟨ch, hup, k, ?_, ?_⟩
  · rw [← hd, ← hcur, ← hsize]
    exact Nat.lt_of_lt_of_le (hok.pendingInChunk k hk) (hroom (by decide))
  · rw [← hd, ← hcur, ← hsize, ← hbuf]
    rfl

section Buffers

variable (hs : s.Sound) (hch : s.Channels) (hc : s.cfg.wf = true)
include hs hch hc

/-- A byte of a buffer that a command in flight may store to is the target of a copy step of UP_WRITE. -/
theorem touches_buffer {c : InFlight} (hbusy : s.cur.state = .busy c) (htouch : s.touches c.instr a)
    (hr : r ∈ s.cfg.bufRegions) (ha : r.1 ≤ a ∧ a < r.1 + r.2) :
    ∃ l, s.cur.state = .busy (.write .copy l) ∧ a = writeTarget l (pickPending l.pending s.pick) := by
  cases c with
  | write ph l =>
    rcases htouch with hcopy | ⟨l', hl', hin⟩
    · exact hcopy
    · obtain ⟨ch, hup, hd, -⟩ := (hch.ties s.active).1 _ l' hl'
      rw [hd, writeOffsetField_eq] at hin
      exact absurd hin (buffer_not_inField hc hr ha (channel_lt_up hup) (by decide))
  | read ph l =>
    rcases htouch with ⟨l', hl', rfl⟩ | ⟨l', hl', hin⟩
    · have hok : l'.Ok s.cfg .copy := hs.latchesOk s.active _ hl'
      have hk := hok.pendingInChunk _ (pickPending_mem (hok.copying.1 rfl) s.pick)
      have hlen := (hok.chunkSized (by decide)).2.2
      have hout := apart_payload hok.payloadApart (Config.bufRegions_sub hr) (Config.bufRegion_pos hc hr)
        (Nat.lt_of_lt_of_le hk hlen)
      simp only [Addr] at *
      omega
    · obtain ⟨ch, hdown, hd, -⟩ := (hch.ties s.active).2 _ l' hl'
      rw [hd, readOffsetField_eq] at hin
      exact absurd hin (buffer_not_inField hc hr ha (channel_lt_down hdown) (by decide))

/-- A byte of a buffer that a port's step changes is in the free region of an up channel with that buffer. -/
theorem portStep_changed_buffer (h : portStep s = .next t) (hi : s.cfg.bufRegions[i]? = some r)
    (ha : r.1 ≤ a ∧ a < r.1 + r.2) (hne : t.byteAt a ≠ s.byteAt a) :
    ∃ ch, s.cfg.up[i]? = some ch ∧ s.inFreeRegion (s.descUp i) ch.toChannel a := by
  have hr : r ∈ s.cfg.bufRegions := List.mem_of_getElem? hi
  rcases portStep_changed h hne with ⟨c, hbusy, htouch⟩ | ⟨c, hlt, hin⟩
  · obtain ⟨l, hcopy, rfl⟩ := touches_buffer hs hch hc hbusy htouch hr ha
    have hpending : l.pending ≠ [] := (hs.latchesOk s.active _ hcopy : l.Ok s.cfg .copy).copying.1 rfl
    obtain ⟨ch, hup, hfree⟩ := writeTarget_free hs hch hcopy (pickPending_mem hpending s.pick)
    have hpos := (Config.channel_bounds (Config.channelOk_up hc (List.mem_of_getElem? hup))).1
    obtain rfl : i = l.ch := Config.bufRegion_unique hc hi (Config.bufRegions_up hup) ha (hfree.in_buffer hpos)
    exact ⟨ch, hup, hfree⟩
  · obtain ⟨ch, hup⟩ := exists_up_of_lt (hch.upCount ▸ hlt)
    rw [descUp, flagsField_eq] at hin
    exact absurd hin (buffer_not_inField hc hr ha (channel_lt_up hup) (by decide))

end Buffers

/-- A port's step leaves the boot alone. -/
theorem portStep_booted (h : portStep s = .next t) : t.booted = s.booted := by
  rcases portStep_next h with ⟨rfl, -⟩ | ⟨r, rest, i, -, -, -, -, hexec⟩ | ⟨r, rest, e, -, -, -, -, rfl⟩ |
    ⟨c, -, hexec⟩
  · rfl
  · exact (exec_step hexec).frame.machine.2.1
  · rfl
  · exact (exec_step hexec).frame.machine.2.1

end Sys2Proof.Machine

/-! ## The host's steps (43_host.md R171 to R174): each as an equation, and what it can change -/

namespace Sys2Proof.Machine

open State

variable {s t : State} {a d : Addr} {c i j k n : Nat}

/-! ### Reads (R171) -/

theorem hostRead_byte (ha : a < s.cfg.space) : s.hostRead a 1 = some (s.byteAt a).toNat := if_pos ⟨rfl, ha⟩

/-- A word is more than one byte. -/
theorem W_ne_one {c : Config} (hc : c.wf = true) : c.W ≠ 1 := by
  rcases Config.W_cases hc with h | h <;> omega

theorem hostRead_word (hc : s.cfg.wf = true) (hal : a % s.cfg.W = 0) (hin : a + s.cfg.W ≤ s.cfg.space) :
    s.hostRead a s.cfg.W = some (s.wordAt a) :=
  (if_neg fun h => W_ne_one hc h.1).trans (if_pos ⟨rfl, hal, hin⟩)

theorem hostRead_eq_none (hbyte : n ≠ 1) (hword : n = s.cfg.W → a % s.cfg.W ≠ 0) : s.hostRead a n = none :=
  (if_neg fun h => hbyte h.1).trans (if_neg fun h => hword h.1 h.2.1)

/-! ### Writes (R172 to R174): where the channels are in order, only the bound decides -/

/-- Every descriptor is the host's to use once the signature is present. -/
theorem hostReaches_descAddr (hc : s.cfg.wf = true) (hch : s.Channels) (hi : i < s.cfg.nup + s.cfg.ndown) :
    s.hostReaches (s.cfg.descAddr i) = true := by
  have hin := (Config.descAddr_inside hi).trans (Config.cb_inside hc)
  simp only [hostReaches, hch.signature, hin, decide_true, Bool.and_self]

theorem hostUpConsume_eq (hc : s.cfg.wf = true) (hch : s.Channels) {ch : UpChannel} (hup : s.cfg.up[c]? = some ch) :
    hostUpConsume c k s =
      if k ≤ ringAvailable (s.writeOffset (s.descUp c)) (s.readOffset (s.descUp c)) ch.size then
        s.putWord (s.readOffsetField (s.descUp c)) (ringAdvance (s.readOffset (s.descUp c)) k ch.size)
      else s := by
  obtain ⟨hdesc, -⟩ := hch.up c ch hup
  have hreach : s.hostReaches (s.descUp c) = true := hostReaches_descAddr hc hch (channel_lt_up hup)
  rw [hostUpConsume, hup]
  exact if_congr ⟨fun h => h.2.2.2, fun hk => ⟨hreach, hdesc.readInRange, hdesc.writeInRange, hk⟩⟩ rfl rfl

section Down

variable (hc : s.cfg.wf = true) (hch : s.Channels) {ch : Channel} (hdown : s.cfg.down[c]? = some ch)
include hc hch hdown

/-- What the down steps of the host ask for besides their bound. -/
theorem hostDown_enabled : s.headerMatches = true ∧ s.hostReaches (s.descDown c) = true ∧
    s.readOffset (s.descDown c) < ch.size ∧ s.writeOffset (s.descDown c) < ch.size := by
  obtain ⟨hdesc, -⟩ := hch.down c ch hdown
  refine ⟨decide_eq_true hch.upCount, ?_, hdesc.readInRange, hdesc.writeInRange⟩
  rw [hch.descDown_eq]
  exact hostReaches_descAddr hc hch (channel_lt_down hdown)

theorem hostDownData_eq (b : Byte) :
    hostDownData c j b s =
      if j < ringFree (s.readOffset (s.descDown c)) (s.writeOffset (s.descDown c)) ch.size then
        s.putByte (ch.buf + (s.writeOffset (s.descDown c) + j) % ch.size) b
      else s := by
  obtain ⟨hheader, hreach, hr, hw⟩ := hostDown_enabled hc hch hdown
  rw [hostDownData, hdown]
  exact if_congr ⟨fun h => h.2.2.2.2, fun hj => ⟨hheader, hreach, hr, hw, hj⟩⟩ rfl rfl

theorem hostDownPublish_eq :
    hostDownPublish c k s =
      if k ≤ ringFree (s.readOffset (s.descDown c)) (s.writeOffset (s.descDown c)) ch.size then
        s.putWord (s.writeOffsetField (s.descDown c)) (ringAdvance (s.writeOffset (s.descDown c)) k ch.size)
      else s := by
  obtain ⟨hheader, hreach, hr, hw⟩ := hostDown_enabled hc hch hdown
  rw [hostDownPublish, hdown]
  exact if_congr ⟨fun h => h.2.2.2.2, fun hk => ⟨hheader, hreach, hr, hw, hk⟩⟩ rfl rfl

end Down

/-- A stored cursor reads back as it was advanced. -/
theorem wordAt_putWord_advance (s : State) (f : Addr) (x k : Nat) {size : Nat} (hpos : 0 < size)
    (hfits : size < s.cfg.space) : (s.putWord f (ringAdvance x k size)).wordAt f = (x + k) % size := by
  rw [wordAt_putWord_same]
  exact Nat.mod_eq_of_lt ((ringAdvance_lt hpos).trans hfits)

/-- A word store changes no byte outside the word. -/
theorem byteAt_putWord_of_not_inWord (s : State) {f : Addr} (v : Word) (h : ¬ s.inWord f a) :
    (s.putWord f v).byteAt a = s.byteAt a :=
  byteAt_putWord_out s v (not_inWord_iff.1 h)

/-! ### What a host step can change, in every state (R176) -/

/-- Field `j` of descriptor slot `i` is a cursor of the host: an up channel's read offset or a down channel's write
offset. -/
def HostCursor (c : Config) (i j : Nat) : Prop :=
  (i < c.nup ∧ j = 4) ∨ (c.nup ≤ i ∧ i < c.nup + c.ndown ∧ j = 3)

theorem HostCursor.inside {c : Config} (h : HostCursor c i j) : i < c.nup + c.ndown ∧ j < 6 := by
  unfold HostCursor at h
  omega

/-- Address `a` is a byte of a host cursor or of the free region of a down buffer, each at its configured place. -/
def State.hostPlace (s : State) (a : Addr) : Prop :=
  (∃ i j, HostCursor s.cfg i j ∧ s.inWord (fieldAddr s.cfg i j) a) ∨
    ∃ c ch, s.cfg.down[c]? = some ch ∧ s.inFreeRegion (s.cfg.descAddr (s.cfg.nup + c)) ch a

theorem hostMove_changed {h : HostStep} (hne : (hostMove h s).byteAt a ≠ s.byteAt a) : s.hostPlace a := by
  cases h with
  | read x n => exact absurd rfl hne
  | upConsume c k =>
    rw [hostMove] at hne
    rcases hostUpConsume_cases c k s with hstay | ⟨ch, hup, -, -, -, -, -, hput⟩
    · exact absurd (congrArg (byteAt · a) hstay) hne
    · rw [hput] at hne
      refine .inl ⟨c, 4, .inl ⟨lt_of_getElem? hup, rfl⟩, ?_⟩
      rw [← readOffsetField_eq]
      exact not_imp_comm.1 (byteAt_putWord_of_not_inWord s _) hne
  | downData c j b =>
    rw [hostMove] at hne
    rcases hostDownData_cases c j b s with hstay | ⟨ch, hdown, hcount, -, -, -, hj, hput⟩
    · exact absurd (congrArg (byteAt · a) hstay) hne
    · rw [hput] at hne
      rw [descDown, hcount] at hj hne
      exact .inr ⟨c, ch, hdown, j, hj, not_imp_comm.1 (byteAt_putByte_ne s b) hne⟩
  | downPublish c k =>
    rw [hostMove] at hne
    rcases hostDownPublish_cases c k s with hstay | ⟨ch, hdown, hcount, -, -, -, -, -, hput⟩
    · exact absurd (congrArg (byteAt · a) hstay) hne
    · rw [hput, descDown, hcount, writeOffsetField_eq] at hne
      have hlt := channel_lt_down hdown
      exact .inl ⟨s.cfg.nup + c, 3, .inr ⟨Nat.le_add_right _ _, hlt, rfl⟩,
        not_imp_comm.1 (byteAt_putWord_of_not_inWord s _) hne⟩

section Place

variable (hc : s.cfg.wf = true) (h : s.hostPlace a)
include hc h

/-- A byte of the control block that is the host's to write is one of a host cursor. -/
theorem State.hostPlace.cursor_of_cb (ha : s.cfg.cbBase ≤ a ∧ a < s.cfg.cbBase + s.cfg.cbSize) :
    ∃ i j, HostCursor s.cfg i j ∧ s.inWord (fieldAddr s.cfg i j) a := by
  rcases h with hcursor | ⟨c, ch, hdown, hfree⟩
  · exact hcursor
  · have hmem := List.mem_of_getElem? hdown
    have hbuf := hfree.in_buffer (Config.channel_bounds (Config.channelOk_down hc hmem)).1
    have hout := buf_outside_cb hc (Config.downRegion_mem hmem) hbuf.1 hbuf.2
    simp only [Addr] at *
    omega

theorem State.hostPlace.not_header : ¬ (s.cfg.cbBase ≤ a ∧ a < s.cfg.cbBase + s.cfg.sigLen + 2 * s.cfg.W) := by
  rintro ⟨hlo, hhi⟩
  have hcb : a < s.cfg.cbBase + s.cfg.cbSize := by
    simp only [Config.cbSize, Addr] at *
    omega
  obtain ⟨i, j, hij, hin⟩ := h.cursor_of_cb hc ⟨hlo, hcb⟩
  have hfield := fieldAddr_inside hij.inside.1 hij.inside.2
  unfold inWord at hin
  simp only [Addr] at *
  omega

theorem State.hostPlace.not_field (hi : i < s.cfg.nup + s.cfg.ndown) (hj : j < 6) (hno : ¬ HostCursor s.cfg i j) :
    ¬ s.inWord (fieldAddr s.cfg i j) a := by
  rintro ⟨hlo, hhi⟩
  have hfield := fieldAddr_inside hi hj
  have hcb : s.cfg.cbBase ≤ a ∧ a < s.cfg.cbBase + s.cfg.cbSize := by
    simp only [Addr] at *
    omega
  obtain ⟨i', j', hij, hin⟩ := h.cursor_of_cb hc hcb
  have hapart := fieldAddr_apart s.cfg hij.inside.2 hj (i := i') (i' := i) (by rintro ⟨rfl, rfl⟩; exact hno hij)
  unfold inWord at hin
  simp only [Addr] at *
  omega

theorem State.hostPlace.not_up_buffer {ch : UpChannel} (hup : ch ∈ s.cfg.up) :
    ¬ (ch.buf ≤ a ∧ a < ch.buf + ch.size) := by
  intro hin
  rcases h with ⟨i, j, hij, hword⟩ | ⟨c, ch', hdown, hfree⟩
  · exact buffer_not_inField hc (Config.upRegion_mem hup) hin hij.inside.1 hij.inside.2 hword
  · have hbuf := hfree.in_buffer (Config.channel_bounds (Config.channelOk_down hc (List.mem_of_getElem? hdown))).1
    obtain ⟨k, hk⟩ := List.getElem?_of_mem hup
    have hsame := Config.bufRegion_unique hc (Config.bufRegions_up hk) (Config.bufRegions_down hdown) hin hbuf
    have hlt : k < s.cfg.nup := lt_of_getElem? hk
    omega

end Place

end Sys2Proof.Machine

/-! ## The obligations about the host (43_host.md) -/

section
open Sys2Proof Sys2Proof.Machine

/-- Settles O54: in the buffers a port's step changes only bytes of the free region of an up channel, which holds no
unread byte; and a port is no writer of a host cursor. -/
theorem portsKeepWhatHostReliesOn : Obligations.PortsKeepWhatHostReliesOn := by
  intro s t p pick moves hs hch hb hm h
  have hc := (step_next h).1
  have hstep : portStep (s.turn p pick moves) = .next t := (step_turn hc hm).symm.trans h
  have htb : t.booted = true := (portStep_booted hstep).trans hb
  have hchanged : ∀ {i r a}, s.cfg.bufRegions[i]? = some r → r.1 ≤ a ∧ a < r.1 + r.2 → t.byteAt a ≠ s.byteAt a →
      ∃ ch, s.cfg.up[i]? = some ch ∧ s.inFreeRegion (s.descUp i) ch.toChannel a :=
    portStep_changed_buffer (s := s.turn p pick moves) (sound_bookkeeping hs p pick moves)
      (channels_bookkeeping hch p pick moves) hc hstep
  have hfree : ∀ (c : Nat) (ch : UpChannel) (a : Addr), s.cfg.up[c]? = some ch → ch.buf ≤ a →
      a < ch.buf + ch.size → t.byteAt a ≠ s.byteAt a → s.inFreeRegion (s.descUp c) ch.toChannel a := by
    intro c ch a hup hlo hhi hne
    obtain ⟨ch', hup', hin⟩ := hchanged (Config.bufRegions_up hup) ⟨hlo, hhi⟩ hne
    cases hup.symm.trans hup'
    exact hin
  obtain ⟨hwriterUp, hwriterDown⟩ := eachCursorHasOneWriter s t hs hch hb h htb
  refine ⟨fun c ch j hup hj => ?_, hfree, fun c ch a hdown hlo hhi => ?_, fun c hlt => ?_, fun c hlt => ?_⟩
  · obtain ⟨hdesc, -⟩ := hch.up c ch hup
    by_contra hne
    have hlt : (s.readOffset (s.descUp c) + j) % ch.size < ch.size := Nat.mod_lt _ (Nat.zero_lt_of_lt hdesc.readInRange)
    exact hdesc.unread_not_free hj (hfree c ch _ hup (Nat.le_add_right _ _) (Nat.add_lt_add_left hlt _) hne)
  · by_contra hne
    obtain ⟨ch', hup, -⟩ := hchanged (Config.bufRegions_down hdown) ⟨hlo, hhi⟩ hne
    have : s.cfg.nup + c < s.cfg.nup := lt_of_getElem? hup
    omega
  · by_contra hne
    obtain ⟨k, moves', hhost⟩ := (hwriterUp c hlt).2.1 hne
    exact nomatch hm.symm.trans hhost
  · by_contra hne
    obtain ⟨k, moves', hhost⟩ := (hwriterDown c hlt).1 hne
    exact nomatch hm.symm.trans hhost

/-- Settles O45: the two reads there are, none of another length or alignment, and a read changes nothing. -/
theorem hostReadsBytesAndAlignedWords : Obligations.HostReadsBytesAndAlignedWords := by
  refine ⟨fun s a n hc => ⟨hostRead_byte, hostRead_word hc, fun hbyte hword => ?_, fun hal => ?_⟩,
    fun s a n moves hc hs => step_eq hc hs⟩
  · exact hostRead_eq_none hbyte fun he => absurd he hword
  · exact hostRead_eq_none (W_ne_one hc) fun _ => hal

/-- Settles O46: the step is the word store of the advanced cursor, or no step. -/
theorem hostConsumeAdvancesReadOffset : Obligations.HostConsumeAdvancesReadOffset := by
  intro s c k ch moves hc hch hup hm
  have hpos : 0 < ch.size := Nat.zero_lt_of_lt (hch.up c ch hup).1.readInRange
  have hfits := size_lt_space_up hc hup
  have hstep : step s = .next (hostUpConsume c k { s with schedule := moves }) := step_eq hc hm
  rw [hostUpConsume_eq (s := { s with schedule := moves }) hc (channels_bookkeeping hch _ _ _) hup] at hstep
  refine ⟨fun hk => ?_, fun hk => ?_⟩
  · exact ⟨_, hstep.trans (congrArg _ (if_pos hk)), wordAt_putWord_advance _ _ _ _ hpos hfits, rfl, rfl,
      fun a => byteAt_putWord_of_not_inWord _ _⟩
  · exact hstep.trans (congrArg _ (if_neg (Nat.not_le.2 hk)))

/-- Settles O47: either step is its one store, or no step. -/
theorem hostFillsThenPublishesDownChannel : Obligations.HostFillsThenPublishesDownChannel := by
  intro s c ch moves hc hch hdown
  have hpos : 0 < ch.size := Nat.zero_lt_of_lt (hch.down c ch hdown).1.readInRange
  have hfits := size_lt_space_down hc hdown
  have hch' : State.Channels { s with schedule := moves } := channels_bookkeeping hch _ _ _
  refine ⟨fun j b hm => ?_, fun k hm => ?_⟩
  · have hstep : step s = .next (hostDownData c j b { s with schedule := moves }) := step_eq hc hm
    rw [hostDownData_eq (s := { s with schedule := moves }) hc hch' hdown] at hstep
    refine ⟨fun hj => ?_, fun hj => ?_⟩
    · exact ⟨_, hstep.trans (congrArg _ (if_pos hj)), State.byteAt_putByte_same .., rfl, rfl,
        fun a => State.byteAt_putByte_ne _ b⟩
    · exact hstep.trans (congrArg _ (if_neg (Nat.not_lt.2 hj)))
  · have hstep : step s = .next (hostDownPublish c k { s with schedule := moves }) := step_eq hc hm
    rw [hostDownPublish_eq (s := { s with schedule := moves }) hc hch' hdown] at hstep
    refine ⟨fun hk => ?_, fun hk => ?_⟩
    · exact ⟨_, hstep.trans (congrArg _ (if_pos hk)), wordAt_putWord_advance _ _ _ _ hpos hfits, rfl, rfl,
        fun a => byteAt_putWord_of_not_inWord _ _⟩
    · exact hstep.trans (congrArg _ (if_neg (Nat.not_le.2 hk)))

/-- Settles O48: a changed byte is in one of the host's places, which the configuration keeps apart from the rest. -/
theorem hostWritesOnlyItsOwnPlaces : Obligations.HostWritesOnlyItsOwnPlaces := by
  intro s t h moves a hm hstep hne
  have hc := (step_next hstep).1
  rw [step_eq hc hm] at hstep
  cases hstep
  have hplace : s.hostPlace a := hostMove_changed (s := { s with schedule := moves }) hne
  refine ⟨?_, hplace.not_header hc, ?_, fun c hlt => ?_, fun c hlt => ?_, fun ch => hplace.not_up_buffer hc⟩
  · rcases hplace with ⟨i, j, ⟨hi, rfl⟩ | ⟨hle, hi, rfl⟩, hin⟩ | ⟨c, ch, hdown, k, hk, hak⟩
    · exact .inl ⟨i, hi, readOffsetField_eq s i ▸ hin⟩
    · obtain ⟨c, rfl⟩ := Nat.exists_eq_add_of_le hle
      exact .inr (.inl ⟨c, Nat.lt_of_add_lt_add_left hi, writeOffsetField_eq s _ ▸ hin⟩)
    · exact .inr (.inr ⟨c, ch, k, hdown, hk, hak⟩)
  · rintro i hi _ rfl
    have hfixed : ∀ j, j < 3 ∨ j = 5 → ¬ s.inWord (fieldAddr s.cfg i j) a := fun j hj =>
      hplace.not_field hc hi (by omega) (by unfold HostCursor; omega)
    rw [nameField_eq, bufferField_eq, sizeField_eq, flagsField_eq]
    exact ⟨hfixed 0 (by decide), hfixed 1 (by decide), hfixed 2 (by decide), hfixed 5 (by decide)⟩
  · rw [writeOffsetField_eq]
    exact hplace.not_field hc (Nat.lt_add_right _ hlt) (by decide) (by unfold HostCursor; omega)
  · rw [readOffsetField_eq]
    exact hplace.not_field hc (Nat.add_lt_add_left hlt _) (by decide) (by unfold HostCursor; omega)

end

/-! ## Faults (60_exceptions.md R202, R204): a step that adds a record to the log only raises -/

namespace Sys2Proof.Machine

open State

variable {s t : State}

/-- What a fault of the current port makes of `s`: the record, the halted port, and nothing else of what R202 names. -/
structure FaultStep (s t : State) : Prop where
  record : ∃ code ch, t.faults = s.faults ++ [{ code := code, port := s.active, ch := ch }]
  halted : (t.port s.active).state = .faulted
  mem : t.mem = s.mem
  result : (t.port s.active).result = s.cur.result
  others : ∀ q, q ≠ s.active → t.port q = s.port q

theorem FaultStep.of_raise (hl : s.active < s.ports.length) (code : FaultCode) (ch : Nat) :
    FaultStep s (s.raise code ch) := by
  have hcur : (s.raise code ch).port s.active = { s.cur with state := .faulted } := cur_raise s code ch hl
  exact ⟨⟨code, ch, rfl⟩, by rw [hcur], rfl, by rw [hcur], fun _ => port_raise_ne s code ch⟩

/-- A fault at issue: the registers of the port take the request, which touches nothing that R202 names. -/
theorem FaultStep.of_present_raise (hi : s.cur.state = .idle) (r : Request) (rest : List Request) (code : FaultCode)
    (ch : Nat) : FaultStep s ((s.present r rest).raise code ch) := by
  have hl := active_lt_of_idle hi
  have hpresented := cur_present s r rest hl
  have hfault := FaultStep.of_raise (s := s.present r rest) (by simpa using hl) code ch
  exact ⟨hfault.record, hfault.halted, hfault.mem, hfault.result.trans (by rw [hpresented]),
    fun q hq => (hfault.others q hq).trans (port_present_ne s r rest hq)⟩

/-! An IDLE port issues. -/

theorem exec_write_issue (hi : s.cur.state = .idle) (ch : Nat) : exec (.upWrite ch) s = issueWrite ch s := by
  rw [exec_upWrite, execUpWrite, hi]

theorem exec_read_issue (hi : s.cur.state = .idle) (ch : Nat) : exec (.downRead ch) s = issueRead ch s := by
  rw [exec_downRead, execDownRead, hi]

/-- The step of a command in flight that faults is a sample step, and all it does is raise CURSOR_RANGE. -/
theorem exec_busy_fault {c : InFlight} (hbusy : s.cur.state = .busy c) (h : exec c.instr s = .next t)
    (hne : t.faults ≠ s.faults) :
    ((∃ l, c = .write .sample l) ∨ ∃ l, c = .read .sample l) ∧ t = s.raise .cursorRange c.channel.2 := by
  cases c with
  | write ph l =>
    cases ph with
    | sample =>
      rw [InFlight.instr, exec_write_sample hbusy] at h
      rcases writeSample_next h with ⟨-, rfl⟩ | ⟨-, n, -, ⟨-, rfl⟩ | ⟨-, -, -, rfl⟩ | ⟨-, -, rfl⟩⟩
      · exact ⟨.inl ⟨l, rfl⟩, rfl⟩
      · exact absurd rfl hne
      · exact absurd rfl hne
      · exact absurd rfl hne
    | copy =>
      rw [InFlight.instr, exec_write_copy hbusy] at h
      rcases writeCopy_next h with ⟨-, rfl⟩ | ⟨k, -, -, -, rfl⟩
      · exact absurd rfl hne
      · exact absurd rfl hne
    | publish =>
      rw [InFlight.instr, exec_write_publish hbusy] at h
      obtain ⟨-, u, rfl, ⟨-, -, rfl⟩ | ⟨-, rfl⟩⟩ := writePublish_next h
      · exact absurd rfl hne
      · exact absurd rfl hne
  | read ph l =>
    cases ph with
    | sample =>
      rw [InFlight.instr, exec_read_sample hbusy] at h
      rcases readSample_next h with ⟨-, rfl⟩ | ⟨-, n, -, ⟨-, rfl⟩ | ⟨-, rfl⟩⟩
      · exact ⟨.inr ⟨l, rfl⟩, rfl⟩
      · exact absurd rfl hne
      · exact absurd rfl hne
    | copy =>
      rw [InFlight.instr, exec_read_copy hbusy] at h
      rcases readCopy_next h with ⟨-, rfl⟩ | ⟨k, -, -, -, rfl⟩
      · exact absurd rfl hne
      · exact absurd rfl hne
    | publish =>
      rw [InFlight.instr, exec_read_publish hbusy] at h
      obtain ⟨-, rfl⟩ := readPublish_next h
      exact absurd rfl hne

/-- An issue step that faults only raises. -/
theorem exec_issue_fault {i : Instr} (hi : s.cur.state = .idle) (h : exec i s = .next t) (hne : t.faults ≠ s.faults) :
    ∃ code, t = s.raise code i.ch := by
  cases i with
  | upWrite ch =>
    rw [exec_write_issue hi] at h
    rcases issueWrite_next h with hfault | ⟨mode, -, -, -, -, -, -, -, -, rfl⟩
    · exact hfault
    · exact absurd rfl hne
  | downRead ch =>
    rw [exec_read_issue hi] at h
    rcases issueRead_next h with hfault | ⟨-, -, -, -, -, -, -, rfl⟩
    · exact hfault
    · exact absurd rfl hne
  | upGetMode ch =>
    rcases execUpGetMode_next hi h with hfault | ⟨m, -, -, rfl⟩
    · exact hfault
    · exact absurd rfl hne
  | upSetMode ch m =>
    rcases execUpSetMode_next hi h with hfault | ⟨-, -, -, rfl⟩
    · exact hfault
    · exact absurd rfl hne

theorem portStep_fault (h : portStep s = .next t) (hne : t.faults ≠ s.faults) : FaultStep s t := by
  rcases portStep_next h with ⟨rfl, -⟩ | ⟨r, rest, i, -, hi, -, -, hexec⟩ | ⟨r, rest, e, -, hi, -, -, rfl⟩ |
    ⟨c, hbusy, hexec⟩
  · exact absurd rfl hne
  · have hidle : (s.present r rest).cur.state = .idle := by
      rw [cur_present s r rest (active_lt_of_idle hi)]
      exact hi
    obtain ⟨code, rfl⟩ := exec_issue_fault hidle hexec hne
    exact .of_present_raise hi r rest code i.ch
  · exact .of_present_raise hi r rest _ _
  · obtain ⟨-, rfl⟩ := exec_busy_fault hbusy hexec hne
    exact .of_raise (active_lt_of_busy hbusy) _ _

end Sys2Proof.Machine

/-! ## The issue of a request (60_exceptions.md R203): the checks of the priority table, then the command -/

namespace Sys2Proof.Machine

open State

/-- The checks of a decoded command, those after ILLEGAL_CMD. -/
def State.commandChecks (s : State) : Instr → List (FaultCode × Bool)
  | .upWrite ch => s.writeChecks ch
  | .downRead ch => s.readChecks ch
  | .upGetMode ch => s.getModeChecks ch
  | .upSetMode ch _ => s.setModeChecks ch

variable {s : State} {i : Instr} {ch : Nat}

/-- The table's row for a word is that of the command with its fields. -/
theorem issueChecks_eq {w : CmdWord} (hop : i.op = w.toNat % 4) (hch : i.ch = wordChannel w) :
    s.issueChecks w = (.illegalCmd, illegalWord w) :: s.commandChecks i := by
  rw [issueChecks, ← hop, ← hch]
  cases i <;> rfl

/-- The check of the channel against the count of its direction comes first. -/
theorem afterChecks_chRange {go : Out} (h : (if i.op = 1 then s.downCount else s.upCount) ≤ i.ch) :
    s.afterChecks (s.commandChecks i) i.ch go = .next (s.raise .chRange i.ch) := by
  cases i <;> exact afterChecks_cons.trans (if_pos (decide_eq_true h))

/-- A flags word that passes check 7 of the table holds a mode. -/
theorem exists_flagsMode (flags : Word) : ∃ mode, flags % 4 ≠ 3 → flagsMode flags = some mode := by
  cases hf : flagsMode flags with
  | none => exact ⟨.skip, fun h => absurd (flagsMode_eq_none_iff.1 hf) h⟩
  | some m => exact ⟨m, fun _ => rfl⟩

section Issue

variable (hc : s.cfg.wf = true) (hi : s.cur.state = .idle) (hup : s.upCount = s.cfg.nup)
  (hdown : s.downCount = s.cfg.ndown)
include hc hi hup hdown

/-- A command issued under the configured header runs its checks, then does something that faults nothing. -/
theorem exec_issue_eq (i : Instr) : ∃ v : State,
    exec i s = s.afterChecks (s.commandChecks i) i.ch (.next v) ∧ v.faults = s.faults := by
  by_cases hrange : (if i.op = 1 then s.downCount else s.upCount) ≤ i.ch
  · exact ⟨s, (exec_chRange hc hi hrange).trans (afterChecks_chRange hrange).symm, rfl⟩
  have hlt := Nat.lt_of_not_le hrange
  have hinUp : ∀ {c}, c < s.upCount → s.descInside (s.descUp c) := fun h =>
    let ⟨_, hch⟩ := exists_up_of_lt (hup ▸ h)
    descUp_inside hc hch
  have hinDown : ∀ {c}, c < s.downCount → s.descInside (s.descDown c) := fun h => by
    rw [descDown, hup]
    exact (Config.descAddr_inside (Nat.add_lt_add_left (hdown ▸ h) _)).trans (Config.cb_inside hc)
  cases i with
  | upWrite ch =>
    obtain ⟨mode, hmode⟩ := exists_flagsMode (s.wordAt (s.flagsField (s.descUp ch)))
    exact ⟨_, (exec_write_issue hi ch).trans (issueWrite_eq (hinUp hlt) hmode), rfl⟩
  | downRead ch => exact ⟨_, (exec_read_issue hi ch).trans (issueRead_eq (hinDown hlt)), rfl⟩
  | upGetMode ch => exact ⟨_, execUpGetMode_eq hi (hinUp hlt), rfl⟩
  | upSetMode ch m => exact ⟨_, execUpSetMode_eq hi (hinUp hlt), rfl⟩

/-- An issue step under the configured header runs the checks of the table for the presented word. -/
theorem issueMove_eq (r : Request) (rest : List Request) : ∃ v : State,
    issueMove r rest s = (s.present r rest).afterChecks ((s.present r rest).issueChecks r.cmd) (wordChannel r.cmd)
      (.next v) ∧ v.faults = s.faults := by
  cases hword : illegalWord r.cmd with
  | true =>
    refine ⟨s, (issueMove_of_illegal hword rest s).trans ?_, rfl⟩
    rw [issueChecks, afterChecks_cons, if_pos hword]
  | false =>
    have hidle : (s.present r rest).cur.state = .idle := by
      rw [cur_present s r rest (active_lt_of_idle hi)]
      exact hi
    obtain ⟨i, hissue, hop, hch⟩ := issueMove_of_legal hword rest s
    obtain ⟨v, hexec, hv⟩ := exec_issue_eq (s := s.present r rest) hc hidle hup hdown i
    refine ⟨v, hissue.trans (hexec.trans ?_), hv⟩
    rw [issueChecks_eq hop hch, afterChecks_cons, hword, hch]
    rfl

end Issue

end Sys2Proof.Machine

/-! ## Progress: a machine in order never stops -/

namespace Sys2Proof.Machine

open State

variable {s : State}

theorem exists_next_afterChecks (checks : List (FaultCode × Bool)) (ch : Nat) (v : State) :
    ∃ t, s.afterChecks checks ch (.next v) = .next t := by
  cases h : firstFailing checks with
  | none => exact ⟨v, afterChecks_of_none h⟩
  | some code => exact ⟨_, afterChecks_of_some h⟩

/-! ### The phases: each step's accesses lie inside the space -/

theorem exists_next_writeSample {l : WriteLatch} (hin : s.readOffsetField l.d + s.cfg.W ≤ s.cfg.space) :
    ∃ t, writeSample l s = .next t := by
  rcases Nat.lt_or_ge (s.readOffset l.d) l.size with hr | hr
  · rcases Nat.eq_zero_or_pos (chunk l.mode (ringFree (s.readOffset l.d) l.cur l.size) (l.len - l.done)) with
      hzero | hpos
    · rw [writeSample_empty hin hr rfl hzero]
      split
      · exact ⟨_, rfl⟩
      · exact ⟨_, rfl⟩
    · exact ⟨_, writeSample_sized hin hr rfl hpos⟩
  · exact ⟨_, writeSample_cursorRange hin hr⟩

theorem exists_next_writePublish {l : WriteLatch} (hin : s.writeOffsetField l.d + s.cfg.W ≤ s.cfg.space) :
    ∃ t, writePublish l s = .next t := by
  by_cases hagain : l.mode = .block ∧ l.done + l.n < l.len
  · exact ⟨_, writePublish_again hin hagain.1 hagain.2⟩
  · exact ⟨_, writePublish_complete hin fun hm => Nat.le_of_not_lt fun hd => hagain ⟨hm, hd⟩⟩

theorem exists_next_readSample {l : ReadLatch} (hin : s.writeOffsetField l.d + s.cfg.W ≤ s.cfg.space) :
    ∃ t, readSample l s = .next t := by
  rcases Nat.lt_or_ge (s.writeOffset l.d) l.size with hw | hw
  · rcases Nat.eq_zero_or_pos (min (ringAvailable (s.writeOffset l.d) l.cur l.size) l.len) with hzero | hpos
    · exact ⟨_, readSample_empty hin hw rfl hzero⟩
    · exact ⟨_, readSample_sized hin hw rfl hpos⟩
  · exact ⟨_, readSample_cursorRange hin hw⟩

section Copy

variable {c : Config} {l : WriteLatch} {k : Nat} (h : l.Ok c .copy)
include h

theorem WriteLatch.Ok.source_inside (hk : k ∈ l.pending) : writeSource l k < c.space := by
  have hchunk := h.pendingInChunk k hk
  have hpayload := h.payloadInside
  obtain ⟨-, -, hwithin⟩ := h.chunkSized (by decide)
  unfold writeSource
  simp only [Addr] at *
  omega

theorem WriteLatch.Ok.target_inside (k : Nat) : writeTarget l k < c.space :=
  Nat.lt_of_lt_of_le (Nat.add_lt_add_left (chunkOffset_lt (Nat.zero_lt_of_lt h.curInRange)) _) h.bufferInside

end Copy

/-! ### The steps of a machine in order -/

theorem exists_next_exec_busy (hc : s.cfg.wf = true) (hs : s.Sound) (hch : s.Channels) {c : InFlight}
    (hbusy : s.cur.state = .busy c) : ∃ t, exec c.instr s = .next t := by
  cases c with
  | write ph l =>
    have hok : l.Ok s.cfg ph := hs.latchesOk s.active _ hbusy
    obtain ⟨ch, hup, hd, -⟩ := hch.writes s.active ph l hbusy
    have hin : s.descInside l.d := hd ▸ descUp_inside hc hup
    cases ph with
    | sample =>
      rw [InFlight.instr, exec_write_sample hbusy]
      exact exists_next_writeSample (descInside_readOffsetField hin)
    | copy =>
      have hne := hok.copying.1 rfl
      rw [InFlight.instr, exec_write_copy hbusy]
      exact ⟨_, writeCopy_eq hne rfl (hok.source_inside (pickPending_mem hne s.pick)) (hok.target_inside _)⟩
    | publish =>
      rw [InFlight.instr, exec_write_publish hbusy]
      exact exists_next_writePublish (descInside_writeOffsetField hin)
  | read ph l =>
    have h : ReadRunning s.active ph l s := ⟨hc, hs, hch, hbusy⟩
    cases ph with
    | sample =>
      rw [InFlight.instr, exec_read_sample hbusy]
      exact exists_next_readSample (descInside_writeOffsetField h.descInside)
    | copy =>
      have hne := h.ok.copying.1 rfl
      rw [InFlight.instr, exec_read_copy hbusy]
      have hlen := h.pending_lt_len (pickPending_mem hne s.pick)
      exact ⟨_, readCopy_eq hne rfl (h.source_inside _) (h.target_inside hlen)⟩
    | publish =>
      rw [InFlight.instr, exec_read_publish hbusy]
      exact ⟨_, readPublish_eq (descInside_readOffsetField h.descInside)⟩

theorem exists_next_portStep (hc : s.cfg.wf = true) (hs : s.Sound) (hch : s.booted = true → s.Channels) :
    ∃ t, portStep s = .next t := by
  cases hstate : s.cur.state with
  | idle =>
    cases hb : s.booted with
    | false => exact ⟨s, portStep_unbooted hstate hb⟩
    | true =>
      cases hq : s.cur.queue with
      | nil => exact ⟨s, portStep_noRequest hstate hq⟩
      | cons r rest =>
        obtain ⟨v, hissue, -⟩ := issueMove_eq hc hstate (hch hb).upCount (hch hb).downCount r rest
        rw [portStep_issue hstate hb hq, hissue]
        exact exists_next_afterChecks ..
  | busy c =>
    rw [portStep_busy hstate]
    exact exists_next_exec_busy hc hs (hch (hs.booted_of_busy (p := s.active) hstate)) hstate
  | faulted => exact ⟨s, portStep_faulted hstate⟩

end Sys2Proof.Machine

/-! ## Ends of a run (60_exceptions.md R217) -/

namespace Sys2Proof.Machine

open State

variable {s t : State}

/-- In a final state a port takes no step. -/
theorem State.final.portStep_turn (hf : s.final) (p pick : Nat) (moves : List Move) :
    portStep (s.turn p pick moves) = .next (s.turn p pick moves) := by
  obtain ⟨⟨hqueue, -⟩, hidle, -⟩ := hf
  by_cases hp : p < s.ports.length
  · exact portStep_noRequest (s := s.turn p pick moves) (hidle p hp) (hqueue p)
  · refine portStep_faulted (s := s.turn p pick moves) ?_
    rw [turn_cur, port_absent s (Nat.le_of_not_lt hp)]
    rfl

/-- Whether a state is final depends on its ports and its fault log only. -/
theorem State.final.congr (hf : s.final) (hports : t.ports = s.ports) (hfaults : t.faults = s.faults) : t.final := by
  rw [final_iff] at hf ⊢
  rwa [hports, hfaults]

/-- Reset keeps every queue and leaves no fault. -/
theorem State.final.reset (hf : s.final) (v : ResetValues) : (resetMove v s).final := by
  obtain ⟨hports, -⟩ := (final_iff s).1 hf
  refine (final_iff _).2 ⟨fun q hq => ?_, rfl⟩
  obtain ⟨p, hp, rfl⟩ := List.getElem_of_mem hq
  obtain ⟨q, w, hmem, hreset⟩ := resetPorts_get s.cfg.space s.ports v.regs p hp
  rw [show (resetMove v s).ports[p] = q.afterReset s.cfg.space w from hreset]
  exact ⟨(hports q hmem).1, rfl⟩

theorem State.final.step (hf : s.final) (h : step s = .next t) : t.final := by
  rcases step_cases h with ⟨p, pick, moves, -, hstep⟩ | ⟨v, moves, -, rfl⟩ | ⟨-, hports, hfaults⟩
  · cases (hf.portStep_turn p pick moves).symm.trans hstep
    exact hf.congr rfl rfl
  · exact State.final.reset (s := { s with schedule := moves }) (hf.congr rfl rfl) v
  · exact hf.congr hports hfaults

theorem State.final.not_faultState (hf : s.final) : ¬ s.faultState := by
  rintro ⟨p, hp, hfaulted⟩
  obtain ⟨-, hidle, -⟩ := hf
  exact nomatch (hidle p hp).symm.trans hfaulted

/-- With no FAULTED port a sound machine has no fault record. -/
theorem State.judged.final (hj : s.judged) (hs : s.Sound) (hno : ¬ s.faultState) : s.final := by
  obtain ⟨hqueue, hended⟩ := hj
  refine ⟨⟨hqueue, hended⟩, fun p hp => (hended p hp).resolve_right fun hfaulted => hno ⟨p, hp, hfaulted⟩, ?_⟩
  exact List.eq_nil_iff_forall_not_mem.2 fun r hr => hno ⟨r.port, hs.faultHalts r hr⟩

theorem State.stuck.not_judged (h : s.stuck) : ¬ s.judged := by
  obtain ⟨p, l, hbusy, -⟩ := h
  rintro ⟨-, hended⟩
  rcases hended p (lt_of_port_busy hbusy) with he | he
  · exact nomatch he.symm.trans hbusy
  · exact nomatch he.symm.trans hbusy

end Sys2Proof.Machine

/-! ## The obligations about faults and the ends of a run (60_exceptions.md) -/

section
open Sys2Proof Sys2Proof.Machine

/-- Settles O53: by the move; a port's step reads and stores inside the space, the other agents' moves always answer. -/
theorem safeStateAlwaysSteps : Obligations.SafeStateAlwaysSteps := by
  intro s hc ⟨hs, hch⟩
  cases hm : s.schedule with
  | nil =>
    rw [step, if_pos hc, hm]
    exact ⟨s, rfl⟩
  | cons mv moves =>
    cases mv with
    | port p pick =>
      rw [step_turn hc hm]
      exact exists_next_portStep hc (sound_bookkeeping hs p pick moves) fun hb =>
        channels_bookkeeping (hch hb) p pick moves
    | host h => exact ⟨_, step_eq hc hm⟩
    | requester p a b => exact ⟨_, step_eq hc hm⟩
    | boot => exact ⟨_, step_eq hc hm⟩
    | reset v => exact ⟨_, step_eq hc hm⟩

/-- Settles O36: the issue step is the table's checks in order, then a step that faults nothing. -/
theorem issueChecksRunInPriorityOrder : Obligations.IssueChecksRunInPriorityOrder := by
  intro s u p pick moves r rest hc hb hup hdown hm hi hq hu
  subst hu
  obtain ⟨v, hissue, hv⟩ := issueMove_eq (s := s.turn p pick moves) hc hi hup hdown r rest
  rw [step_issue hc hb hm hi hq, hissue]
  exact ⟨fun code hcode => afterChecks_of_some hcode, fun hnone => ⟨v, afterChecks_of_none hnone, hv⟩⟩

/-- Settles O38: of all moves only a port's adds a record, and it then only raises. -/
theorem faultHaltsPortAndWritesNothing : Obligations.FaultHaltsPortAndWritesNothing := by
  refine ⟨fun s t h hnoReset hne => ?_, fun s t p h _ hfaulted => ?_⟩
  · rcases step_cases h with ⟨p, pick, moves, hm, hstep⟩ | ⟨v, moves, hm, -⟩ | ⟨-, -, hfaults⟩
    · obtain ⟨⟨code, ch, hrecord⟩, hhalted, hmem, hresult, hothers⟩ := portStep_fault hstep hne
      exact ⟨p, pick, moves, code, ch, hm, hrecord, hhalted, hmem, hresult, hothers⟩
    · exact absurd hm (hnoReset v moves)
    · exact absurd hfaults hne
  · rcases step_cases h with ⟨q, pick, moves, -, hstep⟩ | ⟨v, moves, hm, -⟩ | ⟨-, hports, -⟩
    · refine .inr ?_
      by_cases hpq : p = q
      · subst hpq
        cases (portStep_faulted (s := s.turn p pick moves) hfaulted).symm.trans hstep
        rfl
      · exact (portStep_frame hstep).2.1 p hpq
    · exact .inl ⟨v, moves, hm⟩
    · exact .inr (State.port_congr hports p)

/-- Settles O39: of the phases only the sample steps raise. -/
theorem afterIssueOnlyCursorRangeFaults : Obligations.AfterIssueOnlyCursorRangeFaults :=
  fun _ _ _ => exec_busy_fault

/-- Settles O57: a final state's ports have no step, and a sound machine records a fault only with a FAULTED port. -/
theorem finalStatesAreAtRest : Obligations.FinalStatesAreAtRest := by
  refine ⟨fun s p pick moves hc hf hm => ?_, fun s t => State.final.step, fun s hs hj => ?_, fun s hfault hf => ?_,
    fun s => State.stuck.not_judged, fun s p hwaits ⟨hqueue, _⟩ => hwaits (hqueue p)⟩
  · exact (step_turn hc hm).trans (hf.portStep_turn p pick moves)
  · exact ⟨State.final.not_faultState, hj.final hs⟩
  · exact hf.not_faultState hfault

end

/-! ## Reset (70_reset_and_hazards.md R231) -/

namespace Sys2Proof.Machine

/-- A write behind every listed address appends its cell. -/
theorem Memory.write_eq_append {a : Addr} {b : Byte} (hb : b ≠ unwritten) {m : Memory} (h : ∀ c ∈ m, c.1 < a) :
    m.write a b = m ++ [(a, b)] := by
  rw [Memory.write, if_neg hb]
  induction m with
  | nil => rfl
  | cons c rest ih =>
    obtain ⟨hlt, hrest⟩ := List.forall_mem_cons.1 h
    simp [Memory.erase, Memory.insert, Nat.ne_of_lt hlt, Nat.lt_asymm hlt, ih hrest]

/-- Written in order, the cells of a memory in canonical form give that memory. -/
theorem Memory.foldl_write_eq_append (cells : List Host.Cell) : ∀ m : Memory, Memory.wf (m ++ cells) →
    cells.foldl (fun m c => m.write c.1 c.2) m = m ++ cells := by
  induction cells with
  | nil => intro m _; simp
  | cons c rest ih =>
    intro m h
    obtain ⟨hrising, hset⟩ := h
    have hwrite : m.write c.1 c.2 = m ++ [c] :=
      Memory.write_eq_append (hset c (by simp)) fun d hd => (List.pairwise_append.1 hrising).2.2 d hd c (by simp)
    rw [List.foldl_cons, hwrite, ih _ (by simpa using ⟨hrising, hset⟩)]
    simp

theorem Memory.ofCells_of_wf {m : Memory} (h : m.wf) : Memory.ofCells m = m :=
  Memory.foldl_write_eq_append m [] h

/-- A reset move always takes place. -/
theorem step_reset {s : State} {v : ResetValues} {moves : List Move} (hc : s.cfg.wf = true)
    (hs : s.schedule = .reset v :: moves) : step s = .next (resetMove v { s with schedule := moves }) :=
  step_eq hc hs

/-- After reset every port is IDLE. -/
theorem resetMove_idle (v : ResetValues) {s : State} {p : Nat} (hp : p < s.ports.length) :
    ((resetMove v s).port p).state = .idle := by
  have hlen : p < (resetMove v s).ports.length := by rwa [resetMove, resetPorts_length]
  obtain ⟨q, w, -, hq⟩ := resetPorts_get s.cfg.space s.ports v.regs p hlen
  rw [State.port_eq_getElem _ hlen, show (resetMove v s).ports[p] = q.afterReset s.cfg.space w from hq]
  rfl

/-- A reset move that carries the cells of a memory leaves that memory. -/
theorem resetMove_mem {s : State} {m : Memory} (regs : List PortRegs) (hm : m.wf) (hin : ∀ c ∈ m, c.1 < s.cfg.space) :
    (resetMove { mem := m, regs := regs } s).mem = m := by
  have hall : m.filter (fun c => decide (c.1 < s.cfg.space)) = m := List.filter_eq_self.2 (by simpa using hin)
  rw [resetMove, hall, Memory.ofCells_of_wf hm]

end Sys2Proof.Machine

/-! ## The order of the boot sequence (70_reset_and_hazards.md R234) -/

namespace Sys2Proof.Machine

open State

variable {c : Config} {s : State} {moves : List Move}

/-- A boot move before the end of the boot sequence does its next store. -/
theorem step_boot {st : BootStore} (hc : s.cfg.wf = true) (hb : s.booted = false) (hs : s.schedule = .boot :: moves)
    (hst : (bootStores s.cfg)[s.bootPos]? = some st) :
    step s = .next { s with mem := st.apply s.cfg s.mem, bootPos := s.bootPos + 1, schedule := moves } := by
  rw [step_eq hc hs]
  simp [runMove, bootMove, hb, hst]

/-- The stores of the boot sequence before the signature: the zeros, the counts and the descriptors. -/
def bootBeforeSignature (c : Config) : List BootStore := bootZeros c ++ bootCounts c ++ slotStores c 0 (slotFields c)

theorem bootStores_eq_signature_last (c : Config) :
    bootStores c = bootBeforeSignature c ++ bootSignature c.cbBase c.signature := by
  simp [bootStores_eq, bootValues, bootBeforeSignature]

theorem length_bootStores (c : Config) : (bootStores c).length = (bootBeforeSignature c).length + c.sigLen := by
  simp [bootStores_eq_signature_last, bootSignature_eq, Config.sigLen]

/-- The `k`-th of the last stores writes the `k`-th byte of the signature. -/
theorem bootStores_signature {k : Nat} {b : Byte} (hk : c.signature[k]? = some b) :
    (bootStores c)[(bootBeforeSignature c).length + k]? = some (.byte (c.cbBase + k) b) := by
  rw [bootStores_eq_signature_last, List.getElem?_append_right (Nat.le_add_right _ _), Nat.add_sub_cancel_left]
  simp [bootSignature_eq, hk]

/-- The counts and the fields of the descriptors are words. -/
theorem word_of_mem_counts_slots {st : BootStore} (h : st ∈ bootCounts c ++ slotStores c 0 (slotFields c)) :
    ∃ a v, st = .word a v := by
  simp only [bootCounts, slotStores, List.mem_append, List.mem_cons, List.not_mem_nil, or_false, List.mem_flatMap,
    List.mem_map] at h
  rcases h with (rfl | rfl) | ⟨slot, -, jv, -, rfl⟩ <;> exact ⟨_, _, rfl⟩

/-- A store before the signature leaves each byte of the signature's place alone or makes it 0. -/
theorem bootBeforeSignature_read {st : BootStore} (h : st ∈ bootBeforeSignature c) {k : Nat} {b : Byte}
    (hk : c.signature[k]? = some b) (m : Memory) :
    (st.apply c m).read (c.cbBase + k) = m.read (c.cbBase + k) ∨ (st.apply c m).read (c.cbBase + k) = 0 := by
  rw [bootBeforeSignature, List.append_assoc, List.mem_append] at h
  rcases h with hzero | hvalue
  · simp only [bootZeros, List.mem_map] at hzero
    obtain ⟨j, -, rfl⟩ := hzero
    rw [BootStore.apply, Memory.read_write]
    split
    · exact .inr rfl
    · exact .inl rfl
  · obtain ⟨a, v, rfl⟩ := word_of_mem_counts_slots hvalue
    rcases bootValues_signature (List.mem_append_left _ hvalue) hk with heq | hapart
    · cases heq
    · exact .inl (hapart.read (Nat.le_refl _) (Nat.lt_succ_self _) m)

end Sys2Proof.Machine

/-! ## The obligations about reset and boot (70_reset_and_hazards.md) -/

section
open Sys2Proof Sys2Proof.Machine

/-- Settles O8: an IDLE port of a controller that has not booted takes no step. -/
theorem issueIsHeldUntilBooted : Obligations.IssueIsHeldUntilBooted := by
  intro s p pick moves hc hb hm hi
  rw [step_turn hc hm]
  exact portStep_unbooted hi hb

/-- Settles O40: a reset move can carry the cells of any memory, and no other move changes a FAULTED port (R202). -/
theorem resetAbandonsEverything : Obligations.ResetAbandonsEverything := by
  refine ⟨fun s t v moves hc hm h => ?_, fun s m moves hc hwf hin => ?_, fun s t p h hp hfaulted hleft => ?_⟩
  · cases (step_reset hc hm).symm.trans h
    exact ⟨fun p hp => resetMove_idle v hp, resetPorts_length .., rfl, rfl, rfl⟩
  · exact ⟨⟨m, []⟩, _, step_reset (s := { s with schedule := .reset ⟨m, []⟩ :: moves }) hc rfl,
      resetMove_mem [] hwf hin⟩
  · rcases faultHaltsPortAndWritesNothing.2 s t p h hp hfaulted with hreset | hsame
    · exact hreset
    · exact absurd (hsame ▸ hfaulted) hleft

/-- Settles O42: the boot sequence is the stores before the signature, then one store for each of its bytes. -/
theorem signatureIsWrittenLast : Obligations.SignatureIsWrittenLast := by
  intro s moves k b hc hb hm hk
  rw [length_bootStores]
  constructor <;> intro hpos
  · have hbefore : s.bootPos < (bootBeforeSignature s.cfg).length := by omega
    have hst : (bootStores s.cfg)[s.bootPos]? = some (bootBeforeSignature s.cfg)[s.bootPos] := by
      rw [bootStores_eq_signature_last, List.getElem?_append_left hbefore, List.getElem?_eq_getElem hbefore]
    exact ⟨_, step_boot hc hb hm hst, bootBeforeSignature_read (List.getElem_mem hbefore) hk s.mem⟩
  · have hturn : s.bootPos = (bootBeforeSignature s.cfg).length + k := by omega
    have hst : (bootStores s.cfg)[s.bootPos]? = some (.byte (s.cfg.cbBase + k) b) := by
      rw [hturn, bootStores_signature hk]
    exact ⟨_, step_boot hc hb hm hst, Memory.read_write_same .., fun a ha => Memory.read_write_ne s.mem b ha⟩

end
